-- ==== Sys2Proof/Word.lean ====
section
/-! DEFINITION. The word of the machine (00_scope.md R3: `XLEN = 64`) and the byte of a byte-addressed
mapping of its registers (20_memory.md R43). -/

namespace Sys2Proof

/-- `XLEN = 64`: every operand, result, prime and key value is an unsigned 64-bit integer
(00_scope.md R3). -/
abbrev Word := BitVec 64

/-- One byte of a byte-addressed mapping of the register space (20_memory.md R43). -/
abbrev Byte := BitVec 8

end Sys2Proof
end

