-- ==== Sys2Proof/Machine/Arith.lean ====
section
/-! DEFINITION. The functions the commands compute, over exact integers (00_scope.md R4, R6). Each loop
recurses on a bound that its rule shows sufficient. -/

namespace Sys2Proof.Machine

/-- The loop of 40_gcd.md R75: `while b != 0: (a, b) <- (b, a mod b)`. The first argument bounds the
passes; `b` decreases at each, so `b` passes are enough. -/
def gcdLoop : Nat → Nat → Nat → Nat
  | 0, a, _ => a
  | k + 1, a, b => if b = 0 then a else gcdLoop k b (a % b)

/-- `gcd(a, b)` (40_gcd.md R75). -/
def gcd (a b : Nat) : Nat := gcdLoop b a b

/-- The recursion of 41_xgcd_modinv.md R80. The first argument bounds the calls; `a` decreases at each
(R81), so `a` calls are enough. -/
def extendedGcdLoop : Nat → Nat → Nat → Nat × Int × Int
  | 0, _, b => (b, 0, 1)
  | k + 1, a, b =>
    if a = 0 then (b, 0, 1)
    else
      let t := extendedGcdLoop k (b % a) a
      (t.1, t.2.2 - ((b / a : Nat) : Int) * t.2.1, t.2.1)

/-- `extended_gcd(a, b) = (g, x, y)` (41_xgcd_modinv.md R80). -/
def extendedGcd (a b : Nat) : Nat × Int × Int := extendedGcdLoop a a b

/-- `mod_inverse(a, m) = (extended_gcd(a, m).x + m) mod m` (41_xgcd_modinv.md R84). The sum is never
negative for coprime `a` and `m >= 1` (R85). -/
def modInverse (a m : Nat) : Nat := (((extendedGcd a m).2.1 + (m : Int)) % (m : Int)).toNat

/-- The loop of 42_modpow.md R90 on the accumulator `x`, the running square `y` and the exponent `k`, with
the last reduction of R91. The first argument bounds the passes; `k` halves at each (R96), so `k` passes
are enough. -/
def modPowLoop : Nat → Nat → Nat → Nat → Nat → Nat
  | 0, x, _, _, m => x % m
  | fuel + 1, x, y, k, m =>
    if k = 0 then x % m
    else modPowLoop fuel (if k % 2 = 1 then (x * y) % m else x) ((y * y) % m) (k / 2) m

/-- `mod_pow(base, exponent, modulus)` (42_modpow.md R90, R91). -/
def modPow (base exponent modulus : Nat) : Nat := modPowLoop exponent 1 base exponent modulus

end Sys2Proof.Machine
end

