-- ==== Sys2Proof/Syntax.lean ====
section
/-! DEFINITION. The syntax: the five commands (00_scope.md R2) and the two fields of the one command
format (30_encoding.md R60). -/

namespace Sys2Proof

/-- The commands of spec/opcode_table.json. No command has an operand field: operands are implicit
(30_encoding.md R64). -/
inductive Instr where
  | gcd
  | xgcd
  | modinv
  | modpow
  | keygen
deriving DecidableEq, Repr

/-- Format `C` (30_encoding.md R60): `OPCODE` in bits 7:0, `ZERO` in bits 63:8. -/
structure CommandWord where
  opcode : BitVec 8
  zero   : BitVec 56
deriving DecidableEq, Repr

end Sys2Proof
end

