-- ==== Sys2Proof/WellFormed.lean ====
section
/-! DEFINITION. When the fields of a command word form a legal command (30_encoding.md R61, R62, R63). -/

namespace Sys2Proof

/-- "The field `ZERO` (bits 63:8) must be 0" (30_encoding.md R62). -/
def CommandWord.zeroClear (c : CommandWord) : Bool := c.zero == 0

/-- `OPCODE` is one of the five assigned values 0x01 to 0x05 (30_encoding.md R61, R63). -/
def CommandWord.opcodeAssigned (c : CommandWord) : Bool := 1 ≤ c.opcode.toNat && c.opcode.toNat ≤ 5

/-- A command word is legal exactly when both checks pass (30_encoding.md R61). -/
def CommandWord.wellFormed (c : CommandWord) : Bool := c.zeroClear && c.opcodeAssigned

end Sys2Proof
end

