-- ==== Sys2Proof/Decode.lean ====
section
/-! DEFINITION. The decoder, total on every word and on any bytes, and the encoder, both from the opcode
map of 30_encoding.md R61; the byte order of 20_memory.md R43. -/

namespace Sys2Proof

/-- Why a word is no command. `zeroField`: a bit of `ZERO` is set (R62). `opcode`: `OPCODE` is not
assigned (R63). `length`: the bytes handed to the decoder are not the eight of one word (R60, R71). -/
inductive Illegal where
  | zeroField
  | opcode
  | length
deriving DecidableEq, Repr

/-- The result of decoding (30_encoding.md R72): a command, or illegal, by name. -/
inductive Decoded where
  | command (i : Instr)
  | illegal (why : Illegal)
deriving DecidableEq, Repr

/-- The fields of a word: `w[7:0]` and `w[63:8]` (30_encoding.md R60). -/
def CommandWord.ofWord (w : Word) : CommandWord :=
  { opcode := w.extractLsb' 0 8, zero := w.extractLsb' 8 56 }

/-- The word of two fields: `{ZERO, OPCODE}` (30_encoding.md R60). -/
def CommandWord.toWord (c : CommandWord) : Word := c.zero ++ c.opcode

/-- The opcode map, read from the word (30_encoding.md R61). -/
def ofOpcode (op : BitVec 8) : Option Instr :=
  if op = 0x01 then some .gcd
  else if op = 0x02 then some .xgcd
  else if op = 0x03 then some .modinv
  else if op = 0x04 then some .modpow
  else if op = 0x05 then some .keygen
  else none

/-- `decode(w)` (30_encoding.md R72): total, the `ZERO` field tested first. -/
def decode (w : Word) : Decoded :=
  if (CommandWord.ofWord w).zero ≠ 0 then .illegal .zeroField
  else
    match ofOpcode (CommandWord.ofWord w).opcode with
    | some i => .command i
    | none => .illegal .opcode

/-- `n` bytes of a number, least significant byte first (20_memory.md R43). -/
def leBytes : Nat → Nat → List Byte
  | 0, _ => []
  | n + 1, v => BitVec.ofNat 8 v :: leBytes n (v / 256)

/-- The number of some bytes, least significant byte first (20_memory.md R43). -/
def leNat : List Byte → Nat
  | [] => 0
  | b :: bs => b.toNat + 256 * leNat bs

/-- The eight bytes a register occupies on a byte-addressed mapping (20_memory.md R43). -/
def bytesOfWord (w : Word) : List Byte := leBytes 8 w.toNat

/-- The word of eight bytes (20_memory.md R43). -/
def wordOfBytes (bs : List Byte) : Word := BitVec.ofNat 64 (leNat bs)

/-- Decoding of any bytes: the eight bytes of one command word, every other length rejected. -/
def decodeBytes (bs : List Byte) : Decoded :=
  if bs.length = 8 then decode (wordOfBytes bs) else .illegal .length

/-- The instruction the decoder reads from a row of spec/opcode_table.json, whose bits are numbered as
the table numbers them; the bits above `nbits` are 0. -/
def decodeTableWord (nbits w : Nat) : Option Instr :=
  if nbits ≤ 64 then
    match decodeBytes (leBytes 8 (w % 2 ^ nbits)) with
    | .command i => some i
    | .illegal _ => none
  else none

/-! ## The encoder -/

/-- The opcode map, from the command (30_encoding.md R61). -/
def Instr.opcode : Instr → BitVec 8
  | .gcd => 0x01
  | .xgcd => 0x02
  | .modinv => 0x03
  | .modpow => 0x04
  | .keygen => 0x05

/-- The fields of a command's word: its opcode, `ZERO = 0` (30_encoding.md R60, R62). -/
def Instr.commandWord (i : Instr) : CommandWord := { opcode := i.opcode, zero := 0 }

/-- A command is well formed when its word passes the checks of WellFormed.lean. -/
def Instr.wellFormed (i : Instr) : Bool := i.commandWord.wellFormed

/-- The command word of a command (30_encoding.md R61). -/
def encode (i : Instr) : Word := i.commandWord.toWord

end Sys2Proof
end

