-- ==== Sys2Proof/Config.lean ====
section
/-! DEFINITION. The implementation parameters of 00_scope.md R5. A parameter the spec leaves OPEN is an
opaque constant: nothing in Lean can evaluate it, so a claim holds whatever its value is (log entry 8). -/

namespace Sys2Proof.Config

/-- `PROBE`, the fixed plaintext of the self-validation round trip (00_scope.md R5, decision D22). -/
def probe : Nat := 5

/-- `COEFW`, the width of a Bezout coefficient in two's complement (00_scope.md R5, decision D7). -/
abbrev coefw : Nat := 65

/-- `NREG`, the number of mapped registers (00_scope.md R5, decision D2). -/
def nreg : Nat := 18

/-- OPEN parameter behind `limit`: any number of `[0, 2^63 - 1]`. -/
opaque limitLessOne : Fin (2 ^ 63)

/-- `LIMIT`, OPEN with `1 <= LIMIT <= 2^63` (00_scope.md R5, decision D18). -/
def limit : Nat := limitLessOne.val + 1

/-- OPEN parameter behind `maxtryReset`: any number of `[0, 2^64 - 2]`
(18446744073709551615 is `2^64 - 1`). -/
opaque maxtryResetLessOne : Fin 18446744073709551615

/-- `MAXTRY_RESET`, OPEN with `1 <= MAXTRY_RESET <= 2^64 - 1` (00_scope.md R5, decision D19). -/
def maxtryReset : Word := BitVec.ofNat 64 (maxtryResetLessOne.val + 1)

/-- FREE VALUE behind `qspanOutOfRange`: any number of `[0, 2^64 - 2]` (log entry 2). -/
opaque qspanOutOfRangeLessOne : Fin 18446744073709551615

/-- What `QSPAN` holds after reset in the one case `LIMIT = 2^63`, where `2 * LIMIT = 2^64` does not fit the
64-bit register: a free value of `[1, 2^64 - 1]`, the values that make the reset configuration legal
(10_state.md R23; log entry 2). -/
def qspanOutOfRange : Word := BitVec.ofNat 64 (qspanOutOfRangeLessOne.val + 1)

/-- Reset value of `PSPAN`: `LIMIT` (10_state.md R10, R29). -/
def pspanReset : Word := BitVec.ofNat 64 limit

/-- Reset value of `QSPAN`: `2 * LIMIT` (10_state.md R10, R29); log entry 2 for `LIMIT = 2^63`. -/
def qspanReset : Word :=
  if 2 * limit < 2 ^ 64 then BitVec.ofNat 64 (2 * limit) else qspanOutOfRange

/-- `PRIME_TABLE`, OPEN: the ordered list behind the PrimeSource port (00_scope.md R5, 20_memory.md
R47). -/
opaque primeTable : List Word

/-- `PRIME_AVAILABLE`, OPEN: whether the PrimeSource may answer `notfound` for an index inside the table
(00_scope.md R5, 20_memory.md R47). -/
opaque primeMayBeUnavailable : Bool

end Sys2Proof.Config
end

