-- ==== Sys2Proof/Machine/State.lean ====
section
/-! DEFINITION. The state of the modular_inverse engine (10_state.md R10, R16, R25) and of the agents
around it (10_state.md R24), the reasons a step can stop, and the state after reset (R29). There is no
data memory, no instruction memory and no program counter (10_state.md R10, R24; 20_memory.md R40). -/

namespace Sys2Proof.Machine

/-- The codes of `STATUS.ERR` (10_state.md R18). Their values are in Flags.lean. -/
inductive ErrCode where
  | none | illegalCmd | bothZero | modZero | notCoprime | config | primeNotFound | retryLimit | randRange
deriving DecidableEq, Repr

/-- The codes of `STATUS.LASTFAIL` (10_state.md R19). -/
inductive FailCause where
  | none | overflow | phiRange | edCheck | roundtrip
deriving DecidableEq, Repr

/-- The codes of `STATUS.PHASE` (10_state.md R20). -/
inductive Phase where
  | idle | exec | waitRand | waitPrime
deriving DecidableEq, Repr

/-- The fields of `STATUS` (10_state.md R16). The host never writes the register, so its reserved bits
are not state: they read 0 (`statusWord` of Flags.lean). -/
structure Status where
  busy     : Bool
  done     : Bool
  xneg     : Bool
  yneg     : Bool
  err      : ErrCode
  lastFail : FailCause
  phase    : Phase
deriving DecidableEq, Repr

/-- The operand registers `A`, `B`, `M` (10_state.md R11). -/
structure Operands where
  a : Word
  b : Word
  m : Word
deriving DecidableEq, Repr

/-- The result registers `RES` (10_state.md R12), `XLO`, `YLO` (R13). -/
structure Results where
  res : Word
  xlo : Word
  ylo : Word
deriving DecidableEq, Repr

/-- The key register file `N`, `E`, `D`, `PHI` (10_state.md R14). -/
structure Keys where
  n   : Word
  e   : Word
  d   : Word
  phi : Word
deriving DecidableEq, Repr

/-- The configuration registers (10_state.md R22, R23). -/
structure Conf where
  maxtry : Word
  pbase  : Word
  pspan  : Word
  qbase  : Word
  qspan  : Word
deriving DecidableEq, Repr

/-- The hidden step register `kstep` (10_state.md R25). -/
inductive KStep where
  | idle | run | init | start | pickP | pickQ | fetchP | fetchQ | derive | drawE | finish
deriving DecidableEq, Repr

/-- `REQ`, the request pending on a port (10_state.md R25, 20_memory.md R52). -/
inductive Req where
  | none
  | rand (b : Word)
  | prime (i : Word)
deriving DecidableEq, Repr

/-- The hidden state of the engine (10_state.md R25). -/
structure Hidden where
  kstep : KStep
  req   : Req
  ip    : Word
  iq    : Word
  p     : Word
  q     : Word
  tn    : Word
  tphi  : Word
  te    : Word
deriving DecidableEq, Repr

/-- What a collaborator puts on its port: a draw of the RandomSource (20_memory.md R50), or `found(v)` or
`notfound` of the PrimeSource (R46). -/
inductive Answer where
  | rand (r : Word)
  | found (v : Word)
  | notFound
deriving DecidableEq, Repr

/-- One step of an agent (10_state.md R24, 20_memory.md R53).
`read`, `write`: the host's transactions of 20_memory.md R42.
`busRead`, `busWrite`: accesses on a byte-addressed mapping (R43, R44).
`poll`: the host's `WAIT` (30_encoding.md R69).
`reset`: the reset step (70_reset_and_hazards.md R155).
`mie`: the engine's turn.
`answer`: an answer of a collaborator, any answer (20_memory.md R47, R51; log entry 7).
`serve`: the PrimeSource answers the pending request from `PRIME_TABLE` (20_memory.md R47); the flag says
whether its backing resource is available (log entry 7). -/
inductive Event where
  | read (idx : Nat)
  | write (idx : Nat) (v : Word)
  | busRead (offset length : Nat)
  | busWrite (offset : Nat) (bytes : List Byte)
  | poll
  | reset
  | mie
  | answer (a : Answer)
  | serve (available : Bool)
deriving DecidableEq, Repr

/-- What a read returned to the host: a register's value (20_memory.md R42), or its eight bytes on a
byte-addressed mapping (R43). -/
inductive Reply where
  | word (v : Word)
  | bytes (bs : List Byte)
deriving DecidableEq, Repr

/-- The agents around the engine, the MODEL's own fields (log entry 1).
`script`: the steps still to come of the total order of 20_memory.md R53, the next one first.
`answer`: the answer being delivered within a collaborator's step, `none` between steps.
`replies`: what the host's reads have returned, the latest first. -/
structure World where
  script  : List Event
  answer  : Option Answer
  replies : List Reply
deriving DecidableEq, Repr

/-- The whole state: the eighteen mapped registers (10_state.md R10), the hidden state (R25), and the
agents around the engine (log entry 1). -/
structure State where
  cmd      : Word
  status   : Status
  operands : Operands
  results  : Results
  keys     : Keys
  attempts : Word
  conf     : Conf
  hidden   : Hidden
  world    : World
deriving DecidableEq, Repr

/-- Reasons to stop with a fault; none is a condition of the spec, whose engine has no fault of any kind
(20_memory.md, decision D3). Both are SAFE: they mark combinations of `CMD` and `kstep` that the spec's
rules never form (10_state.md R24, R31), and for which it gives no step (log entry 4).
`noCommand`: raised by `engine` of Machine/Agents.lean, when a command is in progress and `CMD` holds no
command word.
`strayStep`: raised by a meaning, when `kstep` is a step of another command. -/
inductive Fault where
  | noCommand
  | strayStep
deriving DecidableEq, Repr

/-- Reasons to refuse a step.
`notModelled`: raised by an arm of exec for a command that has no meaning; SAFE. No arm raises it.
`inadmissibleAccess`: raised by `busRead` and `busWrite` of Machine/Agents.lean, for a byte-mapped access
that is not 8 bytes long at a multiple of 8: "A model gives such an access no step" (20_memory.md R44; log
entry 6); SAFE. -/
inductive Refusal where
  | notModelled (mnemonic : String)
  | inadmissibleAccess (offset length : Nat)
deriving DecidableEq, Repr

/-- The outcome of a step of this machine. -/
abbrev Result := Host.Outcome State Fault Refusal

/-- The engine right after reset (10_state.md R29), in a world where no further step is scheduled (log
entry 1). -/
def State.reset : State where
  cmd      := 0
  status   := { busy := false, done := false, xneg := false, yneg := false,
                err := .none, lastFail := .none, phase := .idle }
  operands := { a := 0, b := 0, m := 0 }
  results  := { res := 0, xlo := 0, ylo := 0 }
  keys     := { n := 0, e := 0, d := 0, phi := 0 }
  attempts := 0
  conf     := { maxtry := Config.maxtryReset, pbase := 0, pspan := Config.pspanReset,
                qbase := 0, qspan := Config.qspanReset }
  hidden   := { kstep := .idle, req := .none, ip := 0, iq := 0, p := 0, q := 0,
                tn := 0, tphi := 0, te := 0 }
  world    := { script := [], answer := none, replies := [] }

end Sys2Proof.Machine
end

