-- ==== Sys2Proof/Machine/Flags.lean ====
section
/-! DEFINITION. `STATUS`: the values of its codes, its layout as one register, the phase as a function of
the hidden state, and the sign bits of the Bezout coefficients (10_state.md R13, R16 to R20). -/

namespace Sys2Proof.Machine

/-- The values of `STATUS.ERR` (10_state.md R18). -/
def ErrCode.code : ErrCode → BitVec 4
  | .none => 0x0
  | .illegalCmd => 0x1
  | .bothZero => 0x2
  | .modZero => 0x3
  | .notCoprime => 0x4
  | .config => 0x5
  | .primeNotFound => 0x6
  | .retryLimit => 0x7
  | .randRange => 0x8

/-- The values of `STATUS.LASTFAIL` (10_state.md R19). -/
def FailCause.code : FailCause → BitVec 4
  | .none => 0x0
  | .overflow => 0x1
  | .phiRange => 0x2
  | .edCheck => 0x3
  | .roundtrip => 0x4

/-- The values of `STATUS.PHASE` (10_state.md R20). -/
def Phase.code : Phase → BitVec 4
  | .idle => 0x0
  | .exec => 0x1
  | .waitRand => 0x2
  | .waitPrime => 0x3

/-- The whole register: `{0[43:0], PHASE, LASTFAIL, ERR, 0[3:0], YNEG, XNEG, DONE, BUSY}` (10_state.md
R16). -/
def statusWord (t : Status) : Word :=
  (0#44 ++ t.phase.code ++ t.lastFail.code ++ t.err.code ++ 0#4
    ++ BitVec.ofBool t.yneg ++ BitVec.ofBool t.xneg ++ BitVec.ofBool t.done ++ BitVec.ofBool t.busy
    : BitVec 64)

/-- `PHASE` as a function of the hidden state: `IDLE` when `kstep = K_IDLE`, `WAIT_RAND` and `WAIT_PRIME`
by the pending request, `EXEC` otherwise (10_state.md R20). -/
def phaseOf (k : KStep) (r : Req) : Phase :=
  match k, r with
  | .idle, _ => .idle
  | _, .rand _ => .waitRand
  | _, .prime _ => .waitPrime
  | _, .none => .exec

/-- `sext_65(v)`, the 65-bit two's complement of a coefficient (00_scope.md R6, 10_state.md R13). -/
def sext65 (v : Int) : BitVec Config.coefw := BitVec.ofInt Config.coefw v

/-- `sext_65(v)[63:0]`, the half of a coefficient that `XLO` or `YLO` holds (10_state.md R13). -/
def coefLow (v : Int) : Word := (sext65 v).extractLsb' 0 64

/-- `sext_65(v)[64]`, the bit of a coefficient that `XNEG` or `YNEG` holds (10_state.md R13). -/
def coefNeg (v : Int) : Bool := (sext65 v).getLsbD 64

/-- A coefficient read back: `x = XLO - 2^64 * XNEG` (10_state.md R13). -/
def coefValue (low : Word) (neg : Bool) : Int := (low.toNat : Int) - 2 ^ 64 * (neg.toNat : Int)

end Sys2Proof.Machine
end

