-- ==== Sys2Proof/Machine/Operands.lean ====
section
/-! DEFINITION. The one operand form: a whole 64-bit register read as an unsigned integer (30_encoding.md
R64, 10_state.md R11); and the way a result reaches its register (10_state.md R12, R13, R14). -/

namespace Sys2Proof.Machine

/-- The operand `A` (10_state.md R11). -/
def State.opA (s : State) : Nat := s.operands.a.toNat

/-- The operand `B` (10_state.md R11). -/
def State.opB (s : State) : Nat := s.operands.b.toNat

/-- The operand `M`, always the modulus (10_state.md R11). -/
def State.opM (s : State) : Nat := s.operands.m.toNat

/-- `RES <- v`; every value the rules write is below `2^64` (10_state.md R12). -/
def State.putRes (v : Nat) (s : State) : State :=
  { s with results := { s.results with res := BitVec.ofNat 64 v } }

/-- `XLO`, `XNEG`, `YLO`, `YNEG` from the coefficients `x` and `y` (10_state.md R13). -/
def State.putCoefficients (x y : Int) (s : State) : State :=
  { s with
    results := { s.results with xlo := coefLow x, ylo := coefLow y }
    status := { s.status with xneg := coefNeg x, yneg := coefNeg y } }

/-- `N <- n`, `E <- e`, `D <- d`, `PHI <- phi`, together (10_state.md R14, 43_keygen.md R115). -/
def State.putKeys (n e d phi : Nat) (s : State) : State :=
  { s with
    keys := { n := BitVec.ofNat 64 n, e := BitVec.ofNat 64 e, d := BitVec.ofNat 64 d,
              phi := BitVec.ofNat 64 phi } }

end Sys2Proof.Machine
end

