-- ==== Sys2Proof/Machine/Ops.lean ====
section
/-! DEFINITION. The named operations the commands and the agents share: the register map, reading and
storing a register, accepting a command, ending it with or without an error, a failed attempt, and the
ports. -/

namespace Sys2Proof.Machine

/-! ## The register space -/

/-- The eighteen mapped registers (10_state.md R10). -/
inductive Reg where
  | cmd | status | a | b | m | res | xlo | ylo | n | e | d | phi | attempts
  | maxtry | pbase | pspan | qbase | qspan
deriving DecidableEq, Repr

/-- The word index of a register (10_state.md R10). -/
def Reg.index : Reg → Nat
  | .cmd => 0x00 | .status => 0x01 | .a => 0x02 | .b => 0x03 | .m => 0x04
  | .res => 0x05 | .xlo => 0x06 | .ylo => 0x07
  | .n => 0x08 | .e => 0x09 | .d => 0x0A | .phi => 0x0B | .attempts => 0x0C
  | .maxtry => 0x0D | .pbase => 0x0E | .pspan => 0x0F | .qbase => 0x10 | .qspan => 0x11

/-- The register at an index; `none` from 0x12 upward, where the space is unmapped (20_memory.md R41). -/
def regAt : Nat → Option Reg
  | 0x00 => some .cmd | 0x01 => some .status | 0x02 => some .a | 0x03 => some .b | 0x04 => some .m
  | 0x05 => some .res | 0x06 => some .xlo | 0x07 => some .ylo
  | 0x08 => some .n | 0x09 => some .e | 0x0A => some .d | 0x0B => some .phi | 0x0C => some .attempts
  | 0x0D => some .maxtry | 0x0E => some .pbase | 0x0F => some .pspan | 0x10 => some .qbase
  | 0x11 => some .qspan
  | _ => none

/-- The registers the table of 10_state.md R10 marks "read, write"; the others are read only (R26). -/
def Reg.hostWritable : Reg → Bool
  | .cmd | .a | .b | .m | .maxtry | .pbase | .pspan | .qbase | .qspan => true
  | .status | .res | .xlo | .ylo | .n | .e | .d | .phi | .attempts => false

/-- The current value of a register (10_state.md R28). -/
def readReg (s : State) : Reg → Word
  | .cmd => s.cmd
  | .status => statusWord s.status
  | .a => s.operands.a
  | .b => s.operands.b
  | .m => s.operands.m
  | .res => s.results.res
  | .xlo => s.results.xlo
  | .ylo => s.results.ylo
  | .n => s.keys.n
  | .e => s.keys.e
  | .d => s.keys.d
  | .phi => s.keys.phi
  | .attempts => s.attempts
  | .maxtry => s.conf.maxtry
  | .pbase => s.conf.pbase
  | .pspan => s.conf.pspan
  | .qbase => s.conf.qbase
  | .qspan => s.conf.qspan

/-- `MemRead(idx, 8)`: the register at the index, 0 if unmapped (20_memory.md R41, R42). -/
def memRead (s : State) (idx : Nat) : Word :=
  match regAt idx with
  | some r => readReg s r
  | none => 0

/-- The host's store of a word into a host-writable register (20_memory.md R42); a read-only register keeps
its value (10_state.md R26). What a store to `CMD` starts is Machine/Agents.lean's (20_memory.md R45). -/
def storeReg (r : Reg) (v : Word) (s : State) : State :=
  match r with
  | .cmd => { s with cmd := v }
  | .a => { s with operands := { s.operands with a := v } }
  | .b => { s with operands := { s.operands with b := v } }
  | .m => { s with operands := { s.operands with m := v } }
  | .maxtry => { s with conf := { s.conf with maxtry := v } }
  | .pbase => { s with conf := { s.conf with pbase := v } }
  | .pspan => { s with conf := { s.conf with pspan := v } }
  | .qbase => { s with conf := { s.conf with qbase := v } }
  | .qspan => { s with conf := { s.conf with qspan := v } }
  | .status | .res | .xlo | .ylo | .n | .e | .d | .phi | .attempts => s

/-- The accesses a byte-addressed mapping admits: 8 bytes long at a multiple of 8 (20_memory.md R44). -/
def busAdmitted (offset length : Nat) : Bool := length == 8 && offset % 8 == 0

/-- The word index of a byte offset (20_memory.md R43). -/
def busIndex (offset : Nat) : Nat := offset / 8

/-! ## The life of a command -/

/-- Clearing the destination set of a command (10_state.md R30). -/
def clearDestination (i : Instr) (s : State) : State :=
  match i with
  | .gcd | .modinv | .modpow => { s with results := { s.results with res := 0 } }
  | .xgcd =>
    { s with
      results := { res := 0, xlo := 0, ylo := 0 }
      status := { s.status with xneg := false, yneg := false } }
  | .keygen =>
    { s with
      keys := { n := 0, e := 0, d := 0, phi := 0 }
      attempts := 0
      status := { s.status with lastFail := .none } }

/-- The step a command begins with: `K_INIT` for KEYGEN, `K_RUN` for the others (30_encoding.md R66). -/
def firstStep : Instr → KStep
  | .keygen => .init
  | .gcd | .xgcd | .modinv | .modpow => .run

/-- Acceptance of a legal command whose word the host has just stored in `CMD` (30_encoding.md R66). -/
def accept (i : Instr) (s : State) : State :=
  let c := clearDestination i s
  { c with
    status := { c.status with busy := true, done := false, err := .none, phase := .exec }
    hidden := { c.hidden with kstep := firstStep i } }

/-- What an illegal word, just stored in `CMD`, does: the entry of `ILLEGAL_CMD` (30_encoding.md R67,
60_exceptions.md R131). -/
def illegalCommand (s : State) : State :=
  { s with status := { s.status with done := true, err := .illegalCmd } }

/-- The end of the command in progress with a code in `STATUS.ERR` (30_encoding.md R68, 60_exceptions.md
R142). -/
def endCommand (code : ErrCode) (s : State) : State :=
  { s with
    status := { s.status with err := code, busy := false, done := true, phase := .idle }
    hidden := { s.hidden with kstep := .idle, req := .none } }

/-- `complete(results)`, the results being already in place (30_encoding.md R68). -/
def complete (s : State) : State := endCommand .none s

/-- `raise <Error>()`, the one entry of the seven codes other than `ILLEGAL_CMD`: the destination set is
not written (60_exceptions.md R142). -/
def raise (code : ErrCode) (s : State) : State := endCommand code s

/-- `fail_attempt(cause)`: KEYGEN records the cause and retries from step 1 (43_keygen.md R116). -/
def failAttempt (cause : FailCause) (s : State) : State :=
  { s with
    status := { s.status with lastFail := cause }
    hidden := { s.hidden with kstep := .start } }

/-- The two steps of an arithmetic command: its acceptance when no command is in progress, and the one
engine step at `K_RUN` (30_encoding.md R66, R68). The other values of `kstep` belong to KEYGEN (10_state.md
R25). -/
def runArithmetic (i : Instr) (body : State → State) (s : State) : Result :=
  match s.hidden.kstep with
  | .idle => .next (accept i s)
  | .run => .next (body s)
  | .init | .start | .pickP | .pickQ | .fetchP | .fetchQ | .derive | .drawE | .finish => .fault .strayStep

/-! ## The ports -/

/-- The steps that are the engine's own; at the others it waits, for a command or for a collaborator
(43_keygen.md R100, 30_encoding.md R68). -/
def KStep.ownStep : KStep → Bool
  | .run | .init | .start | .derive | .finish => true
  | .idle | .pickP | .pickQ | .fetchP | .fetchQ | .drawE => false

/-- Whether an answer is of the pending request's kind (20_memory.md R52). -/
def Req.takes : Req → Answer → Bool
  | .rand _, .rand _ => true
  | .prime _, .found _ => true
  | .prime _, .notFound => true
  | _, _ => false

/-- The state once the answer being delivered has been taken off the port. -/
def State.takeAnswer (s : State) : State := { s with world := { s.world with answer := none } }

/-- The reaction to a draw; any other answer, or none, changes nothing (20_memory.md R52). -/
def onRand (react : Word → State → State) (s : State) : State :=
  match s.world.answer with
  | some (.rand r) => react r s.takeAnswer
  | some (.found _) | some .notFound | none => s.takeAnswer

/-- The reaction to an answer of the PrimeSource, `none` standing for `notfound`; any other answer, or none,
changes nothing (20_memory.md R52). -/
def onPrime (react : Option Word → State → State) (s : State) : State :=
  match s.world.answer with
  | some (.found v) => react (some v) s.takeAnswer
  | some .notFound => react none s.takeAnswer
  | some (.rand _) | none => s.takeAnswer

/-- The PrimeSource's answer to `PrimeAt(i)` (20_memory.md R47): the entry at the zero-based position,
`notfound` outside the table, or, if the source may be unavailable and is, `notfound`. -/
def primeAnswer (table : List Word) (mayBeUnavailable available : Bool) (i : Word) : Answer :=
  match table[i.toNat]? with
  | none => .notFound
  | some v => if mayBeUnavailable && !available then .notFound else .found v

end Sys2Proof.Machine
end

