-- ==== Sys2Proof/Machine/Gcd.lean ====
section
/-! DEFINITION. The family GCD (40_gcd.md). -/

namespace Sys2Proof.Machine

/-- The engine step of `GCD` at `K_RUN` (40_gcd.md R76). -/
def gcdBody (s : State) : State :=
  if s.opA = 0 ∧ s.opB = 0 then raise .bothZero s
  else complete (s.putRes (gcd s.opA s.opB))

/-- `GCD` (40_gcd.md R76). -/
def execGcd (s : State) : Result := runArithmetic .gcd gcdBody s

end Sys2Proof.Machine
end

