-- ==== Sys2Proof/Machine/Keygen.lean ====
section
/-! DEFINITION. The family KEYGEN: the state machine of 43_keygen.md R100, one definition per state. -/

namespace Sys2Proof.Machine

/-- What `K_INIT` demands of the configuration, the sums exact (43_keygen.md R101, 10_state.md R23). -/
def Conf.legal (c : Conf) : Bool :=
  1 ≤ c.pspan.toNat && 1 ≤ c.qspan.toNat
    && c.pbase.toNat + c.pspan.toNat ≤ 2 ^ 64 && c.qbase.toNat + c.qspan.toNat ≤ 2 ^ 64

/-- `K_INIT`: check the configuration (43_keygen.md R101). -/
def keygenInit (s : State) : State :=
  if s.conf.legal then { s with hidden := { s.hidden with kstep := .start } }
  else raise .config s

/-- `K_START`: check the cap, count the attempt, ask for the draw of `p`'s index (43_keygen.md R102). -/
def keygenStart (s : State) : State :=
  if s.conf.maxtry.toNat ≤ s.attempts.toNat then raise .retryLimit s
  else
    { s with
      attempts := s.attempts + 1
      status := { s.status with phase := .waitRand }
      hidden := { s.hidden with req := .rand s.conf.pspan, kstep := .pickP } }

/-- `K_PICKP`, the draw `r`: the index of `p`; ask for the draw of `q`'s index (43_keygen.md R103). -/
def keygenPickP (r : Word) (s : State) : State :=
  if s.conf.pspan.toNat ≤ r.toNat then raise .randRange s
  else
    { s with
      hidden := { s.hidden with ip := s.conf.pbase + r, req := .rand s.conf.qspan, kstep := .pickQ } }

/-- `K_PICKQ`, the draw `r`: the index of `q`; ask the PrimeSource for `p` (43_keygen.md R104). -/
def keygenPickQ (r : Word) (s : State) : State :=
  if s.conf.qspan.toNat ≤ r.toNat then raise .randRange s
  else
    { s with
      status := { s.status with phase := .waitPrime }
      hidden := { s.hidden with
        iq := s.conf.qbase + r, req := .prime s.hidden.ip, kstep := .fetchP } }

/-- `K_FETCHP`, the answer for `p`; ask the PrimeSource for `q` (43_keygen.md R105). -/
def keygenFetchP (answer : Option Word) (s : State) : State :=
  match answer with
  | none => raise .primeNotFound s
  | some v =>
    { s with hidden := { s.hidden with p := v, req := .prime s.hidden.iq, kstep := .fetchQ } }

/-- `K_FETCHQ`, the answer for `q` (43_keygen.md R106). -/
def keygenFetchQ (answer : Option Word) (s : State) : State :=
  match answer with
  | none => raise .primeNotFound s
  | some v =>
    { s with
      status := { s.status with phase := .exec }
      hidden := { s.hidden with q := v, req := .none, kstep := .derive } }

/-- `phi = n - p - q + 1` over the integers (43_keygen.md R109). -/
def totient (p q : Nat) : Int := ((p * q : Nat) : Int) - (p : Int) - (q : Int) + 1

/-- `K_DERIVE`: the modulus and the totient; ask for the first draw of `e` (43_keygen.md R107, R108, R109,
R110). -/
def keygenDerive (s : State) : State :=
  let p := s.hidden.p.toNat
  let q := s.hidden.q.toNat
  if 2 ^ 64 ≤ p * q then failAttempt .overflow s
  else if totient p q < 2 then failAttempt .phiRange s
  else
    let phi := BitVec.ofNat 64 (totient p q).toNat
    { s with
      status := { s.status with phase := .waitRand }
      hidden := { s.hidden with
        tn := BitVec.ofNat 64 (p * q), tphi := phi, req := .rand (phi - 1), kstep := .drawE } }

/-- `K_DRAWE`, the draw `r`: the exponent `e = 1 + r` and its coprimality test; a draw that is not coprime
asks again (43_keygen.md R111). -/
def keygenDrawE (r : Word) (s : State) : State :=
  if s.hidden.tphi.toNat - 1 ≤ r.toNat then raise .randRange s
  else if gcd (1 + r.toNat) s.hidden.tphi.toNat ≠ 1 then
    { s with hidden := { s.hidden with req := .rand (s.hidden.tphi - 1) } }
  else
    { s with
      status := { s.status with phase := .exec }
      hidden := { s.hidden with te := 1 + r, req := .none, kstep := .finish } }

/-- `K_FINISH`: the private exponent and the two checks of the self-validation (43_keygen.md R112, R113,
R114, R115). -/
def keygenFinish (s : State) : State :=
  let n := s.hidden.tn.toNat
  let phi := s.hidden.tphi.toNat
  let e := s.hidden.te.toNat
  let d := modInverse e phi
  if (e * d) % phi ≠ 1 then failAttempt .edCheck s
  else if modPow (modPow Config.probe e n) d n ≠ Config.probe then failAttempt .roundtrip s
  else complete (s.putKeys n e d phi)

/-- `KEYGEN` (43_keygen.md R100): its acceptance when no command is in progress (30_encoding.md R66), else
the step of the state machine; at a state that waits for a collaborator, the reaction to the answer being
delivered. `K_RUN` belongs to the arithmetic commands (10_state.md R25). -/
def execKeygen (s : State) : Result :=
  match s.hidden.kstep with
  | .idle => .next (accept .keygen s)
  | .init => .next (keygenInit s)
  | .start => .next (keygenStart s)
  | .pickP => .next (onRand keygenPickP s)
  | .pickQ => .next (onRand keygenPickQ s)
  | .fetchP => .next (onPrime keygenFetchP s)
  | .fetchQ => .next (onPrime keygenFetchQ s)
  | .derive => .next (keygenDerive s)
  | .drawE => .next (onRand keygenDrawE s)
  | .finish => .next (keygenFinish s)
  | .run => .fault .strayStep

end Sys2Proof.Machine
end

