-- ==== Sys2Proof/Machine/Modpow.lean ====
section
/-! DEFINITION. The family MODPOW (42_modpow.md). -/

namespace Sys2Proof.Machine

/-- The engine step of `MODPOW` at `K_RUN` (42_modpow.md R93). -/
def modpowBody (s : State) : State :=
  if s.opM = 0 then raise .modZero s
  else complete (s.putRes (modPow s.opA s.opB s.opM))

/-- `MODPOW` (42_modpow.md R93). -/
def execModpow (s : State) : Result := runArithmetic .modpow modpowBody s

end Sys2Proof.Machine
end

