-- ==== Sys2Proof/Machine/Xgcd.lean ====
section
/-! DEFINITION. The family XGCD and MODINV (41_xgcd_modinv.md). -/

namespace Sys2Proof.Machine

/-- The engine step of `XGCD` at `K_RUN` (41_xgcd_modinv.md R82). -/
def xgcdBody (s : State) : State :=
  let t := extendedGcd s.opA s.opB
  complete ((s.putRes t.1).putCoefficients t.2.1 t.2.2)

/-- `XGCD` (41_xgcd_modinv.md R82). -/
def execXgcd (s : State) : Result := runArithmetic .xgcd xgcdBody s

/-- The engine step of `MODINV` at `K_RUN` (41_xgcd_modinv.md R86). -/
def modinvBody (s : State) : State :=
  if s.opM = 0 then raise .modZero s
  else if (extendedGcd s.opA s.opM).1 ≠ 1 then raise .notCoprime s
  else complete (s.putRes (modInverse s.opA s.opM))

/-- `MODINV` (41_xgcd_modinv.md R86). -/
def execModinv (s : State) : Result := runArithmetic .modinv modinvBody s

end Sys2Proof.Machine
end

