-- ==== Sys2Proof/Machine/Dispatch.lean ====
section
/-! DEFINITION. exec: one arm per command of spec/opcode_table.json. -/

namespace Sys2Proof.Machine

def exec (i : Instr) (s : State) : Host.Outcome State Fault Refusal :=
  match i with
  | .gcd => Sys2Proof.Machine.execGcd s
  | .xgcd => Sys2Proof.Machine.execXgcd s
  | .modinv => Sys2Proof.Machine.execModinv s
  | .modpow => Sys2Proof.Machine.execModpow s
  | .keygen => Sys2Proof.Machine.execKeygen s

end Sys2Proof.Machine
end

