-- ==== Sys2Proof/Machine/Agents.lean ====
section
/-! DEFINITION. The steps of the four agents (10_state.md R24): the engine's turn, the host's transactions
and reset, the answers of the collaborators. Each is one atomic step of the total order (20_memory.md
R53). -/

namespace Sys2Proof.Machine

/-- The step of the command in progress, which the stored command word names (10_state.md R24). -/
def engine (s : State) : Result :=
  match decode s.cmd with
  | .command i => exec i s
  | .illegal _ => .fault .noCommand

/-- The engine's turn: its step if one is enabled, else nothing (10_state.md R24, 43_keygen.md R100); while
a request is pending it waits without limit (20_memory.md R52). -/
def mieTurn (s : State) : Result :=
  if s.hidden.kstep.ownStep then engine s else .next s

/-! ## The host -/

/-- The host is given the answer to a read. -/
def reply (r : Reply) (s : State) : State :=
  { s with world := { s.world with replies := r :: s.world.replies } }

/-- `MemRead(idx, 8)` (20_memory.md R42): the value goes to the host, the engine does not change
(10_state.md R28). -/
def hostRead (idx : Nat) (s : State) : Result := .next (reply (.word (memRead s idx)) s)

/-- A store to `CMD` and what it starts (20_memory.md R45): a legal word starts its command (30_encoding.md
R66), an illegal one is recorded (R67). -/
def startCommand (w : Word) (s : State) : Result :=
  match decode w with
  | .command i => exec i (storeReg .cmd w s)
  | .illegal _ => .next (illegalCommand (storeReg .cmd w s))

/-- `MemWrite(idx, 8, v)` (20_memory.md R42). Dropped: a write to an unmapped index (R41), to a read-only
register (10_state.md R26), or while `BUSY = 1` (R27). -/
def hostWrite (idx : Nat) (v : Word) (s : State) : Result :=
  match regAt idx with
  | none => .next s
  | some r =>
    if r.hostWritable && !s.status.busy then
      if r = .cmd then startCommand v s else .next (storeReg r v s)
    else .next s

/-- A read on a byte-addressed mapping: the eight bytes of the register, least significant byte first
(20_memory.md R43); no other access is one of the engine's (R44). -/
def busRead (offset length : Nat) (s : State) : Result :=
  if busAdmitted offset length then
    .next (reply (.bytes (bytesOfWord (memRead s (busIndex offset)))) s)
  else .refused (.inadmissibleAccess offset length)

/-- A write on a byte-addressed mapping (20_memory.md R43, R44). -/
def busWrite (offset : Nat) (bytes : List Byte) (s : State) : Result :=
  if busAdmitted offset bytes.length then hostWrite (busIndex offset) (wordOfBytes bytes) s
  else .refused (.inadmissibleAccess offset bytes.length)

/-- The transactions of the host's program, which keep the order in which the host issues them; every other
step may fall between any two of them (20_memory.md R53). -/
def Event.ofProgram : Event → Bool
  | .read _ | .write _ _ | .busRead _ _ | .busWrite _ _ | .poll => true
  | .reset | .mie | .answer _ | .serve _ => false

/-- The steps to come after a read of `WAIT` that has `BUSY = 1`: the next scheduled step that is none of the
program's, the engine's turn if there is none; the read again; then the rest of the program and the other
steps, each in its order (30_encoding.md R69, 20_memory.md R53; log entry 1). -/
def waitAgain (rest : List Event) : List Event :=
  (rest.find? (fun ev => !ev.ofProgram)).getD .mie :: .poll :: rest.eraseP (fun ev => !ev.ofProgram)

/-- `WAIT`: reads of `STATUS` repeated until the value read has `BUSY = 0` (30_encoding.md R69). -/
def hostPoll (s : State) : Result :=
  let t := reply (.word (memRead s Reg.status.index)) s
  if s.status.busy then .next { t with world := { t.world with script := waitAgain t.world.script } }
  else .next t

/-- Reset (70_reset_and_hazards.md R155): the whole state of the engine, visible and hidden. The world
outside is not reset (R157): the steps to come and what the host has read stay. -/
def resetStep (s : State) : Result :=
  .next { State.reset with world := { s.world with answer := none } }

/-! ## The collaborators -/

/-- A collaborator's answer (20_memory.md R52): delivered to the command in progress if a request of its
kind is pending, else dropped. -/
def deliver (a : Answer) (s : State) : Result :=
  if s.hidden.req.takes a then engine { s with world := { s.world with answer := some a } }
  else .next s

/-- The PrimeSource answers the pending request from `PRIME_TABLE` (20_memory.md R47); with no request for
it pending it has no step. -/
def primeServe (available : Bool) (s : State) : Result :=
  match s.hidden.req with
  | .prime i => deliver (primeAnswer Config.primeTable Config.primeMayBeUnavailable available i) s
  | .rand _ | .none => .next s

/-- The step of the agent that an event names. -/
def agentStep (ev : Event) (s : State) : Result :=
  match ev with
  | .read idx => hostRead idx s
  | .write idx v => hostWrite idx v s
  | .busRead offset length => busRead offset length s
  | .busWrite offset bytes => busWrite offset bytes s
  | .poll => hostPoll s
  | .reset => resetStep s
  | .mie => mieTurn s
  | .answer a => deliver a s
  | .serve available => primeServe available s

/-- The state in which the host's next transaction is `MemWrite(0x00, 8, w)` and no command is in
progress. -/
def presentCommand (w : Word) (s : State) : State :=
  { s with
    status := { s.status with busy := false, phase := .idle }
    hidden := { s.hidden with kstep := .idle, req := .none }
    world := { s.world with script := .write Reg.cmd.index w :: s.world.script, answer := none } }

end Sys2Proof.Machine
end

