-- ==== Sys2Proof/Machine/Step.lean ====
section
/-! DEFINITION. One step of the machine: the next step of the total order of 20_memory.md R53. -/

namespace Sys2Proof.Machine

/-- The next scheduled agent takes its step; with nothing scheduled, the engine has its turn (log
entry 1). -/
def step (s : State) : Host.Outcome State Fault Refusal :=
  match s.world.script with
  | [] => mieTurn s
  | ev :: rest => agentStep ev { s with world := { s.world with script := rest } }

/-- The state whose next step is the host's write of the word to `CMD`, with no command in progress: there
the engine takes its next instruction from (log entry 3). -/
def State.withFetchWord (s : State) (nbits w : Nat) : State :=
  presentCommand (BitVec.ofNat 64 (w % 2 ^ nbits)) s

end Sys2Proof.Machine
end

