-- ==== Sys2Proof/Machine/Script.lean ====
section
/-! DEFINITION. The host's programs: the statements of 30_encoding.md R69 and the pseudo-instructions of R70,
as sequences of transactions (R65). The steps of the other agents follow a program in the script, each in its
order: they fall between the reads of its `WAIT` (20_memory.md R53; log entry 1). -/

namespace Sys2Proof.Machine.Script

/-- `WR <reg>, <value>` (30_encoding.md R69). -/
def wr (r : Reg) (v : Word) : List Event := [.write r.index v]

/-- `RD <reg>` (30_encoding.md R69). -/
def rd (r : Reg) : List Event := [.read r.index]

/-- `CMD <mnemonic>` (30_encoding.md R69). -/
def cmd (i : Instr) : List Event := [.write Reg.cmd.index (encode i)]

/-- `CMD.RAW <value>` (30_encoding.md R69). -/
def cmdRaw (w : Word) : List Event := [.write Reg.cmd.index w]

/-- `WAIT` (30_encoding.md R69). -/
def wait : List Event := [.poll]

/-- `GCD a, b` (30_encoding.md R70). -/
def gcd (a b : Word) : List Event := wr .a a ++ wr .b b ++ cmd .gcd ++ wait

/-- `XGCD a, b` (30_encoding.md R70). -/
def xgcd (a b : Word) : List Event := wr .a a ++ wr .b b ++ cmd .xgcd ++ wait

/-- `MODINV a, m` (30_encoding.md R70). -/
def modinv (a m : Word) : List Event := wr .a a ++ wr .m m ++ cmd .modinv ++ wait

/-- `MODPOW base, exponent, modulus` (30_encoding.md R70). -/
def modpow (base exponent modulus : Word) : List Event :=
  wr .a base ++ wr .b exponent ++ wr .m modulus ++ cmd .modpow ++ wait

/-- `KEYGEN` (30_encoding.md R70). -/
def keygen : List Event := cmd .keygen ++ wait

/-- `ENCRYPT_UNIT m, e, n` (30_encoding.md R70). -/
def encryptUnit (m e n : Word) : List Event := modpow m e n

/-- `DECRYPT_UNIT c, d, n` (30_encoding.md R70). -/
def decryptUnit (c d n : Word) : List Event := modpow c d n

end Sys2Proof.Machine.Script
end

