-- ==== Sys2Proof/Safety.lean ====
section
/-! DEFINITION. What claims are stated in: runs of the machine, the states a run can reach, and the
invariant of the state (10_state.md R31). -/

namespace Sys2Proof.Machine

/-- `n` steps, ending at the first fault or refusal. -/
def runSteps : Nat → State → Result
  | 0, s => .next s
  | n + 1, s =>
    match step s with
    | .next t => runSteps n t
    | .fault r => .fault r
    | .refused r => .refused r

/-- The engine right after reset, in a world that will take these steps. -/
def State.boot (script : List Event) : State :=
  { State.reset with world := { State.reset.world with script := script } }

/-- The states a run from reset can reach, whatever the agents do. -/
inductive Reachable : State → Prop where
  | boot (script : List Event) : Reachable (State.boot script)
  | step (s t : State) (hs : Reachable s) (ht : step s = .next t) : Reachable t

/-! ## Endless runs -/

/-- One more step is scheduled, after those to come. -/
def State.enqueue (ev : Event) (s : State) : State :=
  { s with world := { s.world with script := s.world.script ++ [ev] } }

/-- The step that is taken next when `ev` has just been scheduled. -/
def State.nextEvent (ev : Event) (s : State) : Event := s.world.script.headD ev

/-- `n` steps under an endless schedule, which schedules one more step before each: every total order of
20_memory.md R53 without end is such a schedule. -/
def runUnder (sched : Nat → Event) (s : State) : Nat → Result
  | 0 => .next s
  | n + 1 =>
    match runUnder sched s n with
    | .next t => step (t.enqueue (sched n))
    | .fault r => .fault r
    | .refused r => .refused r

/-- Whether a step answers a pending request (20_memory.md R52). -/
def Event.answers (req : Req) : Event → Bool
  | .answer a => req.takes a
  | .serve _ =>
    match req with
    | .prime _ => true
    | .rand _ | .none => false
  | .read _ | .write _ _ | .busRead _ _ | .busWrite _ _ | .poll | .reset | .mie => false

/-- Fairness (43_keygen.md R121): a step of the engine that is due is eventually taken, a pending request is
eventually answered, and the draws of a KEYGEN that never left `K_DRAWE` would include a coprime one. It is
an assumption of the claim that uses it, not of the engine. -/
structure Fair (sched : Nat → Event) (run : Nat → State) : Prop where
  turns : ∀ n, (run n).hidden.kstep.ownStep = true → ∃ k, n ≤ k ∧ (run k).nextEvent (sched k) = .mie
  answered : ∀ n, (run n).hidden.req ≠ .none →
    ∃ k, n ≤ k ∧ ((run k).nextEvent (sched k)).answers (run k).hidden.req = true
  coprime : ∀ n, (∀ k, n ≤ k → (run k).hidden.kstep = .drawE) →
    ∃ k r, n ≤ k ∧ (run k).nextEvent (sched k) = .answer (.rand r)
      ∧ Nat.gcd (1 + r.toNat) (run k).hidden.tphi.toNat = 1

/-! ## The invariant -/

/-- The steps of KEYGEN: all but `K_IDLE` and `K_RUN` (10_state.md R25). -/
def KStep.ofKeygen : KStep → Bool
  | .idle | .run => false
  | .init | .start | .pickP | .pickQ | .fetchP | .fetchQ | .derive | .drawE | .finish => true

/-- The steps of KEYGEN inside an attempt (43_keygen.md R102 to R115). -/
def KStep.inAttempt : KStep → Bool
  | .idle | .run | .init | .start => false
  | .pickP | .pickQ | .fetchP | .fetchQ | .derive | .drawE | .finish => true

/-- The steps of an attempt that follow the draw of `p`'s index (43_keygen.md R103). -/
def KStep.afterPickP : KStep → Bool
  | .idle | .run | .init | .start | .pickP => false
  | .pickQ | .fetchP | .fetchQ | .derive | .drawE | .finish => true

/-- The steps of an attempt that follow the draw of `q`'s index (43_keygen.md R104). -/
def KStep.afterPickQ : KStep → Bool
  | .idle | .run | .init | .start | .pickP | .pickQ => false
  | .fetchP | .fetchQ | .derive | .drawE | .finish => true

/-- The steps of an attempt that follow `K_DERIVE` (43_keygen.md R107). -/
def KStep.afterDerive : KStep → Bool
  | .idle | .run | .init | .start | .pickP | .pickQ | .fetchP | .fetchQ | .derive => false
  | .drawE | .finish => true

/-- The four commands other than KEYGEN. -/
def isArithmetic : Instr → Bool
  | .gcd | .xgcd | .modinv | .modpow => true
  | .keygen => false

/-- Whether a word is a command word of one of the four arithmetic commands. -/
def decodesArithmetic : Decoded → Bool
  | .command i => isArithmetic i
  | .illegal _ => false

/-- The request that is pending at each step (43_keygen.md R102 to R111). -/
def requestFor (s : State) : Req :=
  match s.hidden.kstep with
  | .pickP => .rand s.conf.pspan
  | .pickQ => .rand s.conf.qspan
  | .fetchP => .prime s.hidden.ip
  | .fetchQ => .prime s.hidden.iq
  | .drawE => .rand (s.hidden.tphi - 1)
  | .idle | .run | .init | .start | .derive | .finish => .none

/-- No answer is being delivered between two steps (20_memory.md R53). -/
abbrev State.PortIdle (s : State) : Prop := s.world.answer = none

/-- 10_state.md R31 (a), (b), (d), and R20: the fields of `STATUS` agree with each other and with the hidden
state. -/
abbrev State.StatusAgrees (s : State) : Prop :=
  ¬ (s.status.busy = true ∧ s.status.done = true)
  ∧ (s.status.busy = false ↔ s.hidden.kstep = .idle)
  ∧ s.status.phase = phaseOf s.hidden.kstep s.hidden.req
  ∧ (s.status.err ≠ .none → s.status.done = true)

/-- The command word and `kstep` name the same command (10_state.md R24, R25). -/
abbrev State.CommandAgrees (s : State) : Prop :=
  (s.hidden.kstep = .run → decodesArithmetic (decode s.cmd) = true)
  ∧ (s.hidden.kstep.ofKeygen = true → decode s.cmd = .command .keygen)

/-- 10_state.md R31 (c): a request is pending in exactly the waiting steps, and it is the one its rule
made. -/
abbrev State.RequestAgrees (s : State) : Prop := s.hidden.req = requestFor s

/-- 10_state.md R31 (e), (f): the destination set of the command in progress reads 0. -/
abbrev State.DestinationsClear (s : State) : Prop :=
  (s.hidden.kstep = .run → s.results.res = 0)
  ∧ (s.hidden.kstep = .run → decode s.cmd = .command .xgcd →
      s.results = { res := 0, xlo := 0, ylo := 0 } ∧ s.status.xneg = false ∧ s.status.yneg = false)
  ∧ (s.hidden.kstep.ofKeygen = true → s.keys = { n := 0, e := 0, d := 0, phi := 0 })

/-- 10_state.md R31 (g), and what each step of KEYGEN has established for the next (43_keygen.md R101, R103,
R104, R110, R111). -/
abbrev State.KeygenData (s : State) : Prop :=
  (s.hidden.kstep.ofKeygen = true → s.attempts.toNat ≤ s.conf.maxtry.toNat)
  ∧ (s.hidden.kstep = .init → s.attempts = 0 ∧ s.status.lastFail = .none)
  ∧ (s.hidden.kstep.ofKeygen = true → s.hidden.kstep ≠ .init → s.conf.legal = true)
  ∧ (s.hidden.kstep.inAttempt = true → 1 ≤ s.attempts.toNat)
  ∧ (s.hidden.kstep.afterPickP = true →
      s.conf.pbase.toNat ≤ s.hidden.ip.toNat
      ∧ s.hidden.ip.toNat < s.conf.pbase.toNat + s.conf.pspan.toNat)
  ∧ (s.hidden.kstep.afterPickQ = true →
      s.conf.qbase.toNat ≤ s.hidden.iq.toNat
      ∧ s.hidden.iq.toNat < s.conf.qbase.toNat + s.conf.qspan.toNat)
  ∧ (s.hidden.kstep.afterDerive = true →
      s.hidden.tn.toNat = s.hidden.p.toNat * s.hidden.q.toNat
      ∧ (s.hidden.tphi.toNat : Int) = totient s.hidden.p.toNat s.hidden.q.toNat
      ∧ 2 ≤ s.hidden.tphi.toNat)
  ∧ (s.hidden.kstep = .finish →
      1 ≤ s.hidden.te.toNat ∧ s.hidden.te.toNat < s.hidden.tphi.toNat
      ∧ Nat.gcd s.hidden.te.toNat s.hidden.tphi.toNat = 1)

/-- The invariant of the state (10_state.md R31). -/
abbrev State.Inv (s : State) : Prop :=
  s.PortIdle ∧ s.StatusAgrees ∧ s.CommandAgrees ∧ s.RequestAgrees ∧ s.DestinationsClear ∧ s.KeygenData

/-- No command is in progress: the host's writes are performed (10_state.md R17, R27). -/
abbrev State.Idle (s : State) : Prop := s.status.busy = false ∧ s.hidden.kstep = .idle

end Sys2Proof.Machine
end

