-- ==== Sys2Proof/Certificates/Slice0/Obligations.lean ====
section
/-! DEFINITION. The statements for the provers, in the order of the spec: encoding, the register space,
acceptance, the four arithmetic commands, KEYGEN, the whole machine. -/

open Sys2Proof Sys2Proof.Machine

/-! ## Encoding (30_encoding.md, 20_memory.md R43) -/

/-- The five words written out from the table of 30_encoding.md R61, and three words of R63, decode to what
the table says. -/
def Obligations.SpecWordsDecodeToTheirCommands : Prop :=
  decode 0x0000000000000001#64 = .command .gcd
  ∧ decode 0x0000000000000002#64 = .command .xgcd
  ∧ decode 0x0000000000000003#64 = .command .modinv
  ∧ decode 0x0000000000000004#64 = .command .modpow
  ∧ decode 0x0000000000000005#64 = .command .keygen
  ∧ decode 0x0000000000000000#64 = .illegal .opcode
  ∧ decode 0x0000000000000006#64 = .illegal .opcode
  ∧ decode 0x0000000000000105#64 = .illegal .zeroField

/-- 30_encoding.md R61, R72: each command is selected by its one word, and every other word is illegal. -/
def Obligations.DecodeSelectsExactlyTheFiveWords : Prop :=
  ∀ w : Word,
    (decode w = .command .gcd ↔ w = 0x0000000000000001#64)
    ∧ (decode w = .command .xgcd ↔ w = 0x0000000000000002#64)
    ∧ (decode w = .command .modinv ↔ w = 0x0000000000000003#64)
    ∧ (decode w = .command .modpow ↔ w = 0x0000000000000004#64)
    ∧ (decode w = .command .keygen ↔ w = 0x0000000000000005#64)
    ∧ ((∃ why, decode w = .illegal why)
        ↔ (w.extractLsb' 8 56 ≠ 0
            ∨ (w.extractLsb' 0 8).toNat = 0 ∨ 5 < (w.extractLsb' 0 8).toNat))

/-- Decoding an encoded command, as a word, as bytes and as a row of the table, gives it back; and a word
that decodes to a command is that command's word. -/
def Obligations.DecodeAndEncodeAgree : Prop :=
  (∀ i : Instr,
    decode (encode i) = .command i
    ∧ decodeBytes (bytesOfWord (encode i)) = .command i
    ∧ decodeTableWord 64 (encode i).toNat = some i)
  ∧ ∀ (w : Word) (i : Instr), decode w = .command i → encode i = w

/-- 20_memory.md R43: a register's eight bytes, the least significant at the lowest offset, and the word read
back from them. -/
def Obligations.RegisterBytesAreLittleEndian : Prop :=
  ∀ w : Word,
    (bytesOfWord w).length = 8
    ∧ (∀ k : Nat, k < 8 → (bytesOfWord w)[k]? = some (w.extractLsb' (8 * k) 8))
    ∧ wordOfBytes (bytesOfWord w) = w

/-! ## Reset (10_state.md R29, 70_reset_and_hazards.md R155, R156) -/

/-- 10_state.md R29: every mapped register and all hidden state after reset. `QSPAN` is `2 * LIMIT` but for
`LIMIT = 2^63`, where that does not fit 64 bits and the value is left open (log entry 2). 10_state.md R23,
70_reset_and_hazards.md R159 (c): in every case the reset configuration is a legal combination. -/
def Obligations.ResetValuesOfEveryRegister : Prop :=
  (∀ r : Reg, r ≠ .maxtry → r ≠ .pspan → r ≠ .qspan → readReg State.reset r = 0)
  ∧ (readReg State.reset .maxtry = Config.maxtryReset ∧ 1 ≤ Config.maxtryReset.toNat)
  ∧ (1 ≤ Config.limit ∧ Config.limit ≤ 2 ^ 63 ∧ (readReg State.reset .pspan).toNat = Config.limit)
  ∧ ((readReg State.reset .qspan).toNat = 2 * Config.limit ∨ Config.limit = 2 ^ 63)
  ∧ (1 ≤ (readReg State.reset .pspan).toNat ∧ 1 ≤ (readReg State.reset .qspan).toNat
    ∧ (readReg State.reset .pbase).toNat + (readReg State.reset .pspan).toNat ≤ 2 ^ 64
    ∧ (readReg State.reset .qbase).toNat + (readReg State.reset .qspan).toNat ≤ 2 ^ 64)
  ∧ State.reset.hidden
      = { kstep := .idle, req := .none, ip := 0, iq := 0, p := 0, q := 0, tn := 0, tphi := 0, te := 0 }

/-- 70_reset_and_hazards.md R155, R156: from any state, whatever command is in progress and whatever is to
come, the reset step gives the reset state of the engine (R157: the steps to come and the replies stay, log
entry 1); and a late answer of either collaborator that comes next is dropped. -/
def Obligations.ResetAbandonsEverything : Prop :=
  ∀ (s : State) (rest : List Event), s.world.script = .reset :: rest →
    step s = .next { State.reset with
      world := { script := rest, answer := none, replies := s.world.replies } }
    ∧ ∀ (a : Answer) (later : List Event), rest = .answer a :: later →
        runSteps 2 s = .next { State.reset with
          world := { script := later, answer := none, replies := s.world.replies } }

/-! ## The register space (10_state.md R10, R16, R26 to R28; 20_memory.md R41 to R45) -/

/-- 10_state.md R16: the layout of `STATUS`, with the code values of R18, R19 and R20. -/
def Obligations.StatusRegisterLayout : Prop :=
  (∀ t : Status,
    (statusWord t).getLsbD 0 = t.busy
    ∧ (statusWord t).getLsbD 1 = t.done
    ∧ (statusWord t).getLsbD 2 = t.xneg
    ∧ (statusWord t).getLsbD 3 = t.yneg
    ∧ (statusWord t).extractLsb' 4 4 = 0
    ∧ (statusWord t).extractLsb' 8 4 = t.err.code
    ∧ (statusWord t).extractLsb' 12 4 = t.lastFail.code
    ∧ (statusWord t).extractLsb' 16 4 = t.phase.code
    ∧ (statusWord t).extractLsb' 20 44 = 0)
  ∧ [ErrCode.none, .illegalCmd, .bothZero, .modZero, .notCoprime, .config, .primeNotFound, .retryLimit,
      .randRange].map ErrCode.code = [0, 1, 2, 3, 4, 5, 6, 7, 8]
  ∧ [FailCause.none, .overflow, .phiRange, .edCheck, .roundtrip].map FailCause.code = [0, 1, 2, 3, 4]
  ∧ [Phase.idle, .exec, .waitRand, .waitPrime].map Phase.code = [0, 1, 2, 3]

/-- 10_state.md R10, R28 and 20_memory.md R41: a host read, in any state, returns the register at its index, 0
at an unmapped one, and the engine does not change. -/
def Obligations.HostReadReturnsTheRegister : Prop :=
  ∀ (s : State) (idx : Nat) (rest : List Event), s.world.script = .read idx :: rest →
    step s = .next { s with world := { s.world with
      script := rest
      replies := .word
        (if idx = 0x00 then s.cmd else if idx = 0x01 then statusWord s.status
        else if idx = 0x02 then s.operands.a else if idx = 0x03 then s.operands.b
        else if idx = 0x04 then s.operands.m else if idx = 0x05 then s.results.res
        else if idx = 0x06 then s.results.xlo else if idx = 0x07 then s.results.ylo
        else if idx = 0x08 then s.keys.n else if idx = 0x09 then s.keys.e
        else if idx = 0x0A then s.keys.d else if idx = 0x0B then s.keys.phi
        else if idx = 0x0C then s.attempts else if idx = 0x0D then s.conf.maxtry
        else if idx = 0x0E then s.conf.pbase else if idx = 0x0F then s.conf.pspan
        else if idx = 0x10 then s.conf.qbase else if idx = 0x11 then s.conf.qspan
        else 0) :: s.world.replies } }

/-- 20_memory.md R42, R45: a write to an operand or configuration register while no command is in progress
stores the value and changes nothing else. -/
def Obligations.HostWriteOnlyStores : Prop :=
  ∀ (s : State) (idx : Nat) (v : Word) (rest : List Event),
    s.world.script = .write idx v :: rest → s.status.busy = false →
    idx ∈ [0x02, 0x03, 0x04, 0x0D, 0x0E, 0x0F, 0x10, 0x11] →
    ∃ t, step s = .next t
      ∧ memRead t idx = v
      ∧ (∀ j : Nat, j ≠ idx → memRead t j = memRead s j)
      ∧ t.status = s.status ∧ t.hidden = s.hidden
      ∧ t.world = { s.world with script := rest }

/-- 10_state.md R27: a write to any register while `BUSY = 1` is dropped, `CMD` included. -/
def Obligations.WritesWhileBusyAreDropped : Prop :=
  ∀ (s : State) (idx : Nat) (v : Word) (rest : List Event),
    s.world.script = .write idx v :: rest → s.status.busy = true →
    step s = .next { s with world := { s.world with script := rest } }

/-- 10_state.md R26 and 20_memory.md R41: a write to a read-only register or to an unmapped index is
dropped. -/
def Obligations.WritesToReadOnlyOrUnmappedAreDropped : Prop :=
  ∀ (s : State) (idx : Nat) (v : Word) (rest : List Event),
    s.world.script = .write idx v :: rest →
    idx ∈ [0x01, 0x05, 0x06, 0x07, 0x08, 0x09, 0x0A, 0x0B, 0x0C] ∨ 0x12 ≤ idx →
    step s = .next { s with world := { s.world with script := rest } }

/-- 20_memory.md R43, R44: on a byte-addressed mapping an access of 8 bytes at a multiple of 8 is the access
of the word at that index; every other access is given no step. -/
def Obligations.BusAccessesAreWordAccessesOrNone : Prop :=
  ∀ (s : State) (rest : List Event),
    (∀ (off : Nat) (bytes : List Byte), s.world.script = .busWrite off bytes :: rest →
      (bytes.length = 8 ∧ off % 8 = 0 →
        step s
          = step { s with world := { s.world with
              script := .write (off / 8) (BitVec.ofNat 64 (leNat bytes)) :: rest } })
      ∧ (¬ (bytes.length = 8 ∧ off % 8 = 0) →
        step s = .refused (.inadmissibleAccess off bytes.length)))
    ∧ (∀ off len : Nat, s.world.script = .busRead off len :: rest →
      (len = 8 ∧ off % 8 = 0 →
        step s = .next { s with world := { s.world with
          script := rest, replies := .bytes (bytesOfWord (memRead s (off / 8))) :: s.world.replies } })
      ∧ (¬ (len = 8 ∧ off % 8 = 0) → step s = .refused (.inadmissibleAccess off len)))

/-- The host's `WAIT` (30_encoding.md R69): one read of `STATUS`, repeated while it has `BUSY = 1`. Between two
reads falls the next scheduled step that is none of the program's, and the rest of the program waits; if none
is scheduled, the engine has its turn. So the steps of the engine, the collaborators and reset do under `WAIT`
what they do without it, until a read finds the command over. That exactly one such step falls between two
reads, and that the engine has it if none is scheduled, is the model's choice (log entry 1). -/
def Obligations.WaitReadsStatusUntilTheCommandIsOver : Prop :=
  (∀ (s : State) (rest : List Event), s.world.script = .poll :: rest →
    (s.status.busy = false → step s = .next { s with world := { s.world with
      script := rest, replies := .word (statusWord s.status) :: s.world.replies } })
    ∧ (s.status.busy = true →
      (∀ (program others : List Event) (ev : Event), rest = program ++ ev :: others →
        (∀ x ∈ program, x.ofProgram = true) → ev.ofProgram = false →
        step s = .next { s with world := { s.world with
          script := ev :: .poll :: (program ++ others)
          replies := .word (statusWord s.status) :: s.world.replies } })
      ∧ ((∀ x ∈ rest, x.ofProgram = true) →
        step s = .next { s with world := { s.world with
          script := .mie :: .poll :: rest
          replies := .word (statusWord s.status) :: s.world.replies } })))
  ∧ ∀ (s t : State) (evs rest : List Event),
      (∀ ev ∈ evs, ev.ofProgram = false) →
      (∀ k u, k < evs.length →
        runSteps k { s with world := { s.world with script := evs } } = .next u → u.status.busy = true) →
      runSteps evs.length { s with world := { s.world with script := evs } } = .next t →
      t.status.busy = false →
      s.world.script = .poll :: evs ++ rest →
      ∃ read : List Reply, read.length = evs.length + 1
        ∧ runSteps (2 * evs.length + 1) s = .next { t with world := { t.world with
            script := rest, replies := read ++ s.world.replies } }

/-- 30_encoding.md R70: the expansion of each pseudo-instruction. -/
def Obligations.PseudoInstructionsExpand : Prop :=
  ∀ a b c : Word,
    Script.gcd a b = [.write 0x02 a, .write 0x03 b, .write 0x00 0x1, .poll]
    ∧ Script.xgcd a b = [.write 0x02 a, .write 0x03 b, .write 0x00 0x2, .poll]
    ∧ Script.modinv a b = [.write 0x02 a, .write 0x04 b, .write 0x00 0x3, .poll]
    ∧ Script.modpow a b c = [.write 0x02 a, .write 0x03 b, .write 0x04 c, .write 0x00 0x4, .poll]
    ∧ Script.keygen = [.write 0x00 0x5, .poll]
    ∧ Script.encryptUnit a b c = Script.modpow a b c
    ∧ Script.decryptUnit a b c = Script.modpow a b c

/-! ## How a command starts, runs and is decoded (30_encoding.md R66 to R68) -/

/-- 30_encoding.md R66: acceptance of a legal command, in every state of the invariant with no command in
progress: the whole next state. -/
def Obligations.AcceptanceOfALegalCommand : Prop :=
  ∀ (s : State) (i : Instr) (w : Word) (rest : List Event),
    s.Inv → s.status.busy = false → decode w = .command i → s.world.script = .write 0x00 w :: rest →
    s.hidden.req = .none
    ∧ step s = .next { s with
        cmd := w
        status := { busy := true, done := false, err := .none, phase := .exec
                    xneg := if i = .xgcd then false else s.status.xneg
                    yneg := if i = .xgcd then false else s.status.yneg
                    lastFail := if i = .keygen then .none else s.status.lastFail }
        results := if i = .keygen then s.results
          else if i = .xgcd then { res := 0, xlo := 0, ylo := 0 } else { s.results with res := 0 }
        keys := if i = .keygen then { n := 0, e := 0, d := 0, phi := 0 } else s.keys
        attempts := if i = .keygen then 0 else s.attempts
        hidden := { s.hidden with kstep := if i = .keygen then .init else .run }
        world := { s.world with script := rest } }

/-- 30_encoding.md R67: an illegal word written while no command is in progress is recorded, and nothing else
changes. -/
def Obligations.IllegalCommandIsRecorded : Prop :=
  ∀ (s : State) (w : Word) (rest : List Event),
    s.status.busy = false →
    w ∉ [0x1#64, 0x2#64, 0x3#64, 0x4#64, 0x5#64] → s.world.script = .write 0x00 w :: rest →
    step s = .next { s with
      cmd := w
      status := { s.status with done := true, err := .illegalCmd }
      world := { s.world with script := rest } }

/-- A step runs the decoded command. The engine's turn runs the command the stored word names, when a step of
the engine is due; a host's write of a command word runs it on the stored word; an answer of the pending
request's kind runs the command in progress with the answer on its port. Two clauses are the model's own
choice: that the engine has its turn when the script is empty (log entry 1), and that `withFetchWord` presents
a command word to an idle engine so that the next step runs it (log entry 3). -/
def Obligations.StepRunsTheDecodedCommand : Prop :=
  ∀ (s : State) (i : Instr) (rest : List Event),
    (decode s.cmd = .command i → s.hidden.kstep.ownStep = true →
      (s.world.script = [] → step s = exec i s)
      ∧ (s.world.script = .mie :: rest →
          step s = exec i { s with world := { s.world with script := rest } }))
    ∧ (∀ w : Word, decode w = .command i → s.status.busy = false →
        s.world.script = .write 0x00 w :: rest →
        step s = exec i { s with cmd := w, world := { s.world with script := rest } })
    ∧ (∀ a : Answer, decode s.cmd = .command i → s.hidden.req.takes a = true →
        s.world.script = .answer a :: rest →
        step s = exec i { s with world := { s.world with script := rest, answer := some a } })
    ∧ step (s.withFetchWord 64 (encode i).toNat)
        = exec i { s with
            cmd := encode i
            status := { s.status with busy := false, phase := .idle }
            hidden := { s.hidden with kstep := .idle, req := .none }
            world := { s.world with answer := none } }

/-! ## GCD (40_gcd.md) -/

/-- 40_gcd.md R76: the engine step of `GCD` on operands not both zero: the whole next state. -/
def Obligations.GcdCompletesWithTheGcd : Prop :=
  ∀ s : State, s.hidden.kstep = .run → ¬ (s.operands.a = 0 ∧ s.operands.b = 0) →
    exec .gcd s = .next { s with
      results := { s.results with
        res := BitVec.ofNat 64 (Nat.gcd s.operands.a.toNat s.operands.b.toNat) }
      status := { s.status with busy := false, done := true, err := .none, phase := .idle }
      hidden := { s.hidden with kstep := .idle, req := .none } }

/-- 40_gcd.md R78: after `GCD` completes, `RES` divides both operands and no larger number does. -/
def Obligations.GcdResultIsTheGreatestDivisor : Prop :=
  ∀ s : State, s.hidden.kstep = .run → ¬ (s.operands.a = 0 ∧ s.operands.b = 0) →
    ∃ t, exec .gcd s = .next t ∧ t.status.err = .none ∧ t.results.res ≠ 0
      ∧ s.operands.a.toNat % t.results.res.toNat = 0
      ∧ s.operands.b.toNat % t.results.res.toNat = 0
      ∧ ∀ c : Nat, t.results.res.toNat < c →
          s.operands.a.toNat % c ≠ 0 ∨ s.operands.b.toNat % c ≠ 0

/-- 60_exceptions.md R132, R142: `GCD` of two zeros ends with `BOTH_ZERO`, `RES` not written; and no step of a
command records `BOTH_ZERO` otherwise. -/
def Obligations.BothZeroIsRaisedByGcdOfZerosOnly : Prop :=
  (∀ s : State, s.hidden.kstep = .run → s.operands.a = 0 → s.operands.b = 0 →
    exec .gcd s = .next { s with
      status := { s.status with busy := false, done := true, err := .bothZero, phase := .idle }
      hidden := { s.hidden with kstep := .idle, req := .none } })
  ∧ ∀ (i : Instr) (s t : State), exec i s = .next t → s.status.err ≠ .bothZero →
      t.status.err = .bothZero →
      i = .gcd ∧ s.hidden.kstep = .run ∧ s.operands.a = 0 ∧ s.operands.b = 0

/-! ## XGCD (41_xgcd_modinv.md) -/

/-- 41_xgcd_modinv.md R80: `extended_gcd` obeys the source's recursion for every pair, and its triple satisfies
`a * x + b * y = g = gcd(a, b)`. -/
def Obligations.ExtendedGcdObeysItsRecursion : Prop :=
  (∀ b : Nat, extendedGcd 0 b = (b, 0, 1))
  ∧ (∀ a b : Nat, a ≠ 0 → ∀ (g : Nat) (x1 y1 : Int), extendedGcd (b % a) a = (g, x1, y1) →
      extendedGcd a b = (g, y1 - ((b / a : Nat) : Int) * x1, x1))
  ∧ ∀ (a b g : Nat) (x y : Int), extendedGcd a b = (g, x, y) →
      (a : Int) * x + (b : Int) * y = (g : Int) ∧ g = Nat.gcd a b

/-- 41_xgcd_modinv.md R83: the bounds on the coefficients, and on the products formed on the way. -/
def Obligations.BezoutCoefficientsAreBounded : Prop :=
  ∀ a b : Nat, a < 2 ^ 64 → b < 2 ^ 64 → ∀ (g : Nat) (x y : Int), extendedGcd a b = (g, x, y) →
    (g = 0 → a = 0 ∧ b = 0 ∧ x = 0 ∧ y = 1)
    ∧ (g ≠ 0 → x.natAbs ≤ max 1 (b / g) ∧ y.natAbs ≤ max 1 (a / g))
    ∧ x.natAbs < 2 ^ 64 ∧ y.natAbs < 2 ^ 64
    ∧ (a ≠ 0 → (((b / a : Nat) : Int) * (extendedGcd (b % a) a).2.1).natAbs < 2 ^ 64)

/-- 10_state.md R13: a coefficient in the 65-bit range is read back from its two halves, and the high bit is
its sign. -/
def Obligations.CoefficientsReadBack : Prop :=
  ∀ v : Int, -2 ^ 64 ≤ v → v < 2 ^ 64 →
    coefValue (coefLow v) (coefNeg v) = v ∧ (coefNeg v = true ↔ v < 0)

/-- 41_xgcd_modinv.md R82: the engine step of `XGCD` on every pair of operands: the whole next state. -/
def Obligations.XgcdCompletesOnEveryPair : Prop :=
  ∀ (s : State) (g : Nat) (x y : Int), s.hidden.kstep = .run →
    extendedGcd s.operands.a.toNat s.operands.b.toNat = (g, x, y) →
    exec .xgcd s = .next { s with
      results := { res := BitVec.ofNat 64 g, xlo := BitVec.ofInt 64 x, ylo := BitVec.ofInt 64 y }
      status := { s.status with
        busy := false, done := true, err := .none, phase := .idle,
        xneg := decide (x < 0), yneg := decide (y < 0) }
      hidden := { s.hidden with kstep := .idle, req := .none } }

/-- 41_xgcd_modinv.md R82 (h): the identity `A * x + B * y = RES` over the integers, read from the registers,
and `RES` the greatest common divisor. -/
def Obligations.XgcdRegistersSatisfyBezout : Prop :=
  ∀ s : State, s.hidden.kstep = .run →
    ∃ t, exec .xgcd s = .next t
      ∧ (s.operands.a.toNat : Int) * coefValue t.results.xlo t.status.xneg
          + (s.operands.b.toNat : Int) * coefValue t.results.ylo t.status.yneg
        = (t.results.res.toNat : Int)
      ∧ t.results.res.toNat = Nat.gcd s.operands.a.toNat s.operands.b.toNat

/-! ## MODINV (41_xgcd_modinv.md) -/

/-- 41_xgcd_modinv.md R86, R87 (a), R88: the engine step of `MODINV` on a coprime pair with a non-zero
modulus: the whole next state, with the inverse in `RES`. -/
def Obligations.ModinvCompletesWithTheInverse : Prop :=
  ∀ s : State, s.hidden.kstep = .run → s.operands.m ≠ 0 →
    Nat.gcd s.operands.a.toNat s.operands.m.toNat = 1 →
    ∃ r : Word,
      exec .modinv s = .next { s with
        results := { s.results with res := r }
        status := { s.status with busy := false, done := true, err := .none, phase := .idle }
        hidden := { s.hidden with kstep := .idle, req := .none } }
      ∧ r.toNat < s.operands.m.toNat
      ∧ (1 < s.operands.m.toNat → s.operands.a.toNat * r.toNat % s.operands.m.toNat = 1)

/-- 41_xgcd_modinv.md R87 (i): `MODINV` of its own result is `A mod M`. -/
def Obligations.ModinvOfItsResultIsTheOperand : Prop :=
  ∀ s t : State, s.hidden.kstep = .run → s.operands.m ≠ 0 →
    Nat.gcd s.operands.a.toNat s.operands.m.toNat = 1 → exec .modinv s = .next t →
    ∃ u, exec .modinv { s with operands := { s.operands with a := t.results.res } } = .next u
      ∧ u.status.err = .none
      ∧ u.results.res.toNat = s.operands.a.toNat % s.operands.m.toNat

/-- 41_xgcd_modinv.md R86 and 60_exceptions.md R133, R134, R141 (b): the two errors of `MODINV`, `MOD_ZERO`
before `NOT_COPRIME`: the whole next state. -/
def Obligations.ModinvErrors : Prop :=
  ∀ s : State, s.hidden.kstep = .run →
    (s.operands.m = 0 →
      exec .modinv s = .next { s with
        status := { s.status with busy := false, done := true, err := .modZero, phase := .idle }
        hidden := { s.hidden with kstep := .idle, req := .none } })
    ∧ (s.operands.m ≠ 0 → Nat.gcd s.operands.a.toNat s.operands.m.toNat ≠ 1 →
      exec .modinv s = .next { s with
        status := { s.status with busy := false, done := true, err := .notCoprime, phase := .idle }
        hidden := { s.hidden with kstep := .idle, req := .none } })

/-! ## MODPOW (42_modpow.md) -/

/-- 42_modpow.md R93, R94 (e), R97 (1): the engine step of `MODPOW` on every modulus, the whole next state: with
`M` not 0, `A^B mod M` in `RES`; with `M = 0`, the end with `MOD_ZERO`, `RES` not written. -/
def Obligations.ModpowCompletesWithThePowerOrModZero : Prop :=
  ∀ s : State, s.hidden.kstep = .run →
    (s.operands.m ≠ 0 →
      exec .modpow s = .next { s with
        results := { s.results with
          res := BitVec.ofNat 64
            (s.operands.a.toNat ^ s.operands.b.toNat % s.operands.m.toNat) }
        status := { s.status with busy := false, done := true, err := .none, phase := .idle }
        hidden := { s.hidden with kstep := .idle, req := .none } })
    ∧ (s.operands.m = 0 →
      exec .modpow s = .next { s with
        status := { s.status with busy := false, done := true, err := .modZero, phase := .idle }
        hidden := { s.hidden with kstep := .idle, req := .none } })

/-- 42_modpow.md R90, R91, R92: the loop starts from `x = 1`, `y = base`; one pass of it is the pass of R90, from
`x` and `y` within the bounds of R92 to the next `x` and `y` within them, no product reaching 2^128; and the
loop ends with the last reduction. -/
def Obligations.ModpowProductsFit128Bits : Prop :=
  ∀ base m : Nat, 1 ≤ m → m < 2 ^ 64 → base < 2 ^ 64 →
    (∀ k : Nat, modPow base k m = modPowLoop k 1 base k m)
    ∧ (1 ≤ max 1 (m - 1) ∧ base ≤ max base (m - 1))
    ∧ (∀ fuel x y k : Nat, x ≤ max 1 (m - 1) → y ≤ max base (m - 1) → k ≠ 0 →
      x * y < 2 ^ 128 ∧ y * y < 2 ^ 128
      ∧ modPowLoop (fuel + 1) x y k m
        = modPowLoop fuel (if k % 2 = 1 then (x * y) % m else x) ((y * y) % m) (k / 2) m
      ∧ (if k % 2 = 1 then (x * y) % m else x) ≤ max 1 (m - 1)
      ∧ (y * y) % m < m ∧ (y * y) % m ≤ max base (m - 1))
    ∧ ∀ fuel x y : Nat, modPowLoop fuel x y 0 m = x % m

/-! ## What the four arithmetic commands leave alone (10_state.md R11, R14, R19, R30) -/

/-- The frame of the arithmetic commands, at acceptance and at their engine step: `CMD`, the operands, the key
registers, `ATTEMPTS`, the configuration, `LASTFAIL`, the hidden registers other than `kstep` and `REQ`, and
the world; and the coefficients and their signs unless the command is `XGCD`. -/
def Obligations.ArithmeticCommandFrame : Prop :=
  ∀ (i : Instr) (s t : State), i ≠ .keygen → exec i s = .next t →
    t.cmd = s.cmd ∧ t.operands = s.operands ∧ t.keys = s.keys ∧ t.attempts = s.attempts
    ∧ t.conf = s.conf ∧ t.world = s.world ∧ t.status.lastFail = s.status.lastFail
    ∧ { t.hidden with kstep := s.hidden.kstep, req := s.hidden.req } = s.hidden
    ∧ (i ≠ .xgcd → t.results.xlo = s.results.xlo ∧ t.results.ylo = s.results.ylo
        ∧ t.status.xneg = s.status.xneg ∧ t.status.yneg = s.status.yneg)

/-- 00_scope.md R7: two commands of one kind on equal values in the operand registers they read end with equal
destination sets and the same code, whatever else the two states hold. -/
def Obligations.ArithmeticResultsDependOnOperandsOnly : Prop :=
  ∀ s s' t t' : State, s.Inv → s'.Inv → s.hidden.kstep = .run → s'.hidden.kstep = .run →
    s.operands.a = s'.operands.a →
    (s.operands.b = s'.operands.b → exec .gcd s = .next t → exec .gcd s' = .next t' →
      t.results.res = t'.results.res ∧ t.status.err = t'.status.err)
    ∧ (s.operands.b = s'.operands.b → exec .xgcd s = .next t → exec .xgcd s' = .next t' →
      t.results = t'.results ∧ t.status.xneg = t'.status.xneg ∧ t.status.yneg = t'.status.yneg
      ∧ t.status.err = t'.status.err)
    ∧ (s.operands.m = s'.operands.m → exec .modinv s = .next t → exec .modinv s' = .next t' →
      t.results.res = t'.results.res ∧ t.status.err = t'.status.err)
    ∧ (s.operands.b = s'.operands.b → s.operands.m = s'.operands.m →
      exec .modpow s = .next t → exec .modpow s' = .next t' →
      t.results.res = t'.results.res ∧ t.status.err = t'.status.err)

/-! ## KEYGEN, state by state (43_keygen.md R101 to R117) -/

/-- 43_keygen.md R101: `K_INIT`: the whole next state, and what the check secures: every later index fits 64
bits and every later request for an index has a bound of at least 1. -/
def Obligations.KeygenInitChecksTheConfiguration : Prop :=
  ∀ s : State, s.hidden.kstep = .init →
    (s.conf.pspan = 0 ∨ s.conf.qspan = 0
        ∨ 2 ^ 64 < s.conf.pbase.toNat + s.conf.pspan.toNat
        ∨ 2 ^ 64 < s.conf.qbase.toNat + s.conf.qspan.toNat →
      exec .keygen s = .next { s with
        status := { s.status with busy := false, done := true, err := .config, phase := .idle }
        hidden := { s.hidden with kstep := .idle, req := .none } })
    ∧ (¬ (s.conf.pspan = 0 ∨ s.conf.qspan = 0
        ∨ 2 ^ 64 < s.conf.pbase.toNat + s.conf.pspan.toNat
        ∨ 2 ^ 64 < s.conf.qbase.toNat + s.conf.qspan.toNat) →
      exec .keygen s = .next { s with hidden := { s.hidden with kstep := .start } }
      ∧ (1 ≤ s.conf.pspan.toNat ∧ ∀ r < s.conf.pspan.toNat, s.conf.pbase.toNat + r < 2 ^ 64)
      ∧ (1 ≤ s.conf.qspan.toNat ∧ ∀ r < s.conf.qspan.toNat, s.conf.qbase.toNat + r < 2 ^ 64))

/-- 43_keygen.md R102: `K_START`: the cap, the attempt counted, the first request: the whole next state. -/
def Obligations.KeygenStartCountsTheAttempt : Prop :=
  ∀ s : State, s.hidden.kstep = .start →
    (s.conf.maxtry.toNat ≤ s.attempts.toNat →
      exec .keygen s = .next { s with
        status := { s.status with busy := false, done := true, err := .retryLimit, phase := .idle }
        hidden := { s.hidden with kstep := .idle, req := .none } })
    ∧ (s.attempts.toNat < s.conf.maxtry.toNat →
      exec .keygen s = .next { s with
        attempts := BitVec.ofNat 64 (s.attempts.toNat + 1)
        status := { s.status with phase := .waitRand }
        hidden := { s.hidden with req := .rand s.conf.pspan, kstep := .pickP } })

/-- 43_keygen.md R103, R104: the draws of the two indices, in range and out of range: the whole next state. -/
def Obligations.KeygenDrawsTheIndices : Prop :=
  ∀ (s : State) (r : Word), s.world.answer = some (.rand r) →
    (s.hidden.kstep = .pickP → r.toNat < s.conf.pspan.toNat →
      exec .keygen s = .next { s with
        hidden := { s.hidden with
          ip := BitVec.ofNat 64 (s.conf.pbase.toNat + r.toNat)
          req := .rand s.conf.qspan, kstep := .pickQ }
        world := { s.world with answer := none } })
    ∧ (s.hidden.kstep = .pickQ → r.toNat < s.conf.qspan.toNat →
      exec .keygen s = .next { s with
        status := { s.status with phase := .waitPrime }
        hidden := { s.hidden with
          iq := BitVec.ofNat 64 (s.conf.qbase.toNat + r.toNat)
          req := .prime s.hidden.ip, kstep := .fetchP }
        world := { s.world with answer := none } })
    ∧ ((s.hidden.kstep = .pickP ∧ s.conf.pspan.toNat ≤ r.toNat)
        ∨ (s.hidden.kstep = .pickQ ∧ s.conf.qspan.toNat ≤ r.toNat) →
      exec .keygen s = .next { s with
        status := { s.status with busy := false, done := true, err := .randRange, phase := .idle }
        hidden := { s.hidden with kstep := .idle, req := .none }
        world := { s.world with answer := none } })

/-- 43_keygen.md R105, R106: the answers of the PrimeSource for `p` and for `q`: the whole next state. -/
def Obligations.KeygenFetchesThePrimes : Prop :=
  ∀ s : State,
    (∀ v : Word, s.world.answer = some (.found v) →
      (s.hidden.kstep = .fetchP →
        exec .keygen s = .next { s with
          hidden := { s.hidden with p := v, req := .prime s.hidden.iq, kstep := .fetchQ }
          world := { s.world with answer := none } })
      ∧ (s.hidden.kstep = .fetchQ →
        exec .keygen s = .next { s with
          status := { s.status with phase := .exec }
          hidden := { s.hidden with q := v, req := .none, kstep := .derive }
          world := { s.world with answer := none } }))
    ∧ (s.world.answer = some .notFound → s.hidden.kstep = .fetchP ∨ s.hidden.kstep = .fetchQ →
      exec .keygen s = .next { s with
        status := { s.status with busy := false, done := true, err := .primeNotFound, phase := .idle }
        hidden := { s.hidden with kstep := .idle, req := .none }
        world := { s.world with answer := none } })

/-- 43_keygen.md R107, R109, R110: `K_DERIVE` on every pair of answers, `phi` being `(p - 1) * (q - 1)`: the
whole next state. -/
def Obligations.KeygenDerivesModulusAndTotient : Prop :=
  ∀ (s : State) (p q : Nat), s.hidden.kstep = .derive → s.hidden.p.toNat = p → s.hidden.q.toNat = q →
    (2 ^ 64 ≤ p * q →
      exec .keygen s = .next { s with
        status := { s.status with lastFail := .overflow }
        hidden := { s.hidden with kstep := .start } })
    ∧ (p * q < 2 ^ 64 → p < 2 ∨ q < 2 ∨ (p = 2 ∧ q = 2) →
      exec .keygen s = .next { s with
        status := { s.status with lastFail := .phiRange }
        hidden := { s.hidden with kstep := .start } })
    ∧ (p * q < 2 ^ 64 → 2 ≤ p → 2 ≤ q → ¬ (p = 2 ∧ q = 2) →
      6 ≤ p * q ∧ 2 ≤ (p - 1) * (q - 1) ∧ (p - 1) * (q - 1) < p * q
      ∧ exec .keygen s = .next { s with
          status := { s.status with phase := .waitRand }
          hidden := { s.hidden with
            tn := BitVec.ofNat 64 (p * q)
            tphi := BitVec.ofNat 64 ((p - 1) * (q - 1))
            req := .rand (BitVec.ofNat 64 ((p - 1) * (q - 1) - 1))
            kstep := .drawE } })

/-- 43_keygen.md R111: `K_DRAWE`: a draw out of range, one not coprime, and one accepted: the whole next
state. -/
def Obligations.KeygenDrawsTheExponent : Prop :=
  ∀ (s : State) (r : Word), s.hidden.kstep = .drawE → s.world.answer = some (.rand r) →
    (s.hidden.tphi.toNat - 1 ≤ r.toNat →
      exec .keygen s = .next { s with
        status := { s.status with busy := false, done := true, err := .randRange, phase := .idle }
        hidden := { s.hidden with kstep := .idle, req := .none }
        world := { s.world with answer := none } })
    ∧ (r.toNat < s.hidden.tphi.toNat - 1 → Nat.gcd (1 + r.toNat) s.hidden.tphi.toNat ≠ 1 →
      exec .keygen s = .next { s with
        hidden := { s.hidden with req := .rand (BitVec.ofNat 64 (s.hidden.tphi.toNat - 1)) }
        world := { s.world with answer := none } })
    ∧ (r.toNat < s.hidden.tphi.toNat - 1 → Nat.gcd (1 + r.toNat) s.hidden.tphi.toNat = 1 →
      exec .keygen s = .next { s with
        status := { s.status with phase := .exec }
        hidden := { s.hidden with
          te := BitVec.ofNat 64 (1 + r.toNat), req := .none, kstep := .finish }
        world := { s.world with answer := none } })

/-- 43_keygen.md R112, R114, R115, R116: `K_FINISH` in every state of the invariant: the private exponent, and
either the key registers written together or a failed attempt: the whole next state. -/
def Obligations.KeygenFinishValidatesTheKey : Prop :=
  ∀ (s : State) (n phi e : Nat), s.Inv → s.hidden.kstep = .finish →
    s.hidden.tn.toNat = n → s.hidden.tphi.toNat = phi → s.hidden.te.toNat = e →
    ∃ d : Word, 1 ≤ d.toNat ∧ d.toNat < phi ∧ e * d.toNat % phi = 1
      ∧ ((5 ^ e % n) ^ d.toNat % n = 5 →
        exec .keygen s = .next { s with
          keys := { n := s.hidden.tn, e := s.hidden.te, d := d, phi := s.hidden.tphi }
          status := { s.status with busy := false, done := true, err := .none, phase := .idle }
          hidden := { s.hidden with kstep := .idle, req := .none } })
      ∧ ((5 ^ e % n) ^ d.toNat % n ≠ 5 →
        exec .keygen s = .next { s with
          status := { s.status with lastFail := .roundtrip }
          hidden := { s.hidden with kstep := .start } })

/-- 43_keygen.md R113: no step from a state of the invariant writes `ED_CHECK`. -/
def Obligations.EdCheckIsNeverWritten : Prop :=
  ∀ s t : State, s.Inv → s.status.lastFail ≠ .edCheck → step s = .next t →
    t.status.lastFail ≠ .edCheck

/-- 43_keygen.md R120: what holds of the key registers in the state in which a KEYGEN ends with no error, and,
with distinct primes, the round trip of every message below `N`. -/
def Obligations.ValidKeyMaterial : Prop :=
  ∀ (s t : State) (p q : Nat), s.Inv → s.hidden.kstep = .finish → step s = .next t →
    t.status.done = true → t.status.err = .none →
    t.hidden.p.toNat = p → t.hidden.q.toNat = q →
    t.keys.n.toNat = p * q ∧ 6 ≤ t.keys.n.toNat
    ∧ t.keys.phi.toNat = (p - 1) * (q - 1)
    ∧ (t.keys.phi.toNat : Int) = (t.keys.n.toNat : Int) - p - q + 1
    ∧ 2 ≤ t.keys.phi.toNat ∧ t.keys.phi.toNat < t.keys.n.toNat
    ∧ 1 ≤ t.keys.e.toNat ∧ t.keys.e.toNat < t.keys.phi.toNat
    ∧ Nat.gcd t.keys.e.toNat t.keys.phi.toNat = 1
    ∧ 1 ≤ t.keys.d.toNat ∧ t.keys.d.toNat < t.keys.phi.toNat
    ∧ t.keys.e.toNat * t.keys.d.toNat % t.keys.phi.toNat = 1
    ∧ modPow (modPow 5 t.keys.e.toNat t.keys.n.toNat) t.keys.d.toNat t.keys.n.toNat = 5
    ∧ (p.Prime → q.Prime → p ≠ q → ∀ m < t.keys.n.toNat,
        modPow (modPow m t.keys.e.toNat t.keys.n.toNat) t.keys.d.toNat t.keys.n.toNat = m)

/-- 42_modpow.md R97 (3), 43_keygen.md R120: for distinct primes and exponents inverse modulo the totient, the
round trip of `mod_pow` closes on every message below the modulus. -/
def Obligations.RoundTripClosesForDistinctPrimes : Prop :=
  ∀ p q e d m : Nat, p.Prime → q.Prime → p ≠ q → e * d % ((p - 1) * (q - 1)) = 1 → m < p * q →
    modPow (modPow m e (p * q)) d (p * q) = m

/-- 43_keygen.md R114, R120: with distinct primes the self-validation passes: from every state of the invariant
at `K_FINISH` the command completes Valid. -/
def Obligations.DistinctPrimesAlwaysGiveAValidKey : Prop :=
  ∀ s : State, s.Inv → s.hidden.kstep = .finish → s.hidden.p.toNat.Prime → s.hidden.q.toNat.Prime →
    s.hidden.p ≠ s.hidden.q →
    ∃ d : Word, exec .keygen s = .next { s with
      keys := { n := s.hidden.tn, e := s.hidden.te, d := d, phi := s.hidden.tphi }
      status := { s.status with busy := false, done := true, err := .none, phase := .idle }
      hidden := { s.hidden with kstep := .idle, req := .none } }

/-- The frame of KEYGEN (10_state.md R30, 43_keygen.md R100): `CMD`, the operands, the results, the
configuration, `XNEG` and `YNEG`, the steps to come and the replies; `ATTEMPTS` but for acceptance and `K_START`;
`LASTFAIL` but for acceptance and a failed attempt; the key registers but for acceptance and a Valid end. -/
def Obligations.KeygenFrame : Prop :=
  ∀ s t : State, exec .keygen s = .next t →
    t.cmd = s.cmd ∧ t.operands = s.operands ∧ t.results = s.results ∧ t.conf = s.conf
    ∧ t.status.xneg = s.status.xneg ∧ t.status.yneg = s.status.yneg
    ∧ t.world.script = s.world.script ∧ t.world.replies = s.world.replies
    ∧ (s.hidden.kstep ≠ .idle → s.hidden.kstep ≠ .start → t.attempts = s.attempts)
    ∧ (s.hidden.kstep ≠ .idle → t.status.lastFail ≠ s.status.lastFail →
        (s.hidden.kstep = .derive ∨ s.hidden.kstep = .finish) ∧ t.hidden.kstep = .start)
    ∧ (s.hidden.kstep ≠ .idle → t.keys ≠ s.keys →
        s.hidden.kstep = .finish ∧ t.hidden.kstep = .idle ∧ t.status.err = .none)

/-! ## The collaborators (20_memory.md R46 to R52, 60_exceptions.md R149) -/

/-- 20_memory.md R47: the PrimeSource's answer to each index, and its step as the delivery of that answer. -/
def Obligations.PrimeSourceFollowsItsTable : Prop :=
  (∀ (table : List Word) (mayFail available : Bool) (i : Word),
    (table.length ≤ i.toNat → primeAnswer table mayFail available i = .notFound)
    ∧ (∀ v : Word, table[i.toNat]? = some v →
      (mayFail = false ∨ available = true → primeAnswer table mayFail available i = .found v)
      ∧ (mayFail = true → available = false → primeAnswer table mayFail available i = .notFound)))
  ∧ ∀ (s : State) (i : Word) (available : Bool) (rest : List Event),
      s.hidden.req = .prime i → s.world.script = .serve available :: rest →
      step s = step { s with world := { s.world with
        script := .answer (primeAnswer Config.primeTable Config.primeMayBeUnavailable available i)
          :: rest } }

/-- 20_memory.md R52: an answer that arrives when no request of its kind is pending is dropped and changes
nothing; so is the PrimeSource's turn when no request for it is pending. -/
def Obligations.UnsolicitedAnswersAreDropped : Prop :=
  ∀ (s : State) (rest : List Event),
    (∀ r : Word, (∀ b, s.hidden.req ≠ .rand b) → s.world.script = .answer (.rand r) :: rest →
      step s = .next { s with world := { s.world with script := rest } })
    ∧ (∀ a : Answer, (∀ i, s.hidden.req ≠ .prime i) → (∀ r, a ≠ .rand r) →
      s.world.script = .answer a :: rest →
      step s = .next { s with world := { s.world with script := rest } })
    ∧ (∀ up : Bool, (∀ i, s.hidden.req ≠ .prime i) → s.world.script = .serve up :: rest →
      step s = .next { s with world := { s.world with script := rest } })

/-- 60_exceptions.md R149 (a), 70_reset_and_hazards.md R155: with no agent taking a step, an idle engine and one
whose request is not answered stay as they are for ever. -/
def Obligations.WaitingEngineStaysAsItIs : Prop :=
  ∀ (n : Nat) (s : State),
    s.hidden.kstep ∈ [.idle, .pickP, .pickQ, .fetchP, .fetchQ, .drawE] → s.world.script = [] →
    runSteps n s = .next s

/-- 60_exceptions.md R149 (b), 43_keygen.md R111: any number of draws in range and not coprime to `phi`, and an
endless sequence of them, leave KEYGEN where it is, asking again. -/
def Obligations.NonCoprimeDrawsLeaveKeygenInDrawE : Prop :=
  ∀ s : State, s.Inv → s.hidden.kstep = .drawE →
    (∀ (rs : List Word) (rest : List Event),
      (∀ r ∈ rs, r.toNat < s.hidden.tphi.toNat - 1
        ∧ Nat.gcd (1 + r.toNat) s.hidden.tphi.toNat ≠ 1) →
      s.world.script = rs.map (fun r => .answer (.rand r)) ++ rest →
      runSteps rs.length s = .next { s with world := { s.world with script := rest } })
    ∧ ∀ rs : Nat → Word,
      (∀ k, (rs k).toNat < s.hidden.tphi.toNat - 1
        ∧ Nat.gcd (1 + (rs k).toNat) s.hidden.tphi.toNat ≠ 1) →
      s.world.script = [] →
      ∀ n, runUnder (fun k => .answer (.rand (rs k))) s n = .next s

/-- 43_keygen.md R121, 60_exceptions.md R149: a KEYGEN in progress, in an endless run without reset, ends under
the fairness of the collaborators and the engine, after at most `MAXTRY` attempts; a request that is never
answered, and an endless sequence of draws in range and not coprime, leave it in progress for ever. -/
def Obligations.KeygenEndsUnderFairness : Prop :=
  ∀ (sched : Nat → Event) (run : Nat → State),
    (run 0).Inv → (run 0).status.busy = true → decode (run 0).cmd = .command .keygen →
    (∀ n, runUnder sched (run 0) n = .next (run n)) →
    (∀ n, (run n).nextEvent (sched n) ≠ .reset) →
    (Fair sched run →
      ∃ n, (∀ k, k < n → (run k).status.busy = true)
        ∧ (run n).status.busy = false ∧ (run n).status.done = true ∧ (run n).cmd = (run 0).cmd
        ∧ ∀ k, k ≤ n → (run k).attempts.toNat ≤ (run k).conf.maxtry.toNat)
    ∧ (∀ m, (run m).status.busy = true → (run m).hidden.req ≠ .none →
      (∀ k, m ≤ k → ((run k).nextEvent (sched k)).answers (run m).hidden.req = false) →
      ∀ k, m ≤ k → (run k).status.busy = true ∧ (run k).hidden = (run m).hidden)
    ∧ ∀ m, (run m).hidden.kstep = .drawE →
      (∀ k r, m ≤ k → (run k).nextEvent (sched k) = .answer (.rand r) →
        r.toNat < (run m).hidden.tphi.toNat - 1
        ∧ Nat.gcd (1 + r.toNat) (run m).hidden.tphi.toNat ≠ 1) →
      ∀ k, m ≤ k → (run k).status.busy = true ∧ (run k).hidden = (run m).hidden

/-! ## The whole machine -/

/-- The invariant holds after reset, whatever steps are to come. -/
def Obligations.ResetMeetsTheInvariant : Prop :=
  State.reset.Inv ∧ ∀ script : List Event, (State.boot script).Inv

/-- Every step of every agent keeps the invariant. -/
def Obligations.EveryStepKeepsTheInvariant : Prop :=
  ∀ s t : State, s.Inv → step s = .next t → t.Inv

/-- 10_state.md R31, clause by clause, in every state a run from reset can reach. -/
def Obligations.ReachableStatesMeetTheStatedInvariants : Prop :=
  ∀ s : State, Reachable s →
    ¬ (s.status.busy = true ∧ s.status.done = true)
    ∧ (s.status.busy = false ↔ s.hidden.kstep = .idle)
    ∧ (s.status.busy = false ↔ s.status.phase = .idle)
    ∧ (s.hidden.req ≠ .none ↔ s.hidden.kstep ∈ [.pickP, .pickQ, .fetchP, .fetchQ, .drawE])
    ∧ (s.status.err ≠ .none → s.status.done = true)
    ∧ (s.status.busy = true → s.cmd.extractLsb' 0 8 ∈ [0x1#8, 0x2#8, 0x3#8, 0x4#8] → s.results.res = 0)
    ∧ (s.status.busy = true → s.cmd.extractLsb' 0 8 = 0x2#8 →
        s.results.xlo = 0 ∧ s.results.ylo = 0 ∧ s.status.xneg = false ∧ s.status.yneg = false)
    ∧ (s.status.busy = true → s.cmd.extractLsb' 0 8 = 0x5#8 →
        s.keys.n = 0 ∧ s.keys.e = 0 ∧ s.keys.d = 0 ∧ s.keys.phi = 0
        ∧ s.attempts.toNat ≤ s.conf.maxtry.toNat)
    ∧ (∀ t : State, s.status.busy = true → s.cmd.extractLsb' 0 8 = 0x5#8 → step s = .next t →
        t.status.busy = false → t.status.done = true → t.attempts.toNat ≤ t.conf.maxtry.toNat)
    ∧ (statusWord s.status).extractLsb' 4 4 = 0
    ∧ (statusWord s.status).extractLsb' 20 44 = 0
    ∧ ((statusWord s.status).extractLsb' 8 4).toNat ≤ 8
    ∧ ((statusWord s.status).extractLsb' 12 4).toNat ≤ 4
    ∧ ((statusWord s.status).extractLsb' 16 4).toNat ≤ 3

/-- From a state of the invariant no step faults, and the only step refused is an access that the byte-addressed
mapping does not admit (20_memory.md R44). -/
def Obligations.NoStepFaultsFromTheInvariant : Prop :=
  ∀ s : State, s.Inv →
    (∀ f : Fault, step s ≠ .fault f)
    ∧ ∀ r : Refusal, step s = .refused r →
        ∃ off len : Nat, r = .inadmissibleAccess off len ∧ ¬ (len = 8 ∧ off % 8 = 0)
          ∧ ∃ rest, s.world.script = .busRead off len :: rest
              ∨ ∃ bytes, bytes.length = len ∧ s.world.script = .busWrite off bytes :: rest

/-- 10_state.md R14: the key registers change at reset, at the acceptance of a KEYGEN (to 0), and at its Valid
end, and at no other step of any agent. -/
def Obligations.KeyRegistersChangeOnlyByKeygenOrReset : Prop :=
  ∀ s t : State, s.Inv → step s = .next t → t.keys ≠ s.keys →
    (∃ rest, s.world.script = .reset :: rest)
    ∨ (s.status.busy = false ∧ t.status.busy = true ∧ decode t.cmd = .command .keygen
        ∧ t.keys = { n := 0, e := 0, d := 0, phi := 0 })
    ∨ (s.hidden.kstep = .finish ∧ t.status.busy = false ∧ t.status.done = true ∧ t.status.err = .none)

/-- 10_state.md R11, R15, R22, R23: `CMD`, the operands and the configuration change at reset and at a host's
write while no command is in progress, and at no other step of any agent. -/
def Obligations.OnlyTheHostWritesItsRegisters : Prop :=
  ∀ s t : State, step s = .next t →
    t.cmd ≠ s.cmd ∨ t.operands ≠ s.operands ∨ t.conf ≠ s.conf →
    (∃ rest, s.world.script = .reset :: rest)
    ∨ (s.status.busy = false
        ∧ ∃ rest, (∃ idx v, s.world.script = .write idx v :: rest)
            ∨ ∃ off bytes, s.world.script = .busWrite off bytes :: rest)

/-- 20_memory.md R54 and 60_exceptions.md R142, R143: a command that is over after a step other than reset is
over whole: `DONE`, the phase, `kstep` and `REQ` change together, `CMD` still names it, and after an error its
destination set reads 0. -/
def Obligations.CommandsEndInOneStep : Prop :=
  ∀ s t : State, s.Inv → step s = .next t → s.status.busy = true → t.status.busy = false →
    (∀ rest, s.world.script ≠ .reset :: rest) →
    t.status.done = true ∧ t.status.phase = .idle ∧ t.hidden.kstep = .idle ∧ t.hidden.req = .none
    ∧ t.cmd = s.cmd ∧ t.operands = s.operands ∧ t.conf = s.conf
    ∧ (t.status.err ≠ .none → decode t.cmd = .command .keygen →
        t.keys = { n := 0, e := 0, d := 0, phi := 0 })
    ∧ (t.status.err ≠ .none → decode t.cmd ≠ .command .keygen → t.results.res = 0)

/-- 60_exceptions.md R144: while `ERR` holds a code, only reset or a host's write to `CMD` changes it. -/
def Obligations.ErrorCodeStaysUntilTheNextCommand : Prop :=
  ∀ s t : State, s.Inv → s.status.err ≠ .none → step s = .next t → t.status.err ≠ s.status.err →
    (∃ rest, s.world.script = .reset :: rest)
    ∨ (s.status.busy = false
        ∧ ∃ rest, (∃ v, s.world.script = .write 0x00 v :: rest)
            ∨ ∃ off bytes, off / 8 = 0 ∧ s.world.script = .busWrite off bytes :: rest)

/-! ## Whole commands -/

/-- 30_encoding.md R66, R68: from every state of the invariant with no command in progress, an arithmetic
command whose word the host writes is over after two steps, with the result its rule gives. -/
def Obligations.ArithmeticCommandsRunToCompletion : Prop :=
  ∀ (s : State) (i : Instr) (w : Word) (rest : List Event) (a b m : Nat),
    s.Inv → s.status.busy = false → i ≠ .keygen → decode w = .command i →
    s.world.script = .write 0x00 w :: .mie :: rest →
    s.operands.a.toNat = a → s.operands.b.toNat = b → s.operands.m.toNat = m →
    ∃ t, runSteps 2 s = .next t
      ∧ t.status.busy = false ∧ t.status.done = true ∧ t.cmd = w ∧ t.operands = s.operands
      ∧ t.world.script = rest
      ∧ (i = .gcd → (a = 0 ∧ b = 0 → t.status.err = .bothZero ∧ t.results.res = 0)
          ∧ (¬ (a = 0 ∧ b = 0) → t.status.err = .none ∧ t.results.res.toNat = Nat.gcd a b))
      ∧ (i = .xgcd → t.status.err = .none ∧ t.results.res.toNat = Nat.gcd a b
          ∧ (a : Int) * coefValue t.results.xlo t.status.xneg
            + (b : Int) * coefValue t.results.ylo t.status.yneg = (t.results.res.toNat : Int))
      ∧ (i = .modinv → (m = 0 → t.status.err = .modZero ∧ t.results.res = 0)
          ∧ (m ≠ 0 → Nat.gcd a m ≠ 1 → t.status.err = .notCoprime ∧ t.results.res = 0)
          ∧ (m ≠ 0 → Nat.gcd a m = 1 → t.status.err = .none ∧ t.results.res.toNat < m
              ∧ a * t.results.res.toNat % m = 1 % m))
      ∧ (i = .modpow → (m = 0 → t.status.err = .modZero ∧ t.results.res = 0)
          ∧ (m ≠ 0 → t.status.err = .none ∧ t.results.res.toNat = a ^ b % m))

/-- 30_encoding.md R69, R70: the host's program `ENCRYPT_UNIT m, e, n` with a non-zero modulus, run from any
state of the invariant with no command in progress, leaves `m^e mod n` in `RES`, when the engine's turn is the
step that comes next or when nothing but the program is to come. The seven steps rest on log entry 1, which
fixes how often `WAIT` reads. -/
def Obligations.EncryptUnitProgramEncrypts : Prop :=
  ∀ (s : State) (m e n : Word) (after rest : List Event), s.Inv → s.status.busy = false → n ≠ 0 →
    s.world.script = Script.encryptUnit m e n ++ after →
    after = .mie :: rest ∨ (after = rest ∧ ∀ ev ∈ rest, ev.ofProgram = true) →
    ∃ t, runSteps 7 s = .next t ∧ t.world.script = rest
      ∧ t.status.busy = false ∧ t.status.done = true ∧ t.status.err = .none
      ∧ t.results.res.toNat = m.toNat ^ e.toNat % n.toNat
      ∧ t.keys = s.keys ∧ t.conf = s.conf ∧ t.attempts = s.attempts

/-- 43_keygen.md R100 to R118: a KEYGEN whose first attempt draws indices in range, is given `p` and `q` whose
product fits and whose totient is at least 2, draws a coprime exponent and closes the round trip, is over after
ten steps with the key of `p`, `q` and `e`. So is the host's program `KEYGEN` of 30_encoding.md R70, its `WAIT`
included, whose twenty steps rest on log entry 1. -/
def Obligations.KeygenRunsToAValidKey : Prop :=
  ∀ (s : State) (r1 r2 r3 p q : Word) (others rest : List Event) (count n phi e : Nat),
    s.Inv → s.status.busy = false →
    1 ≤ s.conf.pspan.toNat → 1 ≤ s.conf.qspan.toNat →
    s.conf.pbase.toNat + s.conf.pspan.toNat ≤ 2 ^ 64 →
    s.conf.qbase.toNat + s.conf.qspan.toNat ≤ 2 ^ 64 → 1 ≤ s.conf.maxtry.toNat →
    r1.toNat < s.conf.pspan.toNat → r2.toNat < s.conf.qspan.toNat →
    n = p.toNat * q.toNat → n < 2 ^ 64 → phi = (p.toNat - 1) * (q.toNat - 1) → 2 ≤ phi →
    e = 1 + r3.toNat → e < phi → Nat.gcd e phi = 1 →
    (∀ d : Nat, d < phi → e * d % phi = 1 → (5 ^ e % n) ^ d % n = 5) →
    others = [.mie, .mie, .answer (.rand r1), .answer (.rand r2), .answer (.found p), .answer (.found q), .mie,
      .answer (.rand r3), .mie] →
    (s.world.script = .write 0x00 0x5 :: others ++ rest ∧ count = 10)
      ∨ (s.world.script = Script.keygen ++ others ++ rest ∧ count = 20) →
    ∃ t, runSteps count s = .next t
      ∧ t.status.busy = false ∧ t.status.done = true ∧ t.status.err = .none
      ∧ t.status.lastFail = .none ∧ t.attempts = 1
      ∧ t.keys.n.toNat = n ∧ t.keys.phi.toNat = phi ∧ t.keys.e.toNat = e
      ∧ t.keys.d.toNat < phi ∧ e * t.keys.d.toNat % phi = 1
      ∧ t.results = s.results ∧ t.operands = s.operands ∧ t.conf = s.conf
      ∧ t.world.script = rest
end

