-- ==== Sys2Proof/Laws/Arith.lean ====
section
/-! SUPPORT. The loops of Machine/Arith.lean: the bound on the passes is always enough, and what each loop
computes. -/

namespace Sys2Proof.Machine

/-- With a bound of at least `b` the loop ends by itself, at the greatest common divisor (40_gcd.md
R75). -/
theorem gcdLoop_eq_natGcd (k a b : Nat) (h : b ≤ k) : gcdLoop k a b = Nat.gcd a b := by
  induction k generalizing a b with
  | zero => obtain rfl : b = 0 := by omega
            simp [gcdLoop]
  | succ k ih =>
    rw [gcdLoop]
    split
    · next hb => simp [hb]
    · next hb =>
      have hlt := Nat.mod_lt a (Nat.pos_of_ne_zero hb)
      rw [ih b (a % b) (by omega), Nat.gcd_comm a b, Nat.gcd_rec b a, Nat.gcd_comm]

@[simp] theorem gcd_eq_natGcd (a b : Nat) : gcd a b = Nat.gcd a b :=
  gcdLoop_eq_natGcd b a b (Nat.le_refl b)

/-- Any two bounds of at least `a` give the same triple (41_xgcd_modinv.md R81). -/
theorem extendedGcdLoop_fuel (k l a b : Nat) (hk : a ≤ k) (hl : a ≤ l) :
    extendedGcdLoop k a b = extendedGcdLoop l a b := by
  induction k generalizing l a b with
  | zero =>
    obtain rfl : a = 0 := by omega
    cases l <;> simp [extendedGcdLoop]
  | succ k ih =>
    cases l with
    | zero =>
      obtain rfl : a = 0 := by omega
      simp [extendedGcdLoop]
    | succ l =>
      rw [extendedGcdLoop, extendedGcdLoop]
      split
      · rfl
      · next ha =>
        have hlt := Nat.mod_lt b (Nat.pos_of_ne_zero ha)
        rw [ih l (b % a) a (by omega) (by omega)]

/-- The first component is the greatest common divisor (41_xgcd_modinv.md R81). -/
theorem extendedGcdLoop_fst (k a b : Nat) (h : a ≤ k) : (extendedGcdLoop k a b).1 = Nat.gcd a b := by
  induction k generalizing a b with
  | zero => obtain rfl : a = 0 := by omega
            simp [extendedGcdLoop]
  | succ k ih =>
    rw [extendedGcdLoop]
    split
    · next ha => simp [ha]
    · next ha =>
      have hlt := Nat.mod_lt b (Nat.pos_of_ne_zero ha)
      simp only [ih (b % a) a (by omega)]
      exact (Nat.gcd_rec a b).symm

@[simp] theorem extendedGcd_fst (a b : Nat) : (extendedGcd a b).1 = Nat.gcd a b :=
  extendedGcdLoop_fst a a b (Nat.le_refl a)

/-- The loop of square-and-multiply keeps `x * y^k` modulo `m` (42_modpow.md R90). -/
theorem modPowLoop_eq (fuel x y k m : Nat) (h : k ≤ fuel) : modPowLoop fuel x y k m = (x * y ^ k) % m := by
  induction fuel generalizing x y k with
  | zero => obtain rfl : k = 0 := by omega
            simp [modPowLoop]
  | succ fuel ih =>
    rw [modPowLoop]
    split
    · next hk => simp [hk]
    · next hk =>
      have hhalf : k / 2 ≤ fuel := by omega
      rw [ih _ _ _ hhalf]
      have hy : ∀ c : Nat, (c * (y * y % m) ^ (k / 2)) % m = (c * y ^ (2 * (k / 2))) % m := by
        intro c
        rw [pow_mul, pow_two, Nat.mul_mod, ← Nat.pow_mod, ← Nat.mul_mod]
      split
      · next hodd =>
        rw [hy, Nat.mul_mod, Nat.mod_mod, ← Nat.mul_mod]
        congr 1
        have hk2 : k = 2 * (k / 2) + 1 := by omega
        conv_rhs => rw [hk2, pow_succ]
        ring
      · next heven =>
        rw [hy]
        have hk2 : k = 2 * (k / 2) := by omega
        rw [← hk2]

@[simp] theorem modPow_eq_pow_mod (base exponent modulus : Nat) :
    modPow base exponent modulus = base ^ exponent % modulus := by
  simp [modPow, modPowLoop_eq]

end Sys2Proof.Machine
end

