-- ==== Sys2Proof/Laws/Decode.lean ====
section
/-! SUPPORT. The bytes of a number, and decoding of laid-out words. -/

namespace Sys2Proof

@[simp] theorem leBytes_length (n v : Nat) : (leBytes n v).length = n := by
  induction n generalizing v with
  | zero => rfl
  | succ n ih => simp [leBytes, ih]

/-- Reading back the bytes of a number gives its low `8 * n` bits. -/
theorem leNat_leBytes (n v : Nat) : leNat (leBytes n v) = v % 256 ^ n := by
  induction n generalizing v with
  | zero => simp [leBytes, leNat, Nat.mod_one]
  | succ n ih =>
    simp only [leBytes, leNat, ih, BitVec.toNat_ofNat]
    rw [pow_succ 256 n, Nat.mul_comm (256 ^ n) 256, Nat.mod_mul]

/-- The bytes of a number read back as its low 64 bits. -/
theorem wordOfBytes_leBytes (v : Nat) : wordOfBytes (leBytes 8 v) = BitVec.ofNat 64 v := by
  apply BitVec.eq_of_toNat_eq
  simp [wordOfBytes, leNat_leBytes]

/-- Decoding eight laid-out bytes is decoding the word. -/
theorem decodeBytes_leBytes (v : Nat) : decodeBytes (leBytes 8 v) = decode (BitVec.ofNat 64 v) := by
  simp [decodeBytes, wordOfBytes_leBytes]

/-- The fields of a word put together give the word. -/
theorem toWord_ofWord (w : Word) : (CommandWord.ofWord w).toWord = w := by
  ext i hi
  simp only [CommandWord.toWord, CommandWord.ofWord]
  rw [← BitVec.getLsbD_eq_getElem, ← BitVec.getLsbD_eq_getElem, BitVec.getLsbD_append]
  split
  · simp; omega
  · next h => simp [show 8 + (i - 8) = i by omega]; omega

end Sys2Proof
end

