-- ==== Sys2Proof/Laws/State.lean ====
section
/-! SUPPORT. What each named update leaves in each field, so that no later proof unfolds a record update. -/

namespace Sys2Proof.Machine

/-- Completion and error entry are one step with different codes (30_encoding.md R68, 60_exceptions.md
R142). -/
@[simp] theorem complete_eq_endCommand (s : State) : complete s = endCommand .none s := rfl

@[simp] theorem raise_eq_endCommand (code : ErrCode) (s : State) : raise code s = endCommand code s := rfl

/-! ### `RES <- v` -/

@[simp] theorem putRes_cmd (v : Nat) (s : State) : (s.putRes v).cmd = s.cmd := rfl
@[simp] theorem putRes_status (v : Nat) (s : State) : (s.putRes v).status = s.status := rfl
@[simp] theorem putRes_operands (v : Nat) (s : State) : (s.putRes v).operands = s.operands := rfl
@[simp] theorem putRes_res (v : Nat) (s : State) : (s.putRes v).results.res = BitVec.ofNat 64 v := rfl
@[simp] theorem putRes_xlo (v : Nat) (s : State) : (s.putRes v).results.xlo = s.results.xlo := rfl
@[simp] theorem putRes_ylo (v : Nat) (s : State) : (s.putRes v).results.ylo = s.results.ylo := rfl
@[simp] theorem putRes_keys (v : Nat) (s : State) : (s.putRes v).keys = s.keys := rfl
@[simp] theorem putRes_attempts (v : Nat) (s : State) : (s.putRes v).attempts = s.attempts := rfl
@[simp] theorem putRes_conf (v : Nat) (s : State) : (s.putRes v).conf = s.conf := rfl
@[simp] theorem putRes_hidden (v : Nat) (s : State) : (s.putRes v).hidden = s.hidden := rfl
@[simp] theorem putRes_world (v : Nat) (s : State) : (s.putRes v).world = s.world := rfl

/-! ### The coefficients -/

@[simp] theorem putCoefficients_cmd (x y : Int) (s : State) : (s.putCoefficients x y).cmd = s.cmd := rfl
@[simp] theorem putCoefficients_busy (x y : Int) (s : State) : (s.putCoefficients x y).status.busy = s.status.busy := rfl
@[simp] theorem putCoefficients_done (x y : Int) (s : State) : (s.putCoefficients x y).status.done = s.status.done := rfl
@[simp] theorem putCoefficients_xneg (x y : Int) (s : State) : (s.putCoefficients x y).status.xneg = coefNeg x := rfl
@[simp] theorem putCoefficients_yneg (x y : Int) (s : State) : (s.putCoefficients x y).status.yneg = coefNeg y := rfl
@[simp] theorem putCoefficients_err (x y : Int) (s : State) : (s.putCoefficients x y).status.err = s.status.err := rfl
@[simp] theorem putCoefficients_lastFail (x y : Int) (s : State) : (s.putCoefficients x y).status.lastFail = s.status.lastFail := rfl
@[simp] theorem putCoefficients_phase (x y : Int) (s : State) : (s.putCoefficients x y).status.phase = s.status.phase := rfl
@[simp] theorem putCoefficients_operands (x y : Int) (s : State) : (s.putCoefficients x y).operands = s.operands := rfl
@[simp] theorem putCoefficients_res (x y : Int) (s : State) : (s.putCoefficients x y).results.res = s.results.res := rfl
@[simp] theorem putCoefficients_xlo (x y : Int) (s : State) : (s.putCoefficients x y).results.xlo = coefLow x := rfl
@[simp] theorem putCoefficients_ylo (x y : Int) (s : State) : (s.putCoefficients x y).results.ylo = coefLow y := rfl
@[simp] theorem putCoefficients_keys (x y : Int) (s : State) : (s.putCoefficients x y).keys = s.keys := rfl
@[simp] theorem putCoefficients_attempts (x y : Int) (s : State) : (s.putCoefficients x y).attempts = s.attempts := rfl
@[simp] theorem putCoefficients_conf (x y : Int) (s : State) : (s.putCoefficients x y).conf = s.conf := rfl
@[simp] theorem putCoefficients_hidden (x y : Int) (s : State) : (s.putCoefficients x y).hidden = s.hidden := rfl
@[simp] theorem putCoefficients_world (x y : Int) (s : State) : (s.putCoefficients x y).world = s.world := rfl

/-! ### The key registers -/

@[simp] theorem putKeys_cmd (n e d phi : Nat) (s : State) : (s.putKeys n e d phi).cmd = s.cmd := rfl
@[simp] theorem putKeys_status (n e d phi : Nat) (s : State) : (s.putKeys n e d phi).status = s.status := rfl
@[simp] theorem putKeys_operands (n e d phi : Nat) (s : State) : (s.putKeys n e d phi).operands = s.operands := rfl
@[simp] theorem putKeys_results (n e d phi : Nat) (s : State) : (s.putKeys n e d phi).results = s.results := rfl
@[simp] theorem putKeys_n (n e d phi : Nat) (s : State) : (s.putKeys n e d phi).keys.n = BitVec.ofNat 64 n := rfl
@[simp] theorem putKeys_e (n e d phi : Nat) (s : State) : (s.putKeys n e d phi).keys.e = BitVec.ofNat 64 e := rfl
@[simp] theorem putKeys_d (n e d phi : Nat) (s : State) : (s.putKeys n e d phi).keys.d = BitVec.ofNat 64 d := rfl
@[simp] theorem putKeys_phi (n e d phi : Nat) (s : State) : (s.putKeys n e d phi).keys.phi = BitVec.ofNat 64 phi := rfl
@[simp] theorem putKeys_attempts (n e d phi : Nat) (s : State) : (s.putKeys n e d phi).attempts = s.attempts := rfl
@[simp] theorem putKeys_conf (n e d phi : Nat) (s : State) : (s.putKeys n e d phi).conf = s.conf := rfl
@[simp] theorem putKeys_hidden (n e d phi : Nat) (s : State) : (s.putKeys n e d phi).hidden = s.hidden := rfl
@[simp] theorem putKeys_world (n e d phi : Nat) (s : State) : (s.putKeys n e d phi).world = s.world := rfl

/-! ### An illegal word -/

@[simp] theorem illegalCommand_cmd (s : State) : (illegalCommand s).cmd = s.cmd := rfl
@[simp] theorem illegalCommand_busy (s : State) : (illegalCommand s).status.busy = s.status.busy := rfl
@[simp] theorem illegalCommand_done (s : State) : (illegalCommand s).status.done = true := rfl
@[simp] theorem illegalCommand_xneg (s : State) : (illegalCommand s).status.xneg = s.status.xneg := rfl
@[simp] theorem illegalCommand_yneg (s : State) : (illegalCommand s).status.yneg = s.status.yneg := rfl
@[simp] theorem illegalCommand_err (s : State) : (illegalCommand s).status.err = .illegalCmd := rfl
@[simp] theorem illegalCommand_lastFail (s : State) : (illegalCommand s).status.lastFail = s.status.lastFail := rfl
@[simp] theorem illegalCommand_phase (s : State) : (illegalCommand s).status.phase = s.status.phase := rfl
@[simp] theorem illegalCommand_operands (s : State) : (illegalCommand s).operands = s.operands := rfl
@[simp] theorem illegalCommand_results (s : State) : (illegalCommand s).results = s.results := rfl
@[simp] theorem illegalCommand_keys (s : State) : (illegalCommand s).keys = s.keys := rfl
@[simp] theorem illegalCommand_attempts (s : State) : (illegalCommand s).attempts = s.attempts := rfl
@[simp] theorem illegalCommand_conf (s : State) : (illegalCommand s).conf = s.conf := rfl
@[simp] theorem illegalCommand_hidden (s : State) : (illegalCommand s).hidden = s.hidden := rfl
@[simp] theorem illegalCommand_world (s : State) : (illegalCommand s).world = s.world := rfl

/-! ### The end of a command -/

@[simp] theorem endCommand_cmd (code : ErrCode) (s : State) : (endCommand code s).cmd = s.cmd := rfl
@[simp] theorem endCommand_busy (code : ErrCode) (s : State) : (endCommand code s).status.busy = false := rfl
@[simp] theorem endCommand_done (code : ErrCode) (s : State) : (endCommand code s).status.done = true := rfl
@[simp] theorem endCommand_xneg (code : ErrCode) (s : State) : (endCommand code s).status.xneg = s.status.xneg := rfl
@[simp] theorem endCommand_yneg (code : ErrCode) (s : State) : (endCommand code s).status.yneg = s.status.yneg := rfl
@[simp] theorem endCommand_err (code : ErrCode) (s : State) : (endCommand code s).status.err = code := rfl
@[simp] theorem endCommand_lastFail (code : ErrCode) (s : State) : (endCommand code s).status.lastFail = s.status.lastFail := rfl
@[simp] theorem endCommand_phase (code : ErrCode) (s : State) : (endCommand code s).status.phase = .idle := rfl
@[simp] theorem endCommand_operands (code : ErrCode) (s : State) : (endCommand code s).operands = s.operands := rfl
@[simp] theorem endCommand_results (code : ErrCode) (s : State) : (endCommand code s).results = s.results := rfl
@[simp] theorem endCommand_keys (code : ErrCode) (s : State) : (endCommand code s).keys = s.keys := rfl
@[simp] theorem endCommand_attempts (code : ErrCode) (s : State) : (endCommand code s).attempts = s.attempts := rfl
@[simp] theorem endCommand_conf (code : ErrCode) (s : State) : (endCommand code s).conf = s.conf := rfl
@[simp] theorem endCommand_kstep (code : ErrCode) (s : State) : (endCommand code s).hidden.kstep = .idle := rfl
@[simp] theorem endCommand_req (code : ErrCode) (s : State) : (endCommand code s).hidden.req = .none := rfl
@[simp] theorem endCommand_ip (code : ErrCode) (s : State) : (endCommand code s).hidden.ip = s.hidden.ip := rfl
@[simp] theorem endCommand_iq (code : ErrCode) (s : State) : (endCommand code s).hidden.iq = s.hidden.iq := rfl
@[simp] theorem endCommand_p (code : ErrCode) (s : State) : (endCommand code s).hidden.p = s.hidden.p := rfl
@[simp] theorem endCommand_q (code : ErrCode) (s : State) : (endCommand code s).hidden.q = s.hidden.q := rfl
@[simp] theorem endCommand_tn (code : ErrCode) (s : State) : (endCommand code s).hidden.tn = s.hidden.tn := rfl
@[simp] theorem endCommand_tphi (code : ErrCode) (s : State) : (endCommand code s).hidden.tphi = s.hidden.tphi := rfl
@[simp] theorem endCommand_te (code : ErrCode) (s : State) : (endCommand code s).hidden.te = s.hidden.te := rfl
@[simp] theorem endCommand_world (code : ErrCode) (s : State) : (endCommand code s).world = s.world := rfl

/-! ### A failed attempt -/

@[simp] theorem failAttempt_cmd (cause : FailCause) (s : State) : (failAttempt cause s).cmd = s.cmd := rfl
@[simp] theorem failAttempt_busy (cause : FailCause) (s : State) : (failAttempt cause s).status.busy = s.status.busy := rfl
@[simp] theorem failAttempt_done (cause : FailCause) (s : State) : (failAttempt cause s).status.done = s.status.done := rfl
@[simp] theorem failAttempt_xneg (cause : FailCause) (s : State) : (failAttempt cause s).status.xneg = s.status.xneg := rfl
@[simp] theorem failAttempt_yneg (cause : FailCause) (s : State) : (failAttempt cause s).status.yneg = s.status.yneg := rfl
@[simp] theorem failAttempt_err (cause : FailCause) (s : State) : (failAttempt cause s).status.err = s.status.err := rfl
@[simp] theorem failAttempt_lastFail (cause : FailCause) (s : State) : (failAttempt cause s).status.lastFail = cause := rfl
@[simp] theorem failAttempt_phase (cause : FailCause) (s : State) : (failAttempt cause s).status.phase = s.status.phase := rfl
@[simp] theorem failAttempt_operands (cause : FailCause) (s : State) : (failAttempt cause s).operands = s.operands := rfl
@[simp] theorem failAttempt_results (cause : FailCause) (s : State) : (failAttempt cause s).results = s.results := rfl
@[simp] theorem failAttempt_keys (cause : FailCause) (s : State) : (failAttempt cause s).keys = s.keys := rfl
@[simp] theorem failAttempt_attempts (cause : FailCause) (s : State) : (failAttempt cause s).attempts = s.attempts := rfl
@[simp] theorem failAttempt_conf (cause : FailCause) (s : State) : (failAttempt cause s).conf = s.conf := rfl
@[simp] theorem failAttempt_kstep (cause : FailCause) (s : State) : (failAttempt cause s).hidden.kstep = .start := rfl
@[simp] theorem failAttempt_req (cause : FailCause) (s : State) : (failAttempt cause s).hidden.req = s.hidden.req := rfl
@[simp] theorem failAttempt_ip (cause : FailCause) (s : State) : (failAttempt cause s).hidden.ip = s.hidden.ip := rfl
@[simp] theorem failAttempt_iq (cause : FailCause) (s : State) : (failAttempt cause s).hidden.iq = s.hidden.iq := rfl
@[simp] theorem failAttempt_p (cause : FailCause) (s : State) : (failAttempt cause s).hidden.p = s.hidden.p := rfl
@[simp] theorem failAttempt_q (cause : FailCause) (s : State) : (failAttempt cause s).hidden.q = s.hidden.q := rfl
@[simp] theorem failAttempt_tn (cause : FailCause) (s : State) : (failAttempt cause s).hidden.tn = s.hidden.tn := rfl
@[simp] theorem failAttempt_tphi (cause : FailCause) (s : State) : (failAttempt cause s).hidden.tphi = s.hidden.tphi := rfl
@[simp] theorem failAttempt_te (cause : FailCause) (s : State) : (failAttempt cause s).hidden.te = s.hidden.te := rfl
@[simp] theorem failAttempt_world (cause : FailCause) (s : State) : (failAttempt cause s).world = s.world := rfl

/-! ### Taking an answer -/

@[simp] theorem takeAnswer_cmd (s : State) : (s.takeAnswer).cmd = s.cmd := rfl
@[simp] theorem takeAnswer_status (s : State) : (s.takeAnswer).status = s.status := rfl
@[simp] theorem takeAnswer_operands (s : State) : (s.takeAnswer).operands = s.operands := rfl
@[simp] theorem takeAnswer_results (s : State) : (s.takeAnswer).results = s.results := rfl
@[simp] theorem takeAnswer_keys (s : State) : (s.takeAnswer).keys = s.keys := rfl
@[simp] theorem takeAnswer_attempts (s : State) : (s.takeAnswer).attempts = s.attempts := rfl
@[simp] theorem takeAnswer_conf (s : State) : (s.takeAnswer).conf = s.conf := rfl
@[simp] theorem takeAnswer_hidden (s : State) : (s.takeAnswer).hidden = s.hidden := rfl
@[simp] theorem takeAnswer_script (s : State) : (s.takeAnswer).world.script = s.world.script := rfl
@[simp] theorem takeAnswer_answer (s : State) : (s.takeAnswer).world.answer = none := rfl
@[simp] theorem takeAnswer_replies (s : State) : (s.takeAnswer).world.replies = s.world.replies := rfl

/-! ### A reply to the host -/

@[simp] theorem reply_cmd (r : Reply) (s : State) : (reply r s).cmd = s.cmd := rfl
@[simp] theorem reply_status (r : Reply) (s : State) : (reply r s).status = s.status := rfl
@[simp] theorem reply_operands (r : Reply) (s : State) : (reply r s).operands = s.operands := rfl
@[simp] theorem reply_results (r : Reply) (s : State) : (reply r s).results = s.results := rfl
@[simp] theorem reply_keys (r : Reply) (s : State) : (reply r s).keys = s.keys := rfl
@[simp] theorem reply_attempts (r : Reply) (s : State) : (reply r s).attempts = s.attempts := rfl
@[simp] theorem reply_conf (r : Reply) (s : State) : (reply r s).conf = s.conf := rfl
@[simp] theorem reply_hidden (r : Reply) (s : State) : (reply r s).hidden = s.hidden := rfl
@[simp] theorem reply_script (r : Reply) (s : State) : (reply r s).world.script = s.world.script := rfl
@[simp] theorem reply_answer (r : Reply) (s : State) : (reply r s).world.answer = s.world.answer := rfl
@[simp] theorem reply_replies (r : Reply) (s : State) : (reply r s).world.replies = r :: s.world.replies := rfl

/-! ### Acceptance of a command (30_encoding.md R66) -/

@[simp] theorem accept_cmd (i : Instr) (s : State) : (accept i s).cmd = s.cmd := by cases i <;> rfl
@[simp] theorem accept_operands (i : Instr) (s : State) : (accept i s).operands = s.operands := by
  cases i <;> rfl
@[simp] theorem accept_conf (i : Instr) (s : State) : (accept i s).conf = s.conf := by cases i <;> rfl
@[simp] theorem accept_world (i : Instr) (s : State) : (accept i s).world = s.world := by cases i <;> rfl
@[simp] theorem accept_hidden (i : Instr) (s : State) :
    (accept i s).hidden = { s.hidden with kstep := firstStep i } := by cases i <;> rfl
@[simp] theorem accept_busy (i : Instr) (s : State) : (accept i s).status.busy = true := rfl
@[simp] theorem accept_done (i : Instr) (s : State) : (accept i s).status.done = false := rfl
@[simp] theorem accept_err (i : Instr) (s : State) : (accept i s).status.err = .none := rfl
@[simp] theorem accept_phase (i : Instr) (s : State) : (accept i s).status.phase = .exec := rfl

/-- The destination set of each command, cleared, and nothing else of the results, keys, counters and
flags (10_state.md R30). -/
theorem accept_destination (i : Instr) (s : State) :
    (accept i s).results
        = (match i with
          | .gcd | .modinv | .modpow => { s.results with res := 0 }
          | .xgcd => { res := 0, xlo := 0, ylo := 0 }
          | .keygen => s.results)
      ∧ (accept i s).status.xneg = (if i = .xgcd then false else s.status.xneg)
      ∧ (accept i s).status.yneg = (if i = .xgcd then false else s.status.yneg)
      ∧ (accept i s).keys = (if i = .keygen then { n := 0, e := 0, d := 0, phi := 0 } else s.keys)
      ∧ (accept i s).attempts = (if i = .keygen then 0 else s.attempts)
      ∧ (accept i s).status.lastFail = (if i = .keygen then .none else s.status.lastFail) := by
  cases i <;> exact ⟨rfl, rfl, rfl, rfl, rfl, rfl⟩

/-! ### A host's store -/

@[simp] theorem storeReg_status (r : Reg) (v : Word) (s : State) : (storeReg r v s).status = s.status := by
  cases r <;> rfl
@[simp] theorem storeReg_results (r : Reg) (v : Word) (s : State) :
    (storeReg r v s).results = s.results := by cases r <;> rfl
@[simp] theorem storeReg_keys (r : Reg) (v : Word) (s : State) : (storeReg r v s).keys = s.keys := by
  cases r <;> rfl
@[simp] theorem storeReg_attempts (r : Reg) (v : Word) (s : State) :
    (storeReg r v s).attempts = s.attempts := by cases r <;> rfl
@[simp] theorem storeReg_hidden (r : Reg) (v : Word) (s : State) : (storeReg r v s).hidden = s.hidden := by
  cases r <;> rfl
@[simp] theorem storeReg_world (r : Reg) (v : Word) (s : State) : (storeReg r v s).world = s.world := by
  cases r <;> rfl
@[simp] theorem storeReg_cmd_cmd (v : Word) (s : State) : (storeReg .cmd v s).cmd = v := rfl
@[simp] theorem storeReg_cmd_operands (v : Word) (s : State) :
    (storeReg .cmd v s).operands = s.operands := rfl
@[simp] theorem storeReg_cmd_conf (v : Word) (s : State) : (storeReg .cmd v s).conf = s.conf := rfl

end Sys2Proof.Machine
end

