-- ==== Sys2Proof/Laws/Ops.lean ====
section
/-! SUPPORT. What each shared operation can do, said once: the register map, the two steps of an arithmetic
command, the reactions to answers, the PrimeSource's contract. -/

namespace Sys2Proof.Machine

/-! ## The register map (10_state.md R10) -/

@[simp] theorem regAt_index (r : Reg) : regAt r.index = some r := by cases r <;> rfl

/-- The indices from 0x12 upward are unmapped (20_memory.md R41). -/
theorem regAt_unmapped (idx : Nat) (h : Config.nreg ≤ idx) : regAt idx = none := by
  have h' : 18 ≤ idx := h
  unfold regAt
  split <;> first | omega | rfl

/-- A mapped index is the index of its register. -/
theorem index_of_regAt (idx : Nat) (r : Reg) (h : regAt idx = some r) : idx = r.index := by
  unfold regAt at h
  split at h <;> simp_all [Reg.index] <;> subst h <;> rfl

theorem Reg.index_lt (r : Reg) : r.index < Config.nreg := by cases r <;> decide

@[simp] theorem memRead_index (s : State) (r : Reg) : memRead s r.index = readReg s r := by
  simp [memRead]

theorem memRead_unmapped (s : State) (idx : Nat) (h : Config.nreg ≤ idx) : memRead s idx = 0 := by
  simp [memRead, regAt_unmapped idx h]

/-- A store is read back from a host-writable register (20_memory.md R42). -/
theorem readReg_storeReg_same (r : Reg) (v : Word) (s : State) (h : r.hostWritable = true) :
    readReg (storeReg r v s) r = v := by
  cases r <;> first | rfl | exact absurd h (by decide)

/-- A store leaves every other register alone. -/
theorem readReg_storeReg_other (r r' : Reg) (v : Word) (s : State) (h : r' ≠ r) :
    readReg (storeReg r v s) r' = readReg s r' := by
  cases r <;> cases r' <;> first | rfl | exact absurd rfl h

/-! ## The two steps of an arithmetic command (30_encoding.md R66, R68) -/

theorem runArithmetic_next (i : Instr) (body : State → State) (s t : State)
    (h : runArithmetic i body s = .next t) :
    (s.hidden.kstep = .idle ∧ t = accept i s) ∨ (s.hidden.kstep = .run ∧ t = body s) := by
  unfold runArithmetic at h
  split at h <;> simp_all

theorem runArithmetic_idle (i : Instr) (body : State → State) (s : State)
    (h : s.hidden.kstep = .idle) : runArithmetic i body s = .next (accept i s) := by
  simp [runArithmetic, h]

theorem runArithmetic_run (i : Instr) (body : State → State) (s : State)
    (h : s.hidden.kstep = .run) : runArithmetic i body s = .next (body s) := by
  simp [runArithmetic, h]

/-! ## The ports (20_memory.md R52) -/

theorem onRand_rand (react : Word → State → State) (s : State) (r : Word)
    (h : s.world.answer = some (.rand r)) : onRand react s = react r s.takeAnswer := by
  simp [onRand, h]

/-- A reaction to a draw is the rule's, on the draw, or it leaves all but the port alone. -/
theorem onRand_cases (react : Word → State → State) (s : State) :
    (∃ r, s.world.answer = some (.rand r) ∧ onRand react s = react r s.takeAnswer)
    ∨ onRand react s = s.takeAnswer := by
  unfold onRand
  split <;> simp_all

theorem onPrime_found (react : Option Word → State → State) (s : State) (v : Word)
    (h : s.world.answer = some (.found v)) : onPrime react s = react (some v) s.takeAnswer := by
  simp [onPrime, h]

theorem onPrime_notFound (react : Option Word → State → State) (s : State)
    (h : s.world.answer = some .notFound) : onPrime react s = react none s.takeAnswer := by
  simp [onPrime, h]

/-- A reaction to the PrimeSource is the rule's, on its answer, or it leaves all but the port alone. -/
theorem onPrime_cases (react : Option Word → State → State) (s : State) :
    (∃ v, s.world.answer = some (.found v) ∧ onPrime react s = react (some v) s.takeAnswer)
    ∨ (s.world.answer = some .notFound ∧ onPrime react s = react none s.takeAnswer)
    ∨ onPrime react s = s.takeAnswer := by
  unfold onPrime
  split <;> simp_all

/-- A request takes an answer of its own kind only. -/
theorem takes_cases (q : Req) (a : Answer) (h : q.takes a = true) :
    (∃ b r, q = .rand b ∧ a = .rand r)
    ∨ ∃ i, q = .prime i ∧ (a = .notFound ∨ ∃ v, a = .found v) := by
  cases q <;> cases a <;> simp_all [Req.takes]

/-- The PrimeSource's answer is of the kind a prime request takes. -/
theorem primeAnswer_taken (table : List Word) (m av : Bool) (i j : Word) :
    (Req.prime j).takes (primeAnswer table m av i) = true := by
  unfold primeAnswer
  split
  · rfl
  · split <;> rfl

end Sys2Proof.Machine
end

