-- ==== Sys2Proof/Laws/Exec.lean ====
section
/-! SUPPORT. What each command's step can do, said once, and the step of the machine taken apart. -/

namespace Sys2Proof.Machine

/-! ## The arithmetic commands at `K_RUN` -/

theorem gcdBody_zero (s : State) (ha : s.opA = 0) (hb : s.opB = 0) :
    gcdBody s = endCommand .bothZero s := by simp [gcdBody, ha, hb]

theorem gcdBody_nonzero (s : State) (h : ¬ (s.opA = 0 ∧ s.opB = 0)) :
    gcdBody s = endCommand .none (s.putRes (Nat.gcd s.opA s.opB)) := by simp [gcdBody, h]

theorem xgcdBody_eq (s : State) :
    xgcdBody s
      = endCommand .none ((s.putRes (Nat.gcd s.opA s.opB)).putCoefficients
          (extendedGcd s.opA s.opB).2.1 (extendedGcd s.opA s.opB).2.2) := by simp [xgcdBody]

theorem modinvBody_cases (s : State) :
    (s.opM = 0 ∧ modinvBody s = endCommand .modZero s)
    ∨ (s.opM ≠ 0 ∧ Nat.gcd s.opA s.opM ≠ 1 ∧ modinvBody s = endCommand .notCoprime s)
    ∨ (s.opM ≠ 0 ∧ Nat.gcd s.opA s.opM = 1
        ∧ modinvBody s = endCommand .none (s.putRes (modInverse s.opA s.opM))) := by
  by_cases hm : s.opM = 0
  · exact .inl ⟨hm, by simp [modinvBody, hm]⟩
  · by_cases hg : Nat.gcd s.opA s.opM = 1
    · exact .inr (.inr ⟨hm, hg, by simp [modinvBody, hm, hg]⟩)
    · exact .inr (.inl ⟨hm, hg, by simp [modinvBody, hm, hg]⟩)

theorem modpowBody_cases (s : State) :
    (s.opM = 0 ∧ modpowBody s = endCommand .modZero s)
    ∨ (s.opM ≠ 0 ∧ modpowBody s = endCommand .none (s.putRes (s.opA ^ s.opB % s.opM))) := by
  by_cases hm : s.opM = 0
  · exact .inl ⟨hm, by simp [modpowBody, hm]⟩
  · exact .inr ⟨hm, by simp [modpowBody, hm]⟩

/-! ## The steps of KEYGEN (43_keygen.md R101 to R112) -/

theorem keygenInit_cases (s : State) :
    (s.conf.legal = true ∧ keygenInit s = { s with hidden := { s.hidden with kstep := .start } })
    ∨ (s.conf.legal = false ∧ keygenInit s = endCommand .config s) := by
  unfold keygenInit
  split <;> simp_all

theorem keygenStart_cases (s : State) :
    (s.conf.maxtry.toNat ≤ s.attempts.toNat ∧ keygenStart s = endCommand .retryLimit s)
    ∨ (s.attempts.toNat < s.conf.maxtry.toNat
        ∧ keygenStart s
          = { s with
              attempts := s.attempts + 1
              status := { s.status with phase := .waitRand }
              hidden := { s.hidden with req := .rand s.conf.pspan, kstep := .pickP } }) := by
  unfold keygenStart
  split
  · next h => exact .inl ⟨h, rfl⟩
  · next h => exact .inr ⟨by omega, rfl⟩

theorem keygenPickP_cases (r : Word) (s : State) :
    (s.conf.pspan.toNat ≤ r.toNat ∧ keygenPickP r s = endCommand .randRange s)
    ∨ (r.toNat < s.conf.pspan.toNat
        ∧ keygenPickP r s
          = { s with hidden := { s.hidden with
                ip := s.conf.pbase + r, req := .rand s.conf.qspan, kstep := .pickQ } }) := by
  unfold keygenPickP
  split
  · next h => exact .inl ⟨h, rfl⟩
  · next h => exact .inr ⟨by omega, rfl⟩

theorem keygenPickQ_cases (r : Word) (s : State) :
    (s.conf.qspan.toNat ≤ r.toNat ∧ keygenPickQ r s = endCommand .randRange s)
    ∨ (r.toNat < s.conf.qspan.toNat
        ∧ keygenPickQ r s
          = { s with
              status := { s.status with phase := .waitPrime }
              hidden := { s.hidden with
                iq := s.conf.qbase + r, req := .prime s.hidden.ip, kstep := .fetchP } }) := by
  unfold keygenPickQ
  split
  · next h => exact .inl ⟨h, rfl⟩
  · next h => exact .inr ⟨by omega, rfl⟩

theorem keygenDerive_cases (s : State) :
    (2 ^ 64 ≤ s.hidden.p.toNat * s.hidden.q.toNat ∧ keygenDerive s = failAttempt .overflow s)
    ∨ (s.hidden.p.toNat * s.hidden.q.toNat < 2 ^ 64
        ∧ totient s.hidden.p.toNat s.hidden.q.toNat < 2 ∧ keygenDerive s = failAttempt .phiRange s)
    ∨ (s.hidden.p.toNat * s.hidden.q.toNat < 2 ^ 64
        ∧ 2 ≤ totient s.hidden.p.toNat s.hidden.q.toNat
        ∧ keygenDerive s
          = { s with
              status := { s.status with phase := .waitRand }
              hidden := { s.hidden with
                tn := BitVec.ofNat 64 (s.hidden.p.toNat * s.hidden.q.toNat)
                tphi := BitVec.ofNat 64 (totient s.hidden.p.toNat s.hidden.q.toNat).toNat
                req := .rand (BitVec.ofNat 64 (totient s.hidden.p.toNat s.hidden.q.toNat).toNat - 1)
                kstep := .drawE } }) := by
  by_cases h1 : 2 ^ 64 ≤ s.hidden.p.toNat * s.hidden.q.toNat
  · exact .inl ⟨h1, if_pos h1⟩
  · by_cases h2 : totient s.hidden.p.toNat s.hidden.q.toNat < 2
    · exact .inr (.inl ⟨by omega, h2, (if_neg h1).trans (if_pos h2)⟩)
    · exact .inr (.inr ⟨by omega, by omega, (if_neg h1).trans (if_neg h2)⟩)

theorem keygenDrawE_cases (r : Word) (s : State) :
    (s.hidden.tphi.toNat - 1 ≤ r.toNat ∧ keygenDrawE r s = endCommand .randRange s)
    ∨ (r.toNat < s.hidden.tphi.toNat - 1 ∧ Nat.gcd (1 + r.toNat) s.hidden.tphi.toNat ≠ 1
        ∧ keygenDrawE r s = { s with hidden := { s.hidden with req := .rand (s.hidden.tphi - 1) } })
    ∨ (r.toNat < s.hidden.tphi.toNat - 1 ∧ Nat.gcd (1 + r.toNat) s.hidden.tphi.toNat = 1
        ∧ keygenDrawE r s
          = { s with
              status := { s.status with phase := .exec }
              hidden := { s.hidden with te := 1 + r, req := .none, kstep := .finish } }) := by
  unfold keygenDrawE
  rw [gcd_eq_natGcd]
  split
  · next h => exact .inl ⟨h, rfl⟩
  · next h =>
    split
    · next hg => exact .inr (.inl ⟨by omega, hg, rfl⟩)
    · next hg => exact .inr (.inr ⟨by omega, by simpa using hg, rfl⟩)

theorem keygenFinish_cases (s : State) :
    let n := s.hidden.tn.toNat
    let phi := s.hidden.tphi.toNat
    let e := s.hidden.te.toNat
    let d := modInverse e phi
    (e * d % phi ≠ 1 ∧ keygenFinish s = failAttempt .edCheck s)
    ∨ (e * d % phi = 1 ∧ (5 ^ e % n) ^ d % n ≠ 5 ∧ keygenFinish s = failAttempt .roundtrip s)
    ∨ (e * d % phi = 1 ∧ (5 ^ e % n) ^ d % n = 5
        ∧ keygenFinish s = endCommand .none (s.putKeys n e d phi)) := by
  intro n phi e d
  by_cases h1 : e * d % phi = 1
  · have h1' : ¬ (e * d % phi ≠ 1) := by simp [h1]
    by_cases h2 : (5 ^ e % n) ^ d % n = 5
    · refine .inr (.inr ⟨h1, h2, (if_neg h1').trans (if_neg ?_)⟩)
      simpa [Config.probe] using h2
    · refine .inr (.inl ⟨h1, h2, (if_neg h1').trans (if_pos ?_)⟩)
      simpa [Config.probe] using h2
  · exact .inl ⟨h1, if_pos h1⟩

/-! ## The meanings at the step they are due -/

/-- With no command in progress every command's meaning is its acceptance (30_encoding.md R66). -/
theorem exec_idle (i : Instr) (s : State) (h : s.hidden.kstep = .idle) : exec i s = .next (accept i s) := by
  cases i with
  | keygen => simp [exec, execKeygen, h]
  | gcd | xgcd | modinv | modpow => exact runArithmetic_idle _ _ s h

theorem exec_gcd_run (s : State) (h : s.hidden.kstep = .run) : exec .gcd s = .next (gcdBody s) :=
  runArithmetic_run _ _ s h

theorem exec_xgcd_run (s : State) (h : s.hidden.kstep = .run) : exec .xgcd s = .next (xgcdBody s) :=
  runArithmetic_run _ _ s h

theorem exec_modinv_run (s : State) (h : s.hidden.kstep = .run) : exec .modinv s = .next (modinvBody s) :=
  runArithmetic_run _ _ s h

theorem exec_modpow_run (s : State) (h : s.hidden.kstep = .run) : exec .modpow s = .next (modpowBody s) :=
  runArithmetic_run _ _ s h

/-- What KEYGEN's meaning answers with, state by state (43_keygen.md R100). -/
theorem exec_keygen_next (s t : State) (h : exec .keygen s = .next t) :
    (s.hidden.kstep = .idle ∧ t = accept .keygen s)
    ∨ (s.hidden.kstep = .init ∧ t = keygenInit s)
    ∨ (s.hidden.kstep = .start ∧ t = keygenStart s)
    ∨ (s.hidden.kstep = .pickP ∧ t = onRand keygenPickP s)
    ∨ (s.hidden.kstep = .pickQ ∧ t = onRand keygenPickQ s)
    ∨ (s.hidden.kstep = .fetchP ∧ t = onPrime keygenFetchP s)
    ∨ (s.hidden.kstep = .fetchQ ∧ t = onPrime keygenFetchQ s)
    ∨ (s.hidden.kstep = .derive ∧ t = keygenDerive s)
    ∨ (s.hidden.kstep = .drawE ∧ t = onRand keygenDrawE s)
    ∨ (s.hidden.kstep = .finish ∧ t = keygenFinish s) := by
  change execKeygen s = .next t at h
  unfold execKeygen at h
  split at h <;> simp_all

/-- What a store to `CMD` does with no command in progress (20_memory.md R45): a legal word is accepted, an
illegal one recorded. -/
theorem startCommand_next (w : Word) (s t : State) (hk : s.hidden.kstep = .idle)
    (h : startCommand w s = .next t) :
    (∃ i, decode w = .command i ∧ t = accept i (storeReg .cmd w s))
    ∨ (∃ why, decode w = .illegal why) ∧ t = illegalCommand (storeReg .cmd w s) := by
  unfold startCommand at h
  split at h
  · next i hd =>
    rw [exec_idle i (storeReg .cmd w s) hk] at h
    cases h; exact .inl ⟨i, hd, rfl⟩
  · next why hd => cases h; exact .inr ⟨⟨why, hd⟩, rfl⟩

/-! ## The engine and the step -/

/-- What a step of the command in progress runs. -/
theorem engine_command (s : State) (i : Instr) (h : decode s.cmd = .command i) :
    engine s = exec i s := by simp [engine, h]

theorem mieTurn_own (s : State) (i : Instr) (hk : s.hidden.kstep.ownStep = true)
    (h : decode s.cmd = .command i) : mieTurn s = exec i s := by simp [mieTurn, hk, engine, h]

theorem mieTurn_waiting (s : State) (hk : s.hidden.kstep.ownStep = false) : mieTurn s = .next s := by
  simp [mieTurn, hk]

theorem step_nil (s : State) (h : s.world.script = []) : step s = mieTurn s := by simp [step, h]

theorem step_cons (s : State) (ev : Event) (rest : List Event) (h : s.world.script = ev :: rest) :
    step s = agentStep ev { s with world := { s.world with script := rest } } := by simp [step, h]

/-- Where a host's write lands (10_state.md R26, R27; 20_memory.md R41, R42). -/
theorem hostWrite_cases (idx : Nat) (v : Word) (s : State) :
    hostWrite idx v s = .next s
    ∨ (idx = Reg.cmd.index ∧ s.status.busy = false ∧ hostWrite idx v s = startCommand v s)
    ∨ ∃ r : Reg, idx = r.index ∧ r ≠ .cmd ∧ r.hostWritable = true ∧ s.status.busy = false
        ∧ hostWrite idx v s = .next (storeReg r v s) := by
  unfold hostWrite
  split
  · exact .inl rfl
  · next r hr =>
    have hidx := index_of_regAt idx r hr
    split
    · next hw =>
      simp only [Bool.and_eq_true, Bool.not_eq_true'] at hw
      split
      · next hc => exact .inr (.inl ⟨hc ▸ hidx, hw.2, rfl⟩)
      · next hc => exact .inr (.inr ⟨r, hidx, hc, hw.1, hw.2, rfl⟩)
    · exact .inl rfl

end Sys2Proof.Machine
end

