-- ==== Sys2Proof/Laws/PerInstr.lean ====
section
/-! SUPPORT. Statements about every command as syntax, one lemma per constructor. -/

/-- The family WordWellFormed: a command's word passes the checks of 30_encoding.md R61 and R62. -/
def Sys2Proof.Laws.WordWellFormed.Statement (i : Sys2Proof.Instr) : Prop := i.wellFormed = true

theorem Sys2Proof.Laws.WordWellFormed.gcd : Sys2Proof.Laws.WordWellFormed.Statement .gcd := rfl

theorem Sys2Proof.Laws.WordWellFormed.xgcd : Sys2Proof.Laws.WordWellFormed.Statement .xgcd := rfl

theorem Sys2Proof.Laws.WordWellFormed.modinv : Sys2Proof.Laws.WordWellFormed.Statement .modinv := rfl

theorem Sys2Proof.Laws.WordWellFormed.modpow : Sys2Proof.Laws.WordWellFormed.Statement .modpow := rfl

theorem Sys2Proof.Laws.WordWellFormed.keygen : Sys2Proof.Laws.WordWellFormed.Statement .keygen := rfl
end

