-- ==== Sys2Proof/Laws/Step.lean ====
section
/-! SUPPORT. One step of the machine taken apart: which agent moved and what it did. -/

namespace Sys2Proof.Machine

/-- The next transaction is a host's write, on the word space or on a byte-addressed mapping. -/
def HostWrites (s : State) (idx : Nat) (v : Word) : Prop :=
  ∃ rest, s.world.script = .write idx v :: rest
    ∨ ∃ off bytes, busAdmitted off bytes.length = true ∧ idx = busIndex off ∧ v = wordOfBytes bytes
        ∧ s.world.script = .busWrite off bytes :: rest

/-- Taking the next event off the script. -/
def State.popped (s : State) (rest : List Event) : State :=
  { s with world := { s.world with script := rest } }

/-- What a host's write that is not refused does: nothing, a store, or the start of a command. -/
theorem hostWrite_next (idx : Nat) (v : Word) (s t : State) (h : hostWrite idx v s = .next t) :
    t = s
    ∨ (idx = 0 ∧ s.status.busy = false ∧ startCommand v s = .next t)
    ∨ ∃ r : Reg, idx = r.index ∧ r ≠ .cmd ∧ r.hostWritable = true ∧ s.status.busy = false
        ∧ t = storeReg r v s := by
  rcases hostWrite_cases idx v s with e | ⟨hi, hb, e⟩ | ⟨r, hi, hc, hw, hb, e⟩ <;> rw [e] at h
  · cases h; exact .inl rfl
  · exact .inr (.inl ⟨hi, hb, h⟩)
  · cases h; exact .inr (.inr ⟨r, hi, hc, hw, hb, rfl⟩)

/-! ## The poll -/

/-- A poll that reads `BUSY = 0` is over. -/
theorem hostPoll_over (s : State) (h : s.status.busy = false) :
    hostPoll s = .next (reply (.word (statusWord s.status)) s) := by simp [hostPoll, h]; rfl

/-- A poll that reads `BUSY = 1` comes again. -/
theorem hostPoll_busy (s : State) (h : s.status.busy = true) :
    hostPoll s
      = .next { s with world := { s.world with
          script := waitAgain s.world.script
          replies := .word (statusWord s.status) :: s.world.replies } } := by simp [hostPoll, h, reply]; rfl

/-- With only transactions of the program to come, the engine has its turn between two polls. -/
theorem waitAgain_program (rest : List Event) (h : ∀ ev ∈ rest, ev.ofProgram = true) :
    waitAgain rest = .mie :: .poll :: rest := by
  have hf : rest.find? (fun ev => !ev.ofProgram) = none := by
    rw [List.find?_eq_none]; intro ev hev; simp [h ev hev]
  have he : rest.eraseP (fun ev => !ev.ofProgram) = rest :=
    List.eraseP_of_forall_not fun ev hev => by simp [h ev hev]
  simp [waitAgain, hf, he]

/-- The first step to come that is none of the program's falls between two polls, and the program waits. -/
theorem waitAgain_other (program others : List Event) (ev : Event)
    (hp : ∀ x ∈ program, x.ofProgram = true) (hev : ev.ofProgram = false) :
    waitAgain (program ++ ev :: others) = ev :: .poll :: (program ++ others) := by
  have hf : program.find? (fun ev => !ev.ofProgram) = none := by
    rw [List.find?_eq_none]; intro x hx; simp [hp x hx]
  have he : (program ++ ev :: others).eraseP (fun ev => !ev.ofProgram) = program ++ others := by
    rw [List.eraseP_append_right _ (fun x hx => by simp [hp x hx])]; simp [hev]
  simp [waitAgain, List.find?_append, hf, hev, he]

/-! ## The step -/

/-- Every step that answers a next state is one of these. Reset; a step that leaves the engine alone (a read, a
poll, a dropped write or answer, a turn with nothing to do); a host's store; the start of a command, legal or
illegal; a step of the command in progress, its own or on an answer of the pending request's kind. -/
theorem step_next_cases (s t : State) (h : step s = .next t) :
    (∃ rest, s.world.script = .reset :: rest
      ∧ t = { State.reset with world := { script := rest, answer := none, replies := s.world.replies } })
    ∨ (∃ w : World, w.answer = s.world.answer ∧ t = { s with world := w })
    ∨ (∃ r v rest, HostWrites s r.index v ∧ r ≠ Reg.cmd ∧ r.hostWritable = true ∧ s.status.busy = false
        ∧ t = storeReg r v (s.popped rest))
    ∨ (∃ w rest, HostWrites s 0 w ∧ s.status.busy = false ∧ startCommand w (s.popped rest) = .next t)
    ∨ (∃ i rest, decode s.cmd = .command i ∧ s.hidden.kstep.ownStep = true
        ∧ exec i (s.popped rest) = .next t)
    ∨ (∃ i a rest, decode s.cmd = .command i ∧ s.hidden.req.takes a = true
        ∧ exec i { s with world := { s.world with script := rest, answer := some a } } = .next t) := by
  have turn : ∀ rest, mieTurn (s.popped rest) = .next t →
      (∃ w : World, w.answer = s.world.answer ∧ t = { s with world := w })
      ∨ ∃ i rest, decode s.cmd = .command i ∧ s.hidden.kstep.ownStep = true
          ∧ exec i (s.popped rest) = .next t := by
    intro rest h
    unfold mieTurn at h
    split at h
    · next hk =>
      unfold engine at h
      split at h
      · next i hd => exact .inr ⟨i, rest, hd, hk, h⟩
      · cases h
    · cases h; exact .inl ⟨(s.popped rest).world, rfl, rfl⟩
  have delivered : ∀ a rest, deliver a (s.popped rest) = .next t →
      (∃ w : World, w.answer = s.world.answer ∧ t = { s with world := w })
      ∨ ∃ i a rest, decode s.cmd = .command i ∧ s.hidden.req.takes a = true
          ∧ exec i { s with world := { s.world with script := rest, answer := some a } } = .next t := by
    intro a rest h
    unfold deliver at h
    split at h
    · next hk =>
      unfold engine at h
      split at h
      · next i hd => exact .inr ⟨i, a, rest, hd, hk, h⟩
      · cases h
    · cases h; exact .inl ⟨(s.popped rest).world, rfl, rfl⟩
  have written : ∀ idx v rest, HostWrites s idx v → hostWrite idx v (s.popped rest) = .next t →
      (∃ w : World, w.answer = s.world.answer ∧ t = { s with world := w })
      ∨ (∃ r v rest, HostWrites s r.index v ∧ r ≠ Reg.cmd ∧ r.hostWritable = true
          ∧ s.status.busy = false ∧ t = storeReg r v (s.popped rest))
      ∨ ∃ w rest, HostWrites s 0 w ∧ s.status.busy = false ∧ startCommand w (s.popped rest) = .next t := by
    intro idx v rest hw h
    rcases hostWrite_next idx v _ t h with rfl | ⟨rfl, hb, e⟩ | ⟨r, rfl, hc, hwr, hb, rfl⟩
    · exact .inl ⟨(s.popped rest).world, rfl, rfl⟩
    · exact .inr (.inr ⟨v, rest, hw, hb, e⟩)
    · exact .inr (.inl ⟨r, v, rest, hw, hc, hwr, hb, rfl⟩)
  cases hs : s.world.script with
  | nil =>
    rw [step_nil s hs] at h
    have hp : s.popped [] = s := by
      obtain ⟨c, st, o, rs, k, at', cf, hd, ⟨sc, an, rp⟩⟩ := s
      simp only at hs; subst hs; rfl
    rcases turn [] (hp.symm ▸ h) with e | e
    · exact .inr (.inl e)
    · exact .inr (.inr (.inr (.inr (.inl e))))
  | cons ev rest =>
    rw [step_cons s ev rest hs] at h
    cases ev with
    | read idx =>
      cases h
      exact .inr (.inl ⟨(reply (.word (memRead (s.popped rest) idx)) (s.popped rest)).world, rfl, rfl⟩)
    | write idx v =>
      rcases written idx v rest ⟨rest, .inl hs⟩ h with e | e | e
      · exact .inr (.inl e)
      · exact .inr (.inr (.inl e))
      · exact .inr (.inr (.inr (.inl e)))
    | busRead off len =>
      change busRead off len (s.popped rest) = .next t at h
      unfold busRead at h
      split at h
      · cases h
        exact .inr (.inl ⟨(reply (.bytes (bytesOfWord (memRead (s.popped rest) (busIndex off))))
          (s.popped rest)).world, rfl, rfl⟩)
      · cases h
    | busWrite off bytes =>
      change busWrite off bytes (s.popped rest) = .next t at h
      unfold busWrite at h
      split at h
      · next ha =>
        rcases written _ _ rest ⟨rest, .inr ⟨off, bytes, ha, rfl, rfl, hs⟩⟩ h with e | e | e
        · exact .inr (.inl e)
        · exact .inr (.inr (.inl e))
        · exact .inr (.inr (.inr (.inl e)))
      · cases h
    | poll =>
      change hostPoll (s.popped rest) = .next t at h
      unfold hostPoll at h
      simp only at h
      split at h <;> cases h
      · exact .inr (.inl ⟨{ (reply (.word (memRead (s.popped rest) Reg.status.index)) (s.popped rest)).world
          with script := waitAgain rest }, rfl, rfl⟩)
      · exact .inr (.inl ⟨(reply (.word (memRead (s.popped rest) Reg.status.index)) (s.popped rest)).world,
          rfl, rfl⟩)
    | reset => cases h; exact .inl ⟨rest, rfl, rfl⟩
    | mie =>
      rcases turn rest h with e | e
      · exact .inr (.inl e)
      · exact .inr (.inr (.inr (.inr (.inl e))))
    | answer a =>
      rcases delivered a rest h with e | e
      · exact .inr (.inl e)
      · exact .inr (.inr (.inr (.inr (.inr e))))
    | serve av =>
      change primeServe av (s.popped rest) = .next t at h
      unfold primeServe at h
      split at h
      · rcases delivered _ rest h with e | e
        · exact .inr (.inl e)
        · exact .inr (.inr (.inr (.inr (.inr e))))
      · cases h; exact .inr (.inl ⟨(s.popped rest).world, rfl, rfl⟩)
      · cases h; exact .inr (.inl ⟨(s.popped rest).world, rfl, rfl⟩)

end Sys2Proof.Machine
end

