-- ==== Sys2Proof/Laws/World.lean ====
section
/-! SUPPORT. The steps that are none of the host's program do not look at the steps to come nor at the replies,
and leave both as they are; the state as an endless schedule sees it. -/

namespace Sys2Proof.Machine

/-- The same state in a world with other steps to come and other replies. -/
def State.inWorld (script : List Event) (replies : List Reply) (s : State) : State :=
  { s with world := { s.world with script := script, replies := replies } }

section
variable (script : List Event) (replies : List Reply) (s : State)
@[simp] theorem inWorld_cmd : (s.inWorld script replies).cmd = s.cmd := rfl
@[simp] theorem inWorld_status : (s.inWorld script replies).status = s.status := rfl
@[simp] theorem inWorld_conf : (s.inWorld script replies).conf = s.conf := rfl
@[simp] theorem inWorld_attempts : (s.inWorld script replies).attempts = s.attempts := rfl
@[simp] theorem inWorld_hidden : (s.inWorld script replies).hidden = s.hidden := rfl
@[simp] theorem inWorld_script : (s.inWorld script replies).world.script = script := rfl
@[simp] theorem inWorld_replies : (s.inWorld script replies).world.replies = replies := rfl
@[simp] theorem inWorld_answer : (s.inWorld script replies).world.answer = s.world.answer := rfl
@[simp] theorem inWorld_takeAnswer :
    (s.inWorld script replies).takeAnswer = s.takeAnswer.inWorld script replies := rfl
end

theorem onRand_inWorld (x : List Event) (y : List Reply) (react : Word → State → State) (s : State)
    (h : ∀ r u, react r (u.inWorld x y) = (react r u).inWorld x y) :
    onRand react (s.inWorld x y) = (onRand react s).inWorld x y := by
  unfold onRand; rw [inWorld_answer]; split <;> first | exact h _ s.takeAnswer | rfl

theorem onPrime_inWorld (x : List Event) (y : List Reply) (react : Option Word → State → State) (s : State)
    (h : ∀ r u, react r (u.inWorld x y) = (react r u).inWorld x y) :
    onPrime react (s.inWorld x y) = (onPrime react s).inWorld x y := by
  unfold onPrime; rw [inWorld_answer]; split <;> first | exact h _ s.takeAnswer | rfl

theorem keygenPickP_inWorld (x : List Event) (y : List Reply) (r : Word) (u : State) :
    keygenPickP r (u.inWorld x y) = (keygenPickP r u).inWorld x y := by
  unfold keygenPickP; rw [inWorld_conf]; split <;> rfl

theorem keygenPickQ_inWorld (x : List Event) (y : List Reply) (r : Word) (u : State) :
    keygenPickQ r (u.inWorld x y) = (keygenPickQ r u).inWorld x y := by
  unfold keygenPickQ; rw [inWorld_conf]; split <;> rfl

theorem keygenDrawE_inWorld (x : List Event) (y : List Reply) (r : Word) (u : State) :
    keygenDrawE r (u.inWorld x y) = (keygenDrawE r u).inWorld x y := by
  unfold keygenDrawE; rw [inWorld_hidden]; split
  · rfl
  · split <;> rfl

theorem keygenInit_inWorld (x : List Event) (y : List Reply) (s : State) :
    keygenInit (s.inWorld x y) = (keygenInit s).inWorld x y := by
  unfold keygenInit; rw [inWorld_conf]; split <;> rfl

theorem keygenStart_inWorld (x : List Event) (y : List Reply) (s : State) :
    keygenStart (s.inWorld x y) = (keygenStart s).inWorld x y := by
  unfold keygenStart; rw [inWorld_conf, inWorld_attempts]; split <;> rfl

theorem keygenDerive_inWorld (x : List Event) (y : List Reply) (s : State) :
    keygenDerive (s.inWorld x y) = (keygenDerive s).inWorld x y := by
  unfold keygenDerive; rw [inWorld_hidden]; dsimp only; split
  · rfl
  · split <;> rfl

theorem keygenFinish_inWorld (x : List Event) (y : List Reply) (s : State) :
    keygenFinish (s.inWorld x y) = (keygenFinish s).inWorld x y := by
  unfold keygenFinish; rw [inWorld_hidden]; dsimp only; split
  · rfl
  · split <;> rfl

theorem gcdBody_inWorld (x : List Event) (y : List Reply) (s : State) :
    gcdBody (s.inWorld x y) = (gcdBody s).inWorld x y := by
  unfold gcdBody; rw [show (s.inWorld x y).opA = s.opA from rfl, show (s.inWorld x y).opB = s.opB from rfl]
  split <;> rfl

theorem modinvBody_inWorld (x : List Event) (y : List Reply) (s : State) :
    modinvBody (s.inWorld x y) = (modinvBody s).inWorld x y := by
  unfold modinvBody; rw [show (s.inWorld x y).opA = s.opA from rfl, show (s.inWorld x y).opM = s.opM from rfl]
  split
  · rfl
  · split <;> rfl

theorem modpowBody_inWorld (x : List Event) (y : List Reply) (s : State) :
    modpowBody (s.inWorld x y) = (modpowBody s).inWorld x y := by
  unfold modpowBody; rw [show (s.inWorld x y).opA = s.opA from rfl, show (s.inWorld x y).opM = s.opM from rfl]
  split <;> rfl

theorem runArithmetic_inWorld (x : List Event) (y : List Reply) (i : Instr) (body : State → State) (s t : State)
    (hb : body (s.inWorld x y) = (body s).inWorld x y) (h : runArithmetic i body s = .next t) :
    runArithmetic i body (s.inWorld x y) = .next (t.inWorld x y) := by
  rcases runArithmetic_next _ _ _ _ h with ⟨hk, rfl⟩ | ⟨hk, rfl⟩
  · rw [runArithmetic_idle _ _ (s.inWorld x y) hk]; cases i <;> rfl
  · rw [runArithmetic_run _ _ (s.inWorld x y) hk, hb]

/-- A command's step does not look at the steps to come nor at the replies (20_memory.md R55). -/
theorem exec_inWorld (x : List Event) (y : List Reply) (i : Instr) (s t : State) (h : exec i s = .next t) :
    exec i (s.inWorld x y) = .next (t.inWorld x y) := by
  cases i with
  | gcd => exact runArithmetic_inWorld x y _ _ s t (gcdBody_inWorld x y s) h
  | xgcd => exact runArithmetic_inWorld x y _ _ s t rfl h
  | modinv => exact runArithmetic_inWorld x y _ _ s t (modinvBody_inWorld x y s) h
  | modpow => exact runArithmetic_inWorld x y _ _ s t (modpowBody_inWorld x y s) h
  | keygen =>
    rcases exec_keygen_next s t h with ⟨hk, rfl⟩ | ⟨hk, rfl⟩ | ⟨hk, rfl⟩ | ⟨hk, rfl⟩ | ⟨hk, rfl⟩ | ⟨hk, rfl⟩
      | ⟨hk, rfl⟩ | ⟨hk, rfl⟩ | ⟨hk, rfl⟩ | ⟨hk, rfl⟩ <;>
      (change execKeygen (s.inWorld x y) = _; unfold execKeygen; rw [inWorld_hidden, hk]; dsimp only; congr 1)
    · exact keygenInit_inWorld x y s
    · exact keygenStart_inWorld x y s
    · exact onRand_inWorld x y _ s (keygenPickP_inWorld x y)
    · exact onRand_inWorld x y _ s (keygenPickQ_inWorld x y)
    · exact onPrime_inWorld x y _ s fun r _ => by cases r <;> rfl
    · exact onPrime_inWorld x y _ s fun r _ => by cases r <;> rfl
    · exact keygenDerive_inWorld x y s
    · exact onRand_inWorld x y _ s (keygenDrawE_inWorld x y)
    · exact keygenFinish_inWorld x y s

theorem engine_inWorld (x : List Event) (y : List Reply) (s t : State) (h : engine s = .next t) :
    engine (s.inWorld x y) = .next (t.inWorld x y) := by
  unfold engine at h ⊢
  rw [inWorld_cmd]
  split at h
  · exact exec_inWorld x y _ s t h
  · cases h

theorem deliver_inWorld (x : List Event) (y : List Reply) (a : Answer) (s t : State)
    (h : deliver a s = .next t) : deliver a (s.inWorld x y) = .next (t.inWorld x y) := by
  unfold deliver at h ⊢
  rw [inWorld_hidden]
  split at h
  · next hr => rw [if_pos hr]; exact engine_inWorld x y _ t h
  · next hr => rw [if_neg hr]; cases h; rfl

/-- A step that is none of the program's does not look at the steps to come nor at the replies. -/
theorem agentStep_inWorld (x : List Event) (y : List Reply) (ev : Event) (hev : ev.ofProgram = false)
    (s t : State) (h : agentStep ev s = .next t) : agentStep ev (s.inWorld x y) = .next (t.inWorld x y) := by
  cases ev with
  | read | write | busRead | busWrite | poll => cases hev
  | reset => cases h; rfl
  | mie =>
    change mieTurn s = _ at h
    change mieTurn (s.inWorld x y) = _
    unfold mieTurn at h ⊢
    rw [inWorld_hidden]
    split at h
    · next hk => rw [if_pos hk]; exact engine_inWorld x y _ t h
    · next hk => rw [if_neg hk]; cases h; rfl
  | answer a => exact deliver_inWorld x y a s t h
  | serve av =>
    change primeServe av s = _ at h
    change primeServe av (s.inWorld x y) = _
    unfold primeServe at h ⊢
    rw [inWorld_hidden]
    split at h
    · exact deliver_inWorld x y _ s t h
    · cases h; rfl
    · cases h; rfl

/-- Nor does it change them. -/
theorem agentStep_keepsWorld (ev : Event) (hev : ev.ofProgram = false) (s t : State)
    (h : agentStep ev s = .next t) :
    t.world.script = s.world.script ∧ t.world.replies = s.world.replies := by
  have e := agentStep_inWorld s.world.script s.world.replies ev hev s t h
  rw [show s.inWorld s.world.script s.world.replies = s from rfl, h] at e
  injection e with e
  rw [e]; exact ⟨rfl, rfl⟩

/-! ## Endless schedules -/

section
variable (ev : Event) (s : State)
@[simp] theorem enqueue_cmd : (s.enqueue ev).cmd = s.cmd := rfl
@[simp] theorem enqueue_status : (s.enqueue ev).status = s.status := rfl
@[simp] theorem enqueue_conf : (s.enqueue ev).conf = s.conf := rfl
@[simp] theorem enqueue_attempts : (s.enqueue ev).attempts = s.attempts := rfl
@[simp] theorem enqueue_keys : (s.enqueue ev).keys = s.keys := rfl
@[simp] theorem enqueue_hidden : (s.enqueue ev).hidden = s.hidden := rfl
@[simp] theorem enqueue_answer : (s.enqueue ev).world.answer = s.world.answer := rfl
end

/-- The step taken when `ev` has just been scheduled is `nextEvent`. -/
theorem enqueue_script (ev : Event) (s : State) :
    ∃ rest, (s.enqueue ev).world.script = s.nextEvent ev :: rest := by
  unfold State.enqueue State.nextEvent
  cases s.world.script with
  | nil => exact ⟨[], rfl⟩
  | cons a l => exact ⟨l ++ [ev], rfl⟩

theorem runUnder_succ (sched : Nat → Event) (s t : State) (n : Nat) (h : runUnder sched s n = .next t) :
    runUnder sched s (n + 1) = step (t.enqueue (sched n)) := by rw [runUnder, h]

end Sys2Proof.Machine
end

