-- ==== Sys2Proof/Tests/Slice0.lean ====
section
/-! SUPPORT. The model's own tests, and for each statement of Certificates/Slice0/Obligations.lean that has
hypotheses a concrete state and operands that meet them. Expected values are those of spec/95_test_vectors.md
(vectors S, K, programs P, tables of sections 2 to 6), or of the rule cited. -/

namespace Sys2Proof.Tests

open Sys2Proof.Machine

/-! ## States to test on -/

/-- The reset state of program P2, the configuration written (95_test_vectors.md section 7). -/
def idle : State :=
  { State.reset with conf := { maxtry := 4, pbase := 10, pspan := 10, qbase := 0, qspan := 20 } }

/-- A state whose next steps are these. -/
def sched (s : State) (script : List Event) : State := { s with world := { s.world with script := script } }

/-- A state with an answer on its way to the command in progress. -/
def given (s : State) (a : Answer) : State := { s with world := { s.world with answer := some a } }

/-- An arithmetic command about to take its engine step. -/
def running (i : Instr) (a b m : Word) : State :=
  { idle with
    cmd := encode i
    status := { idle.status with busy := true, phase := .exec }
    operands := { a := a, b := b, m := m }
    hidden := { idle.hidden with kstep := .run } }

/-- KEYGEN in its first attempt, at a step, with `IP = 17`, `IQ = 15`. -/
def keygenAt (k : KStep) (phase : Phase) (req : Req) : State :=
  { idle with
    cmd := encode .keygen
    status := { idle.status with busy := true, phase := phase }
    attempts := 1
    hidden := { idle.hidden with kstep := k, req := req, ip := 17, iq := 15 } }

/-- KEYGEN at `K_INIT`, with a configuration. -/
def initWith (c : Conf) : State := { keygenAt .init .exec .none with conf := c, attempts := 0 }

/-- KEYGEN at `K_DERIVE`, with the primes it was given. -/
def derivingFrom (p q : Word) : State :=
  { keygenAt .derive .exec .none with hidden := { (keygenAt .derive .exec .none).hidden with p := p, q := q } }

/-- KEYGEN at `K_DRAWE`, with `p`, `q`, their product and totient. -/
def drawing (p q n phi : Word) : State :=
  { keygenAt .drawE .waitRand (.rand (phi - 1)) with
    hidden := { (keygenAt .drawE .waitRand (.rand (phi - 1))).hidden with p := p, q := q, tn := n, tphi := phi } }

/-- KEYGEN at `K_FINISH`, with the exponent drawn as well. -/
def finishing (p q n phi e : Word) : State :=
  { keygenAt .finish .exec .none with
    hidden := { (keygenAt .finish .exec .none).hidden with p := p, q := q, tn := n, tphi := phi, te := e } }

/-- The state an outcome goes on with. -/
def next? : Result → Option State
  | .next t => some t
  | .fault _ => none
  | .refused _ => none

theorem eq_next {r : Result} {t : State} (h : next? r = some t) : r = .next t := by
  cases r <;> simp_all [next?]

/-! ## Well-formedness: each check refuses an ill-formed term -/

theorem test_wellFormed_refuses_zero_field : CommandWord.wellFormed { opcode := 0x05, zero := 1 } = false := by decide

theorem test_wellFormed_refuses_high_zero_bit :
    CommandWord.wellFormed { opcode := 0x01, zero := 0x80000000000000 } = false := by decide

theorem test_wellFormed_refuses_opcode_zero : CommandWord.wellFormed { opcode := 0x00, zero := 0 } = false := by decide

theorem test_wellFormed_refuses_opcode_six : CommandWord.wellFormed { opcode := 0x06, zero := 0 } = false := by decide

theorem test_wellFormed_takes_keygen : CommandWord.wellFormed { opcode := 0x05, zero := 0 } = true := by decide

/-- 20_memory.md R44: half a register, and a word across two registers, are not admitted. -/
theorem test_busAdmitted_refuses : busAdmitted 8 4 = false ∧ busAdmitted 4 8 = false ∧ busAdmitted 8 8 = true := by decide

/-! ## Decoding: words written out from the table of 30_encoding.md R61 -/

theorem test_decode_gcd : decode 0x0000000000000001#64 = .command .gcd := by decide
theorem test_decode_xgcd : decode 0x0000000000000002#64 = .command .xgcd := by decide
theorem test_decode_modinv : decode 0x0000000000000003#64 = .command .modinv := by decide
theorem test_decode_modpow : decode 0x0000000000000004#64 = .command .modpow := by decide
theorem test_decode_keygen : decode 0x0000000000000005#64 = .command .keygen := by decide

/-- The three illegal words of program P4, and one with its top bit set. -/
theorem test_decode_illegal :
    decode 0x0#64 = .illegal .opcode ∧ decode 0x105#64 = .illegal .zeroField ∧ decode 0x6#64 = .illegal .opcode
    ∧ decode 0x8000000000000001#64 = .illegal .zeroField := by decide

/-- 20_memory.md R43: the lowest byte first; and a wrong number of bytes is no word. -/
theorem test_decodeBytes :
    decodeBytes [0x04, 0, 0, 0, 0, 0, 0, 0] = .command .modpow
    ∧ decodeBytes [0, 0, 0, 0, 0, 0, 0, 0x04] = .illegal .zeroField
    ∧ decodeBytes [0x04] = .illegal .length := by decide

theorem test_decodeTableWord : decodeTableWord 64 3 = some .modinv ∧ decodeTableWord 64 0x103 = none := by decide

/-! ## One step of each command -/

/-- Section 2: `GCD 48, 18`. -/
theorem test_gcd : (next? (exec .gcd (running .gcd 48 18 0))).map
    (fun t => (t.results.res, t.status.err, t.status.busy)) = some (6, .none, false) := by decide

/-- Section 2: `GCD 0, 0`; `STATUS = 0x202`. -/
theorem test_gcd_zeros : (next? (exec .gcd (running .gcd 0 0 0))).map
    (fun t => (t.results.res, statusWord t.status)) = some (0, 0x202) := by decide

/-- Section 3: `XGCD 17, 3120`. -/
theorem test_xgcd : (next? (exec .xgcd (running .xgcd 17 3120 0))).map
    (fun t => (t.results, t.status.xneg, t.status.yneg))
    = some ({ res := 1, xlo := 0xFFFFFFFFFFFFFE91, ylo := 2 }, true, false) := by decide

/-- Section 3: `XGCD 2^64 - 1, 2`, a coefficient below `-2^62`. -/
theorem test_xgcd_wide : (next? (exec .xgcd (running .xgcd 0xFFFFFFFFFFFFFFFF 2 0))).map
    (fun t => (t.results, t.status.xneg, t.status.yneg))
    = some ({ res := 1, xlo := 1, ylo := 0x8000000000000001 }, false, true) := by decide

/-- Section 4: `MODINV 17, 3120` (S4). -/
theorem test_modinv : (next? (exec .modinv (running .modinv 17 0 3120))).map
    (fun t => (t.results.res, t.status.err)) = some (2753, .none) := by decide

/-- Section 4: `MODINV 0, 0`, `MOD_ZERO` before `NOT_COPRIME`; and `MODINV 0, 5`. -/
theorem test_modinv_errors :
    (next? (exec .modinv (running .modinv 0 0 0))).map (fun t => statusWord t.status) = some 0x302
    ∧ (next? (exec .modinv (running .modinv 0 0 5))).map (fun t => statusWord t.status) = some 0x402 := by decide

/-- Section 5: the square needs 128 bits. -/
theorem test_modpow_wide :
    (next? (exec .modpow (running .modpow 0xFFFFFFFFFFFFFFFF 2 0xFFFFFFFFFFFFFFFE))).map
    (fun t => t.results.res) = some 1 := by decide

/-- Section 5: `MODPOW 7, 0, 1`, the final reduction (90_conflicts.md C1). -/
theorem test_modpow_modulus_one : (next? (exec .modpow (running .modpow 7 0 1))).map
    (fun t => t.results.res) = some 0 := by decide

/-- Program P2, the last step: the key of 61, 53 and 17. -/
theorem test_keygen_finish : (next? (exec .keygen (finishing 61 53 3233 3120 17))).map
    (fun t => (t.keys, statusWord t.status))
    = some ({ n := 3233, e := 17, d := 2753, phi := 3120 }, 0x2) := by decide

/-- Program P3, the failed attempt with `p = q = 43`: `STATUS = 0x14001`. -/
theorem test_keygen_roundtrip : (next? (exec .keygen (finishing 43 43 1849 1764 5))).map
    (fun t => (t.keys.n, t.hidden.kstep, statusWord t.status)) = some (0, .start, 0x14001) := by decide

/-! ## What the machine reads and drops (programs P2, P4, P5) -/

/-- P2: `STATUS` after acceptance and at the first draw. -/
theorem test_status_word :
    statusWord (accept .keygen idle).status = 0x10001
    ∧ statusWord (keygenStart (initWith idle.conf)).status = 0x20001 := by decide

/-- P4: a write to `RES` is dropped, an unmapped index reads 0. -/
theorem test_dropped :
    next? (step (sched idle [.write 0x05 77])) = some (sched idle [])
    ∧ memRead idle 0x12 = 0 ∧ memRead idle 0x11 = 20 := by decide

/-- `WAIT` on a KEYGEN that waits for a draw (30_encoding.md R69, 20_memory.md R53): the answer comes next, then
the read again, and the host's write stays after it. -/
theorem test_wait_lets_the_answer_fall :
    (next? (step (sched (drawing 61 53 3233 3120) [.poll, .write 0x02 7, .answer (.rand 16)]))).map
      (fun t => t.world.script) = some [.answer (.rand 16), .poll, .write 0x02 7] := by decide

/-- The next step after `withFetchWord` runs the command: P4's `CMD GCD`, accepted. -/
theorem test_withFetchWord : (next? (step (idle.withFetchWord 64 1))).map
    (fun t => (t.cmd, t.hidden.kstep, statusWord t.status)) = some (1, .run, 0x10001) := by decide

/-! ## Witnesses: for each statement with hypotheses, a state and operands that meet them -/

/-- A state meets the invariant, its six parts each decided. -/
theorem inv_of {s : State} (h1 : s.PortIdle) (h2 : s.StatusAgrees) (h3 : s.CommandAgrees) (h4 : s.RequestAgrees)
    (h5 : s.DestinationsClear) (h6 : s.KeygenData) : s.Inv := ⟨h1, h2, h3, h4, h5, h6⟩

theorem idle_inv : idle.Inv := inv_of (by decide) (by decide) (by decide) (by decide) (by decide) (by decide)

theorem running_inv : (running .xgcd 17 3120 0).Inv :=
  inv_of (by decide) (by decide) (by decide) (by decide) (by decide) (by decide)

theorem drawing_inv : (drawing 61 53 3233 3120).Inv :=
  inv_of (by decide) (by decide) (by decide) (by decide) (by decide) (by decide)

theorem finishing_inv : (finishing 61 53 3233 3120 17).Inv :=
  inv_of (by decide) (by decide) (by decide) (by decide) (by decide) (by decide)

/-- Program P3's failed attempt. -/
theorem finishing_square_inv : (finishing 43 43 1849 1764 5).Inv :=
  inv_of (by decide) (by decide) (by decide) (by decide) (by decide) (by decide)

/-- The invariant says nothing of the steps to come. -/
theorem sched_inv {s : State} (h : s.Inv) (script : List Event) : (sched s script).Inv :=
  ⟨h.1, h.2.1, h.2.2.1, h.2.2.2.1, h.2.2.2.2.1, h.2.2.2.2.2⟩

theorem witness_DecodeAndEncodeAgree : decode 0x5#64 = .command .keygen := by decide

theorem witness_RegisterBytesAreLittleEndian :
    7 < 8 ∧ (bytesOfWord 0x0102030405060708#64)[7]? = some 0x01
    ∧ (bytesOfWord 0x0102030405060708#64)[0]? = some 0x08 := by decide

theorem witness_ResetValuesOfEveryRegister :
    Reg.qbase ≠ .maxtry ∧ Reg.qbase ≠ .pspan ∧ Reg.qbase ≠ .qspan := by decide

/-- A reset with nothing after it, with a read after it, and with a late answer after it. -/
theorem witness_ResetAbandonsEverything :
    (sched (drawing 61 53 3233 3120) [.reset]).world.script = .reset :: []
    ∧ (sched (drawing 61 53 3233 3120) [.reset, .read 0x01]).world.script = .reset :: [.read 0x01]
    ∧ (sched (drawing 61 53 3233 3120) [.reset, .answer (.rand 16)]).world.script
      = .reset :: [.answer (.rand 16)] := by decide

theorem witness_HostReadReturnsTheRegister :
    (sched idle [.read 0x11]).world.script = .read 0x11 :: []
    ∧ (sched idle [.read 0x12]).world.script = .read 0x12 :: [] := by decide

theorem witness_HostWriteOnlyStores :
    ((sched idle [.write 0x11 7]).world.script = .write 0x11 7 :: [] ∧ idle.status.busy = false
      ∧ 0x11 ∈ [0x02, 0x03, 0x04, 0x0D, 0x0E, 0x0F, 0x10, 0x11])
    ∧ (sched idle [.write 0x02 7]).world.script = .write 0x02 7 :: []
    ∧ 0x02 ∈ [0x02, 0x03, 0x04, 0x0D, 0x0E, 0x0F, 0x10, 0x11] := by decide

theorem witness_WritesWhileBusyAreDropped :
    (sched (running .gcd 48 18 0) [.write 0x00 5]).world.script = .write 0x00 5 :: []
    ∧ (sched (running .gcd 48 18 0) [.write 0x00 5]).status.busy = true := by decide

theorem witness_WritesToReadOnlyOrUnmappedAreDropped :
    ((sched idle [.write 0x01 0xFFFF]).world.script = .write 0x01 0xFFFF :: []
      ∧ 0x01 ∈ [0x01, 0x05, 0x06, 0x07, 0x08, 0x09, 0x0A, 0x0B, 0x0C])
    ∧ (sched idle [.write 0x0C 1]).world.script = .write 0x0C 1 :: []
    ∧ 0x0C ∈ [0x01, 0x05, 0x06, 0x07, 0x08, 0x09, 0x0A, 0x0B, 0x0C]
    ∧ (sched idle [.write 0x12 1]).world.script = .write 0x12 1 :: [] ∧ 0x12 ≤ 0x12 := by decide

theorem witness_BusAccessesAreWordAccessesOrNone :
    ((sched idle [.busWrite 0x10 [5, 0, 0, 0, 0, 0, 0, 0]]).world.script
        = .busWrite 0x10 [5, 0, 0, 0, 0, 0, 0, 0] :: []
      ∧ [5, 0, 0, 0, 0, 0, 0, (0 : Byte)].length = 8 ∧ 0x10 % 8 = 0)
    ∧ ((sched idle [.busWrite 0x10 [5]]).world.script = .busWrite 0x10 [5] :: []
      ∧ ¬ ([(5 : Byte)].length = 8 ∧ 0x10 % 8 = 0))
    ∧ ((sched idle [.busRead 0x88 8]).world.script = .busRead 0x88 8 :: [] ∧ 8 = 8 ∧ 0x88 % 8 = 0)
    ∧ (sched idle [.busRead 0x84 8]).world.script = .busRead 0x84 8 :: [] ∧ ¬ (8 = 8 ∧ 0x84 % 8 = 0) := by
  decide

/-- P2's draw 16 falls between two reads of `WAIT`; and `WAIT` with nothing else to come, and over one turn. -/
theorem witness_WaitReadsStatusUntilTheCommandIsOver :
    ((sched idle [.poll]).world.script = .poll :: [] ∧ (sched idle [.poll]).status.busy = false)
    ∧ ((sched (drawing 61 53 3233 3120) [.poll, .read 0x08, .answer (.rand 16)]).world.script
        = .poll :: ([.read 0x08] ++ .answer (.rand 16) :: [])
      ∧ (drawing 61 53 3233 3120).status.busy = true
      ∧ (∀ x ∈ [Event.read 0x08], x.ofProgram = true) ∧ (Event.answer (.rand 16)).ofProgram = false)
    ∧ ((sched (running .gcd 48 18 0) [.poll]).world.script = .poll :: []
      ∧ (sched (running .gcd 48 18 0) [.poll]).status.busy = true)
    ∧ ((∀ ev ∈ [Event.mie], ev.ofProgram = false)
      ∧ (∀ k u, k < [Event.mie].length → runSteps k (sched (running .gcd 48 18 0) [.mie]) = .next u →
          u.status.busy = true)
      ∧ (next? (runSteps [Event.mie].length (sched (running .gcd 48 18 0) [.mie]))).map (fun t => t.status.busy)
        = some false
      ∧ (sched (running .gcd 48 18 0) [.poll, .mie]).world.script = .poll :: [.mie] ++ []) := by
  refine ⟨by decide, by decide, by decide, by decide, fun k u hk hu => ?_, by decide, by decide⟩
  obtain rfl : k = 0 := by simpa using hk
  cases hu; rfl

theorem witness_AcceptanceOfALegalCommand :
    (sched idle [.write 0x00 5]).Inv ∧ (sched idle [.write 0x00 5]).status.busy = false
    ∧ decode 5#64 = .command .keygen ∧ (sched idle [.write 0x00 5]).world.script = .write 0x00 5#64 :: [] :=
  ⟨sched_inv idle_inv _, by decide, by decide, by decide⟩

theorem witness_IllegalCommandIsRecorded :
    (sched idle [.write 0x00 6]).status.busy = false ∧ 6#64 ∉ [0x1#64, 0x2#64, 0x3#64, 0x4#64, 0x5#64]
    ∧ 0#64 ∉ [0x1#64, 0x2#64, 0x3#64, 0x4#64, 0x5#64]
    ∧ (sched idle [.write 0x00 6]).world.script = .write 0x00 6#64 :: [] := by decide

theorem witness_StepRunsTheDecodedCommand :
    (decode (running .gcd 48 18 0).cmd = .command .gcd ∧ (running .gcd 48 18 0).hidden.kstep.ownStep = true
      ∧ (running .gcd 48 18 0).world.script = []
      ∧ (sched (running .gcd 48 18 0) [.mie]).world.script = .mie :: [])
    ∧ (decode 1#64 = .command .gcd ∧ idle.status.busy = false
      ∧ (sched idle [.write 0x00 1]).world.script = .write 0x00 1#64 :: [])
    ∧ decode (drawing 61 53 3233 3120).cmd = .command .keygen
    ∧ (drawing 61 53 3233 3120).hidden.req.takes (.rand 16) = true
    ∧ (sched (drawing 61 53 3233 3120) [.answer (.rand 16)]).world.script = .answer (.rand 16) :: [] := by decide

/-- Section 2: `GCD 0, 7`, one operand zero. -/
theorem witness_GcdCompletesWithTheGcd :
    (running .gcd 0 7 0).hidden.kstep = .run
    ∧ ¬ ((running .gcd 0 7 0).operands.a = 0 ∧ (running .gcd 0 7 0).operands.b = 0) := by decide

theorem witness_GcdResultIsTheGreatestDivisor :
    (running .gcd 48 18 0).hidden.kstep = .run
    ∧ ¬ ((running .gcd 48 18 0).operands.a = 0 ∧ (running .gcd 48 18 0).operands.b = 0)
    ∧ 48 % 7 ≠ 0 := by decide

theorem witness_BothZeroIsRaisedByGcdOfZerosOnly :
    (running .gcd 0 0 0).hidden.kstep = .run ∧ (running .gcd 0 0 0).operands.a = 0
    ∧ (running .gcd 0 0 0).operands.b = 0 ∧ (running .gcd 0 0 0).status.err ≠ .bothZero
    ∧ (next? (exec .gcd (running .gcd 0 0 0))).map (fun t => t.status.err) = some .bothZero := by decide

/-- The trace of section 3. -/
theorem witness_ExtendedGcdObeysItsRecursion : 17 ≠ 0 ∧ extendedGcd (3120 % 17) 17 = (1, 2, -1) := by decide

theorem witness_BezoutCoefficientsAreBounded :
    extendedGcd 17 3120 = (1, -367, 2) ∧ 1 ≠ 0 ∧ 17 ≠ 0 ∧ extendedGcd 0 0 = (0, 0, 1)
    ∧ extendedGcd (2 ^ 64 - 1) (2 ^ 64 - 2) = (1, 1, -1) := by decide

theorem witness_CoefficientsReadBack :
    (-2 ^ 64 ≤ (-2 ^ 64 : Int) ∧ (-2 ^ 64 : Int) < 2 ^ 64)
    ∧ -2 ^ 64 ≤ (2 ^ 64 - 1 : Int) ∧ (2 ^ 64 - 1 : Int) < 2 ^ 64 := by decide

theorem witness_XgcdCompletesOnEveryPair :
    (running .xgcd 17 3120 0).hidden.kstep = .run
    ∧ extendedGcd (running .xgcd 17 3120 0).operands.a.toNat (running .xgcd 17 3120 0).operands.b.toNat
      = (1, -367, 2) := by decide

theorem witness_XgcdRegistersSatisfyBezout : (running .xgcd 0 0 0).hidden.kstep = .run := by decide

/-- Section 4: `MODINV 5, 1`, the modulus 1; and S4. -/
theorem witness_ModinvCompletesWithTheInverse :
    ((running .modinv 5 0 1).hidden.kstep = .run ∧ (running .modinv 5 0 1).operands.m ≠ 0
      ∧ Nat.gcd (running .modinv 5 0 1).operands.a.toNat (running .modinv 5 0 1).operands.m.toNat = 1)
    ∧ (running .modinv 17 0 3120).operands.m ≠ 0
    ∧ Nat.gcd (running .modinv 17 0 3120).operands.a.toNat (running .modinv 17 0 3120).operands.m.toNat = 1
    ∧ 1 < (running .modinv 17 0 3120).operands.m.toNat := by decide

theorem witness_ModinvOfItsResultIsTheOperand :
    (running .modinv 17 0 3120).hidden.kstep = .run ∧ (running .modinv 17 0 3120).operands.m ≠ 0
    ∧ Nat.gcd (running .modinv 17 0 3120).operands.a.toNat (running .modinv 17 0 3120).operands.m.toNat = 1
    ∧ (next? (exec .modinv (running .modinv 17 0 3120))).isSome := by decide

theorem witness_ModinvErrors :
    ((running .modinv 7 0 0).hidden.kstep = .run ∧ (running .modinv 7 0 0).operands.m = 0)
    ∧ (running .modinv 6 0 9).hidden.kstep = .run ∧ (running .modinv 6 0 9).operands.m ≠ 0
    ∧ Nat.gcd (running .modinv 6 0 9).operands.a.toNat (running .modinv 6 0 9).operands.m.toNat ≠ 1 := by decide

theorem witness_ModpowCompletesWithThePowerOrModZero :
    ((running .modpow 7 0 1).hidden.kstep = .run ∧ (running .modpow 7 0 1).operands.m ≠ 0)
    ∧ (running .modpow 2 10 0).hidden.kstep = .run ∧ (running .modpow 2 10 0).operands.m = 0 := by decide

/-- The modulus 1 and the largest, the largest base, an odd and an even exponent. -/
theorem witness_ModpowProductsFit128Bits :
    (1 ≤ 1 ∧ 1 < 2 ^ 64 ∧ 1 ≤ 2 ^ 64 - 1 ∧ 2 ^ 64 - 1 < 2 ^ 64)
    ∧ (1 ≤ max 1 (1 - 1) ∧ 2 ^ 64 - 1 ≤ max (2 ^ 64 - 1) (1 - 1) ∧ 1 ≠ 0)
    ∧ (2 ^ 64 - 2 ≤ max 1 (2 ^ 64 - 1 - 1) ∧ 2 ^ 64 - 2 ≤ max 5 (2 ^ 64 - 1 - 1) ∧ 2 ≠ 0) := by decide

theorem witness_ArithmeticCommandFrame :
    Instr.modpow ≠ .keygen ∧ Instr.modpow ≠ .xgcd
    ∧ (next? (exec .modpow idle)).isSome ∧ (next? (exec .modpow (running .modpow 5 3 13))).isSome := by decide

theorem witness_ArithmeticResultsDependOnOperandsOnly :
    (running .xgcd 17 3120 0).Inv ∧ (sched (running .xgcd 17 3120 0) [.reset]).Inv
    ∧ (running .xgcd 17 3120 0).hidden.kstep = .run
    ∧ (sched (running .xgcd 17 3120 0) [.reset]).hidden.kstep = .run
    ∧ (running .xgcd 17 3120 0).operands = (sched (running .xgcd 17 3120 0) [.reset]).operands
    ∧ (next? (exec .gcd (running .xgcd 17 3120 0))).isSome ∧ (next? (exec .xgcd (running .xgcd 17 3120 0))).isSome
    ∧ (next? (exec .modinv (running .xgcd 17 3120 0))).isSome
    ∧ (next? (exec .modpow (running .xgcd 17 3120 0))).isSome :=
  ⟨running_inv, sched_inv running_inv _, by decide, by decide, by decide, by decide, by decide, by decide, by decide⟩

/-- K8, K9, and the largest sum that is legal. -/
theorem witness_KeygenInitChecksTheConfiguration :
    ((initWith { idle.conf with pspan := 0 }).hidden.kstep = .init
      ∧ (initWith { idle.conf with pspan := 0 }).conf.pspan = 0)
    ∧ 2 ^ 64 < (initWith { idle.conf with pbase := 0xFFFFFFFFFFFFFFFF, pspan := 2 }).conf.pbase.toNat
        + (initWith { idle.conf with pbase := 0xFFFFFFFFFFFFFFFF, pspan := 2 }).conf.pspan.toNat
    ∧ ¬ ((initWith { idle.conf with pbase := 0xFFFFFFFFFFFFFFFF, pspan := 1 }).conf.pspan = 0
        ∨ (initWith { idle.conf with pbase := 0xFFFFFFFFFFFFFFFF, pspan := 1 }).conf.qspan = 0
        ∨ 2 ^ 64 < (initWith { idle.conf with pbase := 0xFFFFFFFFFFFFFFFF, pspan := 1 }).conf.pbase.toNat
          + (initWith { idle.conf with pbase := 0xFFFFFFFFFFFFFFFF, pspan := 1 }).conf.pspan.toNat
        ∨ 2 ^ 64 < (initWith { idle.conf with pbase := 0xFFFFFFFFFFFFFFFF, pspan := 1 }).conf.qbase.toNat
          + (initWith { idle.conf with pbase := 0xFFFFFFFFFFFFFFFF, pspan := 1 }).conf.qspan.toNat) := by decide

/-- K7, the cap of 0; one attempt short of the cap; and the cap reached. -/
theorem witness_KeygenStartCountsTheAttempt :
    (keygenAt .start .exec .none).hidden.kstep = .start
    ∧ (keygenAt .start .exec .none).attempts.toNat < (keygenAt .start .exec .none).conf.maxtry.toNat
    ∧ { keygenAt .start .exec .none with attempts := 4 }.conf.maxtry.toNat
      ≤ { keygenAt .start .exec .none with attempts := 4 }.attempts.toNat
    ∧ { keygenAt .start .exec .none with attempts := 3 }.attempts.toNat
      < { keygenAt .start .exec .none with attempts := 3 }.conf.maxtry.toNat := by decide

theorem witness_KeygenDrawsTheIndices :
    ((given (keygenAt .pickP .waitRand (.rand 10)) (.rand 9)).world.answer = some (.rand 9)
      ∧ (given (keygenAt .pickP .waitRand (.rand 10)) (.rand 9)).hidden.kstep = .pickP
      ∧ (9 : Word).toNat < (keygenAt .pickP .waitRand (.rand 10)).conf.pspan.toNat)
    ∧ ((given (keygenAt .pickQ .waitRand (.rand 20)) (.rand 19)).world.answer = some (.rand 19)
      ∧ (given (keygenAt .pickQ .waitRand (.rand 20)) (.rand 19)).hidden.kstep = .pickQ
      ∧ (19 : Word).toNat < (keygenAt .pickQ .waitRand (.rand 20)).conf.qspan.toNat)
    ∧ (keygenAt .pickP .waitRand (.rand 10)).conf.pspan.toNat ≤ (10 : Word).toNat
    ∧ (keygenAt .pickQ .waitRand (.rand 20)).conf.qspan.toNat ≤ (20 : Word).toNat := by decide

theorem witness_KeygenFetchesThePrimes :
    ((given (keygenAt .fetchP .waitPrime (.prime 17)) (.found 61)).world.answer = some (.found 61)
      ∧ (given (keygenAt .fetchP .waitPrime (.prime 17)) (.found 61)).hidden.kstep = .fetchP)
    ∧ ((given (keygenAt .fetchQ .waitPrime (.prime 15)) (.found 53)).world.answer = some (.found 53)
      ∧ (given (keygenAt .fetchQ .waitPrime (.prime 15)) (.found 53)).hidden.kstep = .fetchQ)
    ∧ (given (keygenAt .fetchP .waitPrime (.prime 17)) .notFound).world.answer = some .notFound
    ∧ (given (keygenAt .fetchP .waitPrime (.prime 17)) .notFound).hidden.kstep = .fetchP
    ∧ (given (keygenAt .fetchQ .waitPrime (.prime 15)) .notFound).world.answer = some .notFound
    ∧ (given (keygenAt .fetchQ .waitPrime (.prime 15)) .notFound).hidden.kstep = .fetchQ := by decide

/-- K3 (`p * q >= 2^64`), K5 (`p = q = 2`), an answer of 1, K6 (`p = 2`, `q = 3`). -/
theorem witness_KeygenDerivesModulusAndTotient :
    (derivingFrom 61 53).hidden.kstep = .derive
    ∧ (derivingFrom 0xFFFFFFFFFFFFFFC5 0xFFFFFFFFFFFFFFAD).hidden.p.toNat = 18446744073709551557
    ∧ (derivingFrom 0xFFFFFFFFFFFFFFC5 0xFFFFFFFFFFFFFFAD).hidden.q.toNat = 18446744073709551533
    ∧ 2 ^ 64 ≤ 18446744073709551557 * 18446744073709551533
    ∧ (derivingFrom 2 2).hidden.p.toNat = 2 ∧ (derivingFrom 2 2).hidden.q.toNat = 2 ∧ 2 * 2 < 2 ^ 64
    ∧ (derivingFrom 1 53).hidden.p.toNat = 1 ∧ 1 < 2 ∧ 1 * 53 < 2 ^ 64
    ∧ (derivingFrom 2 3).hidden.p.toNat = 2 ∧ (derivingFrom 2 3).hidden.q.toNat = 3 ∧ ¬ (2 = 2 ∧ 3 = 2) := by
  decide

/-- P2's draw 16, P3's rejected draw 2, and the first draw out of range, 3119. -/
theorem witness_KeygenDrawsTheExponent :
    (given (drawing 61 53 3233 3120) (.rand 16)).hidden.kstep = .drawE
    ∧ (given (drawing 61 53 3233 3120) (.rand 16)).world.answer = some (.rand 16)
    ∧ (16 : Word).toNat < (drawing 61 53 3233 3120).hidden.tphi.toNat - 1
    ∧ Nat.gcd (1 + (16 : Word).toNat) (drawing 61 53 3233 3120).hidden.tphi.toNat = 1
    ∧ (2 : Word).toNat < (drawing 61 53 3233 3120).hidden.tphi.toNat - 1
    ∧ Nat.gcd (1 + (2 : Word).toNat) (drawing 61 53 3233 3120).hidden.tphi.toNat ≠ 1
    ∧ (drawing 61 53 3233 3120).hidden.tphi.toNat - 1 ≤ (3119 : Word).toNat
    ∧ (3118 : Word).toNat < (drawing 61 53 3233 3120).hidden.tphi.toNat - 1 := by decide

/-- The key of P2, and P3's failed attempt (`d = 353`). -/
theorem witness_KeygenFinishValidatesTheKey :
    (finishing 61 53 3233 3120 17).Inv ∧ (finishing 61 53 3233 3120 17).hidden.kstep = .finish
    ∧ (finishing 61 53 3233 3120 17).hidden.tn.toNat = 3233
    ∧ (finishing 61 53 3233 3120 17).hidden.tphi.toNat = 3120
    ∧ (finishing 61 53 3233 3120 17).hidden.te.toNat = 17
    ∧ (17 * 2753 % 3120 = 1 ∧ modPow (modPow 5 17 3233) 2753 3233 = 5)
    ∧ (finishing 43 43 1849 1764 5).Inv ∧ (finishing 43 43 1849 1764 5).hidden.kstep = .finish
    ∧ 5 * 353 % 1764 = 1 ∧ modPow (modPow 5 5 1849) 353 1849 = 220 :=
  ⟨finishing_inv, by decide, by decide, by decide, by decide, by decide, finishing_square_inv, by decide, by decide,
    by decide⟩

theorem witness_EdCheckIsNeverWritten :
    (finishing 43 43 1849 1764 5).Inv ∧ (finishing 43 43 1849 1764 5).status.lastFail ≠ .edCheck
    ∧ (next? (step (finishing 43 43 1849 1764 5))).isSome := ⟨finishing_square_inv, by decide, by decide⟩

theorem witness_ValidKeyMaterial :
    (finishing 61 53 3233 3120 17).Inv ∧ (finishing 61 53 3233 3120 17).hidden.kstep = .finish
    ∧ (next? (step (finishing 61 53 3233 3120 17))).map
        (fun t => (t.status.done, t.status.err, t.hidden.p.toNat, t.hidden.q.toNat))
      = some (true, .none, 61, 53) := ⟨finishing_inv, by decide, by decide⟩

theorem witness_RoundTripClosesForDistinctPrimes :
    Nat.Prime 61 ∧ Nat.Prime 53 ∧ 61 ≠ 53 ∧ 17 * 2753 % ((61 - 1) * (53 - 1)) = 1 ∧ 3232 < 61 * 53 := by
  refine ⟨?_, ?_, by decide, by decide, by decide⟩ <;> norm_num

theorem witness_DistinctPrimesAlwaysGiveAValidKey :
    (finishing 61 53 3233 3120 17).Inv ∧ (finishing 61 53 3233 3120 17).hidden.kstep = .finish
    ∧ Nat.Prime (finishing 61 53 3233 3120 17).hidden.p.toNat
    ∧ Nat.Prime (finishing 61 53 3233 3120 17).hidden.q.toNat
    ∧ (finishing 61 53 3233 3120 17).hidden.p ≠ (finishing 61 53 3233 3120 17).hidden.q := by
  refine ⟨finishing_inv, by decide, ?_, ?_, by decide⟩
  · show Nat.Prime 61; norm_num
  · show Nat.Prime 53; norm_num

theorem witness_KeygenFrame :
    ((next? (exec .keygen (drawing 61 53 3233 3120))).isSome
      ∧ (drawing 61 53 3233 3120).hidden.kstep ≠ .idle ∧ (drawing 61 53 3233 3120).hidden.kstep ≠ .start)
    ∧ (next? (exec .keygen (finishing 43 43 1849 1764 5))).map (fun t => t.status.lastFail) = some .roundtrip
    ∧ (next? (exec .keygen (finishing 61 53 3233 3120 17))).map (fun t => t.keys.n) = some 3233 := by decide

theorem witness_PrimeSourceFollowsItsTable :
    [(2 : Word), 3].length ≤ (2 : Word).toNat
    ∧ [(2 : Word), 3][(1 : Word).toNat]? = some 3
    ∧ (false = false ∨ true = true) ∧ (true = true ∧ false = false)
    ∧ (keygenAt .fetchP .waitPrime (.prime 17)).hidden.req = .prime 17
    ∧ (sched (keygenAt .fetchP .waitPrime (.prime 17)) [.serve true]).world.script = .serve true :: [] := by decide

theorem witness_UnsolicitedAnswersAreDropped :
    ((∀ b, idle.hidden.req ≠ .rand b) ∧ (sched idle [.answer (.rand 3)]).world.script = .answer (.rand 3) :: [])
    ∧ ((∀ i, (drawing 61 53 3233 3120).hidden.req ≠ .prime i) ∧ (∀ r, Answer.found 61 ≠ .rand r)
      ∧ (sched (drawing 61 53 3233 3120) [.answer (.found 61)]).world.script = .answer (.found 61) :: [])
    ∧ (∀ i, idle.hidden.req ≠ .prime i) ∧ (sched idle [.serve true]).world.script = .serve true :: [] :=
  ⟨⟨(fun _ h => by cases h), rfl⟩, ⟨(fun _ h => by cases h), (fun _ h => by cases h), rfl⟩,
    (fun _ h => by cases h), rfl⟩

theorem witness_WaitingEngineStaysAsItIs :
    (idle.hidden.kstep ∈ [KStep.idle, .pickP, .pickQ, .fetchP, .fetchQ, .drawE] ∧ idle.world.script = [])
    ∧ (drawing 61 53 3233 3120).hidden.kstep ∈ [KStep.idle, .pickP, .pickQ, .fetchP, .fetchQ, .drawE]
    ∧ (drawing 61 53 3233 3120).world.script = [] := by decide

/-- The rejected draw of P3, twice, and without end. -/
theorem witness_NonCoprimeDrawsLeaveKeygenInDrawE :
    (sched (drawing 61 53 3233 3120) [.answer (.rand 2), .answer (.rand 2)]).Inv
    ∧ (drawing 61 53 3233 3120).hidden.kstep = .drawE
    ∧ (∀ r ∈ [(2 : Word), 2], r.toNat < (drawing 61 53 3233 3120).hidden.tphi.toNat - 1
        ∧ Nat.gcd (1 + r.toNat) (drawing 61 53 3233 3120).hidden.tphi.toNat ≠ 1)
    ∧ (sched (drawing 61 53 3233 3120) [.answer (.rand 2), .answer (.rand 2)]).world.script
      = [(2 : Word), 2].map (fun r => Event.answer (.rand r)) ++ []
    ∧ (drawing 61 53 3233 3120).Inv ∧ (drawing 61 53 3233 3120).world.script = []
    ∧ ∃ rs : Nat → Word, ∀ k, (rs k).toNat < (drawing 61 53 3233 3120).hidden.tphi.toNat - 1
        ∧ Nat.gcd (1 + (rs k).toNat) (drawing 61 53 3233 3120).hidden.tphi.toNat ≠ 1 := by
  have two : (2 : Word).toNat < (drawing 61 53 3233 3120).hidden.tphi.toNat - 1
      ∧ Nat.gcd (1 + (2 : Word).toNat) (drawing 61 53 3233 3120).hidden.tphi.toNat ≠ 1 := by decide
  refine ⟨sched_inv drawing_inv _, by decide, fun r hr => ?_, by decide, drawing_inv, by decide, fun _ => 2,
    fun _ => two⟩
  obtain rfl : r = 2 := by simpa using hr
  exact two

/-! A fair run: P2's draw 16, then turns of the engine, which validates the key and stays idle. -/

/-- The schedule of the fair run. -/
def fairSched : Nat → Event
  | 0 => .answer (.rand 16)
  | _ + 1 => .mie

/-- The states of the fair run. -/
def fairRun : Nat → State
  | 0 => drawing 61 53 3233 3120
  | 1 => finishing 61 53 3233 3120 17
  | _ + 2 =>
    { finishing 61 53 3233 3120 17 with
      keys := { n := 3233, e := 17, d := 2753, phi := 3120 }
      status := { idle.status with done := true }
      hidden := { (finishing 61 53 3233 3120 17).hidden with kstep := .idle } }

theorem fairRun_runs (n : Nat) : runUnder fairSched (fairRun 0) n = .next (fairRun n) := by
  induction n with
  | zero => rfl
  | succ n ih =>
    rw [runUnder, ih]
    match n with
    | 0 => exact eq_next (by decide)
    | 1 => exact eq_next (by decide)
    | _ + 2 => rfl

theorem fairRun_fair : Fair fairSched fairRun where
  turns n h := ⟨n + 1, by omega, by match n with | 0 | 1 | _ + 2 => rfl⟩
  answered n h := by
    match n with
    | 0 => exact ⟨0, le_rfl, rfl⟩
    | 1 => exact absurd rfl h
    | _ + 2 => exact absurd rfl h
  coprime n h := absurd (h (n + 2) (by omega)) (by show KStep.idle ≠ .drawE; decide)

/-- The fair run; a request that no turn of the engine answers; and the rejected draw of P3 without end. -/
theorem witness_KeygenEndsUnderFairness :
    ((fairRun 0).Inv ∧ (fairRun 0).status.busy = true ∧ decode (fairRun 0).cmd = .command .keygen
      ∧ (∀ n, runUnder fairSched (fairRun 0) n = .next (fairRun n))
      ∧ (∀ n, (fairRun n).nextEvent (fairSched n) ≠ .reset) ∧ Fair fairSched fairRun)
    ∧ ((∀ n, runUnder (fun _ => .mie) (drawing 61 53 3233 3120) n = .next (drawing 61 53 3233 3120))
      ∧ (drawing 61 53 3233 3120).hidden.req ≠ .none
      ∧ ((drawing 61 53 3233 3120).nextEvent .mie).answers (drawing 61 53 3233 3120).hidden.req = false)
    ∧ ((∀ n, runUnder (fun _ => .answer (.rand 2)) (drawing 61 53 3233 3120) n
          = .next (drawing 61 53 3233 3120))
      ∧ (drawing 61 53 3233 3120).nextEvent (.answer (.rand 2)) = .answer (.rand 2)
      ∧ (2 : Word).toNat < (drawing 61 53 3233 3120).hidden.tphi.toNat - 1
      ∧ Nat.gcd (1 + (2 : Word).toNat) (drawing 61 53 3233 3120).hidden.tphi.toNat ≠ 1) := by
  refine ⟨⟨drawing_inv, by decide, by decide, fairRun_runs, fun n => ?_, fairRun_fair⟩,
    ⟨fun n => ?_, by decide, by decide⟩, fun n => ?_, by decide, by decide, by decide⟩
  · match n with
    | 0 | 1 | _ + 2 => exact fun h => by cases h
  · induction n with
    | zero => rfl
    | succ n ih => rw [runUnder, ih]; exact eq_next (by decide)
  · induction n with
    | zero => rfl
    | succ n ih => rw [runUnder, ih]; exact eq_next (by decide)

theorem witness_EveryStepKeepsTheInvariant :
    (finishing 61 53 3233 3120 17).Inv ∧ (next? (step (finishing 61 53 3233 3120 17))).isSome :=
  ⟨finishing_inv, by decide⟩

/-- A state that an accepted command leaves is reached from reset. -/
theorem accepted_reachable (i : Instr) (script : List Event) :
    Reachable (accept i { State.boot script with cmd := encode i }) := by
  refine .step (State.boot (.write 0x00 (encode i) :: script)) _ (.boot _) ?_
  cases i <;> rfl

/-- KEYGEN with `PSPAN = 0` written (K8), at `K_INIT`, its turn to come. -/
def badInit : State :=
  { accept .keygen { storeReg .pspan 0 (State.boot [.mie]) with cmd := encode .keygen } with
    world := (State.boot [.mie]).world }

/-- It is reached from reset by the host's two writes. -/
theorem badInit_reachable : Reachable badInit := by
  refine .step (storeReg .pspan 0 (State.boot [.write 0x00 0x5, .mie])) _ (.step (State.boot
    [.write 0x0F 0, .write 0x00 0x5, .mie]) _ (.boot _) ?_) ?_ <;> rfl

/-- `XGCD` and KEYGEN in progress, reached from reset; and KEYGEN about to end with `CONFIG` (K8), reached from
reset. -/
theorem witness_ReachableStatesMeetTheStatedInvariants :
    (Reachable (accept .xgcd { State.boot [] with cmd := encode .xgcd })
      ∧ (accept .xgcd { State.boot [] with cmd := encode .xgcd }).status.busy = true
      ∧ (encode .xgcd).extractLsb' 0 8 = 0x2#8)
    ∧ (Reachable (accept .keygen { State.boot [] with cmd := encode .keygen })
      ∧ (accept .keygen { State.boot [] with cmd := encode .keygen }).status.busy = true
      ∧ (encode .keygen).extractLsb' 0 8 = 0x5#8)
    ∧ (Reachable badInit ∧ badInit.status.busy = true ∧ badInit.cmd.extractLsb' 0 8 = 0x5#8
      ∧ (next? (step badInit)).map (fun t => (t.status.busy, t.status.done, t.status.err))
        = some (false, true, .config)) :=
  ⟨⟨accepted_reachable .xgcd [], rfl, by decide⟩, ⟨accepted_reachable .keygen [], rfl, by decide⟩,
    badInit_reachable, rfl, by decide, rfl⟩

theorem witness_NoStepFaultsFromTheInvariant :
    (sched idle [.busRead 4 8]).Inv
    ∧ (∃ r, step (sched idle [.busRead 4 8]) = .refused r) := ⟨sched_inv idle_inv _, _, rfl⟩

/-- A Valid end, an acceptance over an old key, and a reset over one. -/
theorem witness_KeyRegistersChangeOnlyByKeygenOrReset :
    (finishing 61 53 3233 3120 17).Inv
    ∧ (next? (step (finishing 61 53 3233 3120 17))).map (fun t => decide (t.keys ≠ idle.keys)) = some true
    ∧ (next? (step (sched { idle with keys := { n := 6, e := 1, d := 1, phi := 2 } } [.write 0 5]))).map
      (fun t => t.keys.n) = some 0
    ∧ (next? (step (sched { idle with keys := { n := 6, e := 1, d := 1, phi := 2 } } [.reset]))).map
      (fun t => t.keys.n) = some 0 := ⟨finishing_inv, by decide, by decide, by decide⟩

theorem witness_OnlyTheHostWritesItsRegisters :
    (next? (step (sched idle [.write 0x00 6]))).map (fun t => t.cmd) = some 6
    ∧ (next? (step (sched idle [.write 0x02 7]))).map (fun t => t.operands.a) = some 7
    ∧ (next? (step (sched idle [.write 0x0D 7]))).map (fun t => t.conf.maxtry) = some 7 := by decide

/-- A Valid end; and an error, `K_INIT` with `PSPAN = 0`. -/
theorem witness_CommandsEndInOneStep :
    (finishing 61 53 3233 3120 17).Inv ∧ (finishing 61 53 3233 3120 17).status.busy = true
    ∧ (∀ rest, (finishing 61 53 3233 3120 17).world.script ≠ .reset :: rest)
    ∧ (next? (step (finishing 61 53 3233 3120 17))).map (fun t => t.status.busy) = some false
    ∧ (next? (step (initWith { idle.conf with pspan := 0 }))).map (fun t => (t.status.busy, t.status.err))
      = some (false, .config)
    ∧ (next? (step (running .modinv 0 0 5))).map (fun t => (t.status.busy, t.status.err))
      = some (false, .notCoprime) :=
  ⟨finishing_inv, by decide, (fun _ h => by cases h), by decide, by decide, by decide⟩

theorem witness_ErrorCodeStaysUntilTheNextCommand :
    State.Inv { sched idle [.write 0x00 1] with status := { idle.status with done := true, err := .illegalCmd } }
    ∧ (next? (step { sched idle [.write 0x00 1] with
        status := { idle.status with done := true, err := .illegalCmd } })).map (fun t => t.status.err)
      = some .none := by
  refine ⟨inv_of ?_ ?_ ?_ ?_ ?_ ?_, ?_⟩ <;> decide

theorem witness_ArithmeticCommandsRunToCompletion :
    (sched idle [.write 0x00 3, .mie]).Inv ∧ (sched idle [.write 0x00 3, .mie]).status.busy = false
    ∧ Instr.modinv ≠ .keygen ∧ decode 3#64 = .command .modinv
    ∧ (sched idle [.write 0x00 3, .mie]).world.script = .write 0x00 3#64 :: .mie :: []
    ∧ (sched idle [.write 0x00 3, .mie]).operands.m.toNat = 0
    ∧ (decode 1#64 = .command .gcd ∧ decode 2#64 = .command .xgcd ∧ decode 4#64 = .command .modpow)
    ∧ State.Inv { sched idle [.write 0x00 3, .mie] with operands := { a := 17, b := 0, m := 3120 } }
    ∧ Nat.gcd 17 3120 = 1 ∧ Nat.gcd 6 9 ≠ 1 :=
  ⟨sched_inv idle_inv _, by decide, by decide, by decide, by decide, by decide, by decide,
    inv_of (by decide) (by decide) (by decide) (by decide) (by decide) (by decide), by decide, by decide⟩

/-- S2's key: the engine's turn to come; and nothing but a read of the result to come. -/
theorem witness_EncryptUnitProgramEncrypts :
    ((sched idle (Script.encryptUnit 65 17 3233 ++ [.mie])).Inv
      ∧ (sched idle (Script.encryptUnit 65 17 3233 ++ [.mie])).status.busy = false
      ∧ 3233#64 ≠ 0
      ∧ (sched idle (Script.encryptUnit 65 17 3233 ++ [.mie])).world.script
        = Script.encryptUnit 65 17 3233 ++ .mie :: [])
    ∧ (sched idle (Script.encryptUnit 65 17 3233 ++ [.read 0x05])).world.script
      = Script.encryptUnit 65 17 3233 ++ [.read 0x05]
    ∧ ∀ ev ∈ [Event.read 0x05], ev.ofProgram = true :=
  ⟨⟨sched_inv idle_inv _, by decide, by decide, by decide⟩, by decide, by decide⟩

/-- K6's numbers: `p = 2`, `q = 3`, `e = d = 1`; the two scripts. -/
theorem witness_KeygenRunsToAValidKey :
    (sched idle [.write 0x00 0x5, .mie, .mie, .answer (.rand 9), .answer (.rand 19), .answer (.found 2),
      .answer (.found 3), .mie, .answer (.rand 0), .mie]).Inv
    ∧ (sched idle (Script.keygen ++ [.mie, .mie, .answer (.rand 9), .answer (.rand 19), .answer (.found 2),
      .answer (.found 3), .mie, .answer (.rand 0), .mie] ++ [.read 0x08])).Inv
    ∧ idle.status.busy = false ∧ 1 ≤ idle.conf.pspan.toNat ∧ 1 ≤ idle.conf.qspan.toNat
    ∧ idle.conf.pbase.toNat + idle.conf.pspan.toNat ≤ 2 ^ 64
    ∧ idle.conf.qbase.toNat + idle.conf.qspan.toNat ≤ 2 ^ 64 ∧ 1 ≤ idle.conf.maxtry.toNat
    ∧ (9 : Word).toNat < idle.conf.pspan.toNat ∧ (19 : Word).toNat < idle.conf.qspan.toNat
    ∧ 6 = (2 : Word).toNat * (3 : Word).toNat ∧ 6 < 2 ^ 64
    ∧ 2 = ((2 : Word).toNat - 1) * ((3 : Word).toNat - 1) ∧ 2 ≤ 2
    ∧ 1 = 1 + (0 : Word).toNat ∧ 1 < 2 ∧ Nat.gcd 1 2 = 1
    ∧ (∀ d : Nat, d < 2 → 1 * d % 2 = 1 → (5 ^ 1 % 6) ^ d % 6 = 5) := by
  refine ⟨sched_inv idle_inv _, sched_inv idle_inv _, ?_⟩
  decide

end Sys2Proof.Tests
end

/-! ## Equal operands, equal results (00_scope.md R7)

At `K_RUN` each arithmetic step leaves its destination set and its code as a function of the operands alone.
A step that raises an error writes no result, so there the function also rests on `RES` having been cleared at
acceptance (10_state.md R31 (e)). -/

namespace Sys2Proof.Machine

theorem State.Inv.res_eq_zero {s : State} (hi : s.Inv) (hk : s.hidden.kstep = .run) : s.results.res = 0 := by
  obtain ⟨-, -, -, -, ⟨hres, -, -⟩, -⟩ := hi
  exact hres hk

/-! ### The code and `RES` as functions of the operands -/

theorem gcdBody_err (s : State) :
    (gcdBody s).status.err = if s.opA = 0 ∧ s.opB = 0 then .bothZero else .none := by
  split
  · next h => simp [gcdBody_zero s h.1 h.2]
  · next h => simp [gcdBody_nonzero s h]

/-- `RES` is the gcd even on two zeros, where it stays 0. -/
theorem gcdBody_res (s : State) (h0 : s.results.res = 0) :
    (gcdBody s).results.res = BitVec.ofNat 64 (Nat.gcd s.opA s.opB) := by
  by_cases h : s.opA = 0 ∧ s.opB = 0
  · simp [gcdBody_zero s h.1 h.2, h, h0]
  · simp [gcdBody_nonzero s h]

theorem modinvBody_err (s : State) :
    (modinvBody s).status.err
      = if s.opM = 0 then .modZero else if Nat.gcd s.opA s.opM = 1 then .none else .notCoprime := by
  rcases modinvBody_cases s with ⟨hm, e⟩ | ⟨hm, hg, e⟩ | ⟨hm, hg, e⟩
  · simp [e, hm]
  · simp [e, hm, hg]
  · simp [e, hm, hg]

theorem modinvBody_res (s : State) (h0 : s.results.res = 0) :
    (modinvBody s).results.res
      = if s.opM ≠ 0 ∧ Nat.gcd s.opA s.opM = 1 then BitVec.ofNat 64 (modInverse s.opA s.opM) else 0 := by
  rcases modinvBody_cases s with ⟨hm, e⟩ | ⟨hm, hg, e⟩ | ⟨hm, hg, e⟩
  · simp [e, hm, h0]
  · simp [e, hg, h0]
  · simp [e, hm, hg]

theorem modpowBody_err (s : State) :
    (modpowBody s).status.err = if s.opM = 0 then .modZero else .none := by
  rcases modpowBody_cases s with ⟨hm, e⟩ | ⟨hm, e⟩ <;> simp [e, hm]

theorem modpowBody_res (s : State) (h0 : s.results.res = 0) :
    (modpowBody s).results.res
      = if s.opM = 0 then 0 else BitVec.ofNat 64 (s.opA ^ s.opB % s.opM) := by
  rcases modpowBody_cases s with ⟨hm, e⟩ | ⟨hm, e⟩ <;> simp [e, hm, h0]

/-! ### Two states with equal operands -/

theorem gcdBody_depends_on_operands {s s' : State} (h0 : s.results.res = 0) (h0' : s'.results.res = 0)
    (hA : s.opA = s'.opA) (hB : s.opB = s'.opB) :
    (gcdBody s).results.res = (gcdBody s').results.res
      ∧ (gcdBody s).status.err = (gcdBody s').status.err := by
  rw [gcdBody_res s h0, gcdBody_res s' h0', gcdBody_err, gcdBody_err, hA, hB]
  exact ⟨rfl, rfl⟩

/-- `XGCD` raises no error, so its whole destination set is written anew, whatever stood there. -/
theorem xgcdBody_depends_on_operands {s s' : State} (hA : s.opA = s'.opA) (hB : s.opB = s'.opB) :
    (xgcdBody s).results = (xgcdBody s').results
      ∧ (xgcdBody s).status.xneg = (xgcdBody s').status.xneg
      ∧ (xgcdBody s).status.yneg = (xgcdBody s').status.yneg
      ∧ (xgcdBody s).status.err = (xgcdBody s').status.err := by
  rw [xgcdBody_eq, xgcdBody_eq, hA, hB]
  exact ⟨rfl, rfl, rfl, rfl⟩

theorem modinvBody_depends_on_operands {s s' : State} (h0 : s.results.res = 0) (h0' : s'.results.res = 0)
    (hA : s.opA = s'.opA) (hM : s.opM = s'.opM) :
    (modinvBody s).results.res = (modinvBody s').results.res
      ∧ (modinvBody s).status.err = (modinvBody s').status.err := by
  rw [modinvBody_res s h0, modinvBody_res s' h0', modinvBody_err, modinvBody_err, hA, hM]
  exact ⟨rfl, rfl⟩

theorem modpowBody_depends_on_operands {s s' : State} (h0 : s.results.res = 0) (h0' : s'.results.res = 0)
    (hA : s.opA = s'.opA) (hB : s.opB = s'.opB) (hM : s.opM = s'.opM) :
    (modpowBody s).results.res = (modpowBody s').results.res
      ∧ (modpowBody s).status.err = (modpowBody s').status.err := by
  rw [modpowBody_res s h0, modpowBody_res s' h0', modpowBody_err, modpowBody_err, hA, hB, hM]
  exact ⟨rfl, rfl⟩

/-- Settles O32, command by command: the step at `K_RUN` is the command's body, and what the body leaves in the
destination set and `ERR` is a function of the operands once `RES` reads 0, as the invariant says. -/
theorem arithmeticResultsDependOnOperandsOnly : Obligations.ArithmeticResultsDependOnOperandsOnly := by
  intro s s' t t' hi hi' hk hk' ha
  have h0 := hi.res_eq_zero hk
  have h0' := hi'.res_eq_zero hk'
  have hA : s.opA = s'.opA := congrArg BitVec.toNat ha
  have hB (hb : s.operands.b = s'.operands.b) : s.opB = s'.opB := congrArg BitVec.toNat hb
  have hM (hm : s.operands.m = s'.operands.m) : s.opM = s'.opM := congrArg BitVec.toNat hm
  refine ⟨fun hb h h' => ?gcd, fun hb h h' => ?xgcd, fun hm h h' => ?modinv, fun hb hm h h' => ?modpow⟩
  case gcd =>
    cases (exec_gcd_run s hk).symm.trans h
    cases (exec_gcd_run s' hk').symm.trans h'
    exact gcdBody_depends_on_operands h0 h0' hA (hB hb)
  case xgcd =>
    cases (exec_xgcd_run s hk).symm.trans h
    cases (exec_xgcd_run s' hk').symm.trans h'
    exact xgcdBody_depends_on_operands hA (hB hb)
  case modinv =>
    cases (exec_modinv_run s hk).symm.trans h
    cases (exec_modinv_run s' hk').symm.trans h'
    exact modinvBody_depends_on_operands h0 h0' hA (hM hm)
  case modpow =>
    cases (exec_modpow_run s hk).symm.trans h
    cases (exec_modpow_run s' hk').symm.trans h'
    exact modpowBody_depends_on_operands h0 h0' hA (hB hb) (hM hm)

end Sys2Proof.Machine


/-! ## The invariant, step by step of `kstep` (10_state.md R31)

What the invariant says is said once for each kind of `kstep`: no command in progress, an arithmetic command, a
KEYGEN. Each operation of the model is then shown to lead from one of these forms to another. -/

namespace Sys2Proof.Machine

/-! ### The invariant by the kind of `kstep` -/

@[simp] theorem KStep.ofKeygen_iff (k : KStep) : k.ofKeygen = true ↔ k ≠ .idle ∧ k ≠ .run := by
  cases k <;> simp [KStep.ofKeygen]

@[simp] theorem KStep.inAttempt_iff (k : KStep) :
    k.inAttempt = true ↔ k.ofKeygen = true ∧ k ≠ .init ∧ k ≠ .start := by
  cases k <;> simp [KStep.inAttempt]

@[simp] theorem KStep.afterPickP_iff (k : KStep) : k.afterPickP = true ↔ k.inAttempt = true ∧ k ≠ .pickP := by
  cases k <;> simp [KStep.afterPickP]

@[simp] theorem KStep.afterPickQ_iff (k : KStep) : k.afterPickQ = true ↔ k.afterPickP = true ∧ k ≠ .pickQ := by
  cases k <;> simp [KStep.afterPickQ]

@[simp] theorem KStep.afterDerive_iff (k : KStep) : k.afterDerive = true ↔ k = .drawE ∨ k = .finish := by
  cases k <;> simp [KStep.afterDerive]

/-- The registers as every step of KEYGEN that does not end it keeps them: it is the command in progress, no
answer is on a port, the key registers read 0 and the cap on attempts is kept. -/
structure State.InKeygen (s : State) : Prop where
  port     : s.PortIdle
  busy     : s.status.busy = true
  done     : s.status.done = false
  err      : s.status.err = .none
  command  : decode s.cmd = .command .keygen
  keys     : s.keys = { n := 0, e := 0, d := 0, phi := 0 }
  attempts : s.attempts.toNat ≤ s.conf.maxtry.toNat

/-- Outside KEYGEN the hidden values of R100 are bound by nothing. -/
theorem keygenData_of_not_ofKeygen {s : State} (hk : s.hidden.kstep.ofKeygen = false) : s.KeygenData := by
  have hk : s.hidden.kstep = .idle ∨ s.hidden.kstep = .run := by
    cases h : s.hidden.kstep <;> rw [h] at hk <;> simp_all [KStep.ofKeygen]
  rcases hk with h | h <;> simp [State.KeygenData, h]

theorem inv_iff_of_idle {s : State} (hk : s.hidden.kstep = .idle) :
    s.Inv ↔ s.PortIdle ∧ s.status.busy = false ∧ s.status.phase = .idle
      ∧ (s.status.err ≠ .none → s.status.done = true) ∧ s.hidden.req = .none := by
  constructor
  · rintro ⟨hp, ⟨-, hb, hph, he⟩, -, hr, -, -⟩
    exact ⟨hp, hb.2 hk, by rw [hph, hk]; rfl, he, by rw [hr, requestFor, hk]⟩
  · rintro ⟨hp, hb, hph, he, hr⟩
    have hof : s.hidden.kstep.ofKeygen = false := by rw [hk]; rfl
    exact ⟨hp, ⟨by simp [hb], by simp [hb, hk], by rw [hph, hk]; rfl, he⟩, ⟨by simp [hk], by simp [hof]⟩,
      by rw [State.RequestAgrees, hr, requestFor, hk], ⟨by simp [hk], by simp [hk], by simp [hof]⟩,
      keygenData_of_not_ofKeygen hof⟩

theorem inv_iff_of_run {s : State} (hk : s.hidden.kstep = .run) :
    s.Inv ↔ s.PortIdle ∧ s.status.busy = true ∧ s.status.done = false ∧ s.status.err = .none
      ∧ s.status.phase = .exec ∧ s.hidden.req = .none ∧ decodesArithmetic (decode s.cmd) = true
      ∧ s.results.res = 0
      ∧ (decode s.cmd = .command .xgcd →
          s.results = { res := 0, xlo := 0, ylo := 0 } ∧ s.status.xneg = false ∧ s.status.yneg = false) := by
  constructor
  · rintro ⟨hp, ⟨hbd, hb, hph, he⟩, ⟨hc, -⟩, hr, ⟨hres, hx, -⟩, -⟩
    rw [State.RequestAgrees, requestFor, hk] at hr
    have hb : s.status.busy = true := by simpa [hk] using hb
    have hd : s.status.done = false := by simpa [hb] using hbd
    exact ⟨hp, hb, hd, by simpa [hd] using he, by rw [hph, hk, hr]; rfl, hr, hc hk, hres hk, hx hk⟩
  · rintro ⟨hp, hb, hd, he, hph, hr, hc, hres, hx⟩
    have hof : s.hidden.kstep.ofKeygen = false := by rw [hk]; rfl
    exact ⟨hp, ⟨by simp [hd], by simp [hb, hk], by rw [hph, hk, hr]; rfl, by simp [he]⟩,
      ⟨fun _ => hc, by simp [hof]⟩, by rw [State.RequestAgrees, hr, requestFor, hk],
      ⟨fun _ => hres, fun _ => hx, by simp [hof]⟩, keygenData_of_not_ofKeygen hof⟩

theorem inv_iff_of_keygen {s : State} (hk : s.hidden.kstep.ofKeygen = true) :
    s.Inv ↔ s.InKeygen ∧ s.status.phase = phaseOf s.hidden.kstep s.hidden.req ∧ s.RequestAgrees
      ∧ s.KeygenData := by
  obtain ⟨hidle, hrun⟩ := (KStep.ofKeygen_iff _).1 hk
  constructor
  · rintro ⟨hp, ⟨hbd, hb, hph, he⟩, ⟨-, hc⟩, hr, ⟨-, -, hkeys⟩, hdata⟩
    have hb : s.status.busy = true := by simpa [hidle] using hb
    have hd : s.status.done = false := by simpa [hb] using hbd
    exact ⟨⟨hp, hb, hd, by simpa [hd] using he, hc hk, hkeys hk, hdata.1 hk⟩, hph, hr, hdata⟩
  · rintro ⟨hin, hph, hr, hdata⟩
    exact ⟨hin.port, ⟨by simp [hin.done], by simp [hin.busy, hidle], hph, by simp [hin.err]⟩,
      ⟨fun h => absurd h hrun, fun _ => hin.command⟩, hr,
      ⟨fun h => absurd h hrun, fun h => absurd h hrun, fun _ => hin.keys⟩, hdata⟩

theorem State.Inv.req_eq {s : State} (hi : s.Inv) : s.hidden.req = requestFor s := by
  obtain ⟨-, -, -, hr, -, -⟩ := hi
  exact hr

theorem State.Inv.phase_eq {s : State} (hi : s.Inv) : s.status.phase = phaseOf s.hidden.kstep (requestFor s) := by
  obtain ⟨-, ⟨-, -, hph, -⟩, -, hr, -, -⟩ := hi
  rw [hph, hr]

/-- Inside an attempt the configuration is legal and at least one attempt is counted (43_keygen.md R101,
R102). -/
theorem State.Inv.inAttempt {s : State} (hi : s.Inv) (hk : s.hidden.kstep.inAttempt = true) :
    s.InKeygen ∧ s.conf.legal = true ∧ 1 ≤ s.attempts.toNat := by
  have hof := ((KStep.inAttempt_iff _).1 hk).1
  obtain ⟨hin, -, -, -, -, hlegal, hatt, -⟩ := (inv_iff_of_keygen hof).1 hi
  exact ⟨hin, hlegal hof (by rintro h; simp [h] at hk), hatt hk⟩

/-- The invariant says nothing of the steps to come nor of the replies. -/
theorem State.Inv.inWorld {s : State} (hi : s.Inv) {w : World} (hw : w.answer = none) :
    State.Inv { s with world := w } := ⟨hw, hi.2⟩

theorem State.Inv.idle {s : State} (hi : s.Inv) (hb : s.status.busy = false) : s.hidden.kstep = .idle := by
  obtain ⟨-, ⟨-, hidle, -, -⟩, -⟩ := hi
  exact hidle.1 hb

theorem Conf.legal_iff (c : Conf) :
    c.legal = true ↔ 1 ≤ c.pspan.toNat ∧ 1 ≤ c.qspan.toNat
      ∧ c.pbase.toNat + c.pspan.toNat ≤ 2 ^ 64 ∧ c.qbase.toNat + c.qspan.toNat ≤ 2 ^ 64 := by
  simp [Conf.legal, and_assoc]

/-! ### The end of a command, acceptance, and the arithmetic commands -/

theorem endCommand_inv (code : ErrCode) {s : State} (hp : s.PortIdle) : (endCommand code s).Inv :=
  (inv_iff_of_idle rfl).2 ⟨hp, rfl, rfl, fun _ => rfl, rfl⟩

/-- Acceptance leads from an idle engine to the first step of the command that `CMD` names (30_encoding.md
R66). -/
theorem accept_inv {s : State} {i : Instr} (hi : s.Inv) (hk : s.hidden.kstep = .idle)
    (hd : decode s.cmd = .command i) : (accept i s).Inv := by
  obtain ⟨hp, -, -, -, hr⟩ := (inv_iff_of_idle hk).1 hi
  cases i with
  | keygen =>
    refine (inv_iff_of_keygen rfl).2 ⟨⟨hp, rfl, rfl, rfl, hd, rfl, Nat.zero_le _⟩, ?_, hr, ?_⟩
    · change Phase.exec = phaseOf .init s.hidden.req
      rw [hr]; rfl
    · simp [State.KeygenData, accept, clearDestination, firstStep]
  | gcd | xgcd | modinv | modpow =>
    exact (inv_iff_of_run rfl).2 ⟨hp, rfl, rfl, rfl, rfl, hr, by rw [accept_cmd, hd]; rfl, rfl,
      by rw [accept_cmd, hd]; simp [accept, clearDestination]⟩

/-- What an arithmetic command's meaning answers with: acceptance, or the end of the command after the writes
to its destination set that it makes (10_state.md R30). -/
theorem exec_arithmetic_next {i : Instr} (hi : i ≠ .keygen) {s t : State} (h : exec i s = .next t) :
    (s.hidden.kstep = .idle ∧ t = accept i s)
    ∨ (s.hidden.kstep = .run
        ∧ ((∃ code, t = endCommand code s)
          ∨ (∃ v, t = endCommand .none (s.putRes v))
          ∨ (i = .xgcd ∧ ∃ v x y, t = endCommand .none ((s.putRes v).putCoefficients x y)))) := by
  cases i with
  | keygen => exact absurd rfl hi
  | gcd =>
    refine (runArithmetic_next _ _ s t h).imp_right (And.imp_right fun ht => ?_)
    by_cases h0 : s.opA = 0 ∧ s.opB = 0
    · exact .inl ⟨_, ht.trans (gcdBody_zero s h0.1 h0.2)⟩
    · exact .inr (.inl ⟨_, ht.trans (gcdBody_nonzero s h0)⟩)
  | xgcd =>
    exact (runArithmetic_next _ _ s t h).imp_right
      (And.imp_right fun ht => .inr (.inr ⟨rfl, _, _, _, ht.trans (xgcdBody_eq s)⟩))
  | modinv =>
    refine (runArithmetic_next _ _ s t h).imp_right (And.imp_right fun ht => ?_)
    rcases modinvBody_cases s with ⟨-, e⟩ | ⟨-, -, e⟩ | ⟨-, -, e⟩
    · exact .inl ⟨_, ht.trans e⟩
    · exact .inl ⟨_, ht.trans e⟩
    · exact .inr (.inl ⟨_, ht.trans e⟩)
  | modpow =>
    refine (runArithmetic_next _ _ s t h).imp_right (And.imp_right fun ht => ?_)
    rcases modpowBody_cases s with ⟨-, e⟩ | ⟨-, e⟩
    · exact .inl ⟨_, ht.trans e⟩
    · exact .inr (.inl ⟨_, ht.trans e⟩)

/-! ### The steps of KEYGEN (43_keygen.md R101 to R116) -/

/-- What KEYGEN's steps write between its acceptance and its end keeps the registers of `InKeygen`. -/
theorem State.InKeygen.moved {s : State} (hin : s.InKeygen) (p : Phase) (c : FailCause) (h : Hidden) :
    State.InKeygen { s with status := { s.status with phase := p, lastFail := c }, hidden := h } :=
  ⟨hin.port, hin.busy, hin.done, hin.err, hin.command, hin.keys, hin.attempts⟩

theorem keygenInit_inv {s : State} (hi : s.Inv) (hk : s.hidden.kstep = .init) : (keygenInit s).Inv := by
  obtain ⟨hin, -⟩ := (inv_iff_of_keygen (by simp [hk])).1 hi
  rcases keygenInit_cases s with ⟨hlegal, e⟩ | ⟨-, e⟩ <;> rw [e]
  · have hr : s.hidden.req = .none := by rw [hi.req_eq, requestFor, hk]
    refine (inv_iff_of_keygen rfl).2 ⟨hin.moved _ _ _, ?_, hr, ?_⟩
    · simp [hi.phase_eq, requestFor, hk, hr, phaseOf]
    · simp [State.KeygenData, hin.attempts, hlegal]
  · exact endCommand_inv _ hin.port

theorem keygenStart_inv {s : State} (hi : s.Inv) (hk : s.hidden.kstep = .start) : (keygenStart s).Inv := by
  obtain ⟨hin, -, -, -, -, hlegal, -⟩ := (inv_iff_of_keygen (by simp [hk])).1 hi
  have hlegal : s.conf.legal = true := hlegal (by simp [hk]) (by simp [hk])
  rcases keygenStart_cases s with ⟨-, e⟩ | ⟨hlt, e⟩ <;> rw [e]
  · exact endCommand_inv _ hin.port
  · have hatt : (s.attempts + 1#64).toNat = s.attempts.toNat + 1 :=
      BitVec.toNat_add_of_lt (by have := s.conf.maxtry.isLt; simp; omega)
    refine (inv_iff_of_keygen rfl).2
      ⟨⟨hin.port, hin.busy, hin.done, hin.err, hin.command, hin.keys, hatt.trans_le hlt⟩, rfl, rfl, ?_⟩
    simp [-BitVec.toNat_add, State.KeygenData, hatt, hlegal, Nat.succ_le_of_lt hlt]

/-- A failed attempt goes back to `K_START` (43_keygen.md R116). -/
theorem failAttempt_inv {s : State} (hi : s.Inv) (hk : s.hidden.kstep = .derive ∨ s.hidden.kstep = .finish)
    (cause : FailCause) : (failAttempt cause s).Inv := by
  obtain ⟨hin, hlegal, -⟩ := hi.inAttempt (by rcases hk with h | h <;> simp [h])
  have hr : s.hidden.req = .none := by rcases hk with h | h <;> rw [hi.req_eq, requestFor, h]
  refine (inv_iff_of_keygen rfl).2 ⟨hin.moved _ _ _, ?_, hr, ?_⟩
  · rcases hk with h | h <;> simp [hi.phase_eq, requestFor, h, hr, phaseOf]
  · simp [State.KeygenData, hin.attempts, hlegal]

/-- An index drawn below its span does not wrap, under a legal configuration (43_keygen.md R103, R104). -/
theorem toNat_base_add_draw {base span r : Word} (hsum : base.toNat + span.toNat ≤ 2 ^ 64)
    (hr : r.toNat < span.toNat) : (base + r).toNat = base.toNat + r.toNat :=
  BitVec.toNat_add_of_lt (by omega)

theorem keygenPickP_inv {s : State} (hi : s.Inv) (hk : s.hidden.kstep = .pickP) (r : Word) :
    (keygenPickP r s).Inv := by
  obtain ⟨hin, hlegal, hatt⟩ := hi.inAttempt (by simp [hk])
  rcases keygenPickP_cases r s with ⟨-, e⟩ | ⟨hr, e⟩ <;> rw [e]
  · exact endCommand_inv _ hin.port
  · obtain ⟨-, -, hsum, -⟩ := (Conf.legal_iff _).1 hlegal
    refine (inv_iff_of_keygen rfl).2 ⟨hin.moved _ _ _, ?_, rfl, ?_⟩
    · simp [hi.phase_eq, requestFor, hk, phaseOf]
    · simp [-BitVec.toNat_add, State.KeygenData, hin.attempts, hlegal, hatt, toNat_base_add_draw hsum hr, hr]

theorem keygenPickQ_inv {s : State} (hi : s.Inv) (hk : s.hidden.kstep = .pickQ) (r : Word) :
    (keygenPickQ r s).Inv := by
  obtain ⟨hin, hlegal, hatt⟩ := hi.inAttempt (by simp [hk])
  obtain ⟨-, -, -, -, -, -, -, hip, -⟩ := (inv_iff_of_keygen (by simp [hk])).1 hi
  rcases keygenPickQ_cases r s with ⟨-, e⟩ | ⟨hr, e⟩ <;> rw [e]
  · exact endCommand_inv _ hin.port
  · obtain ⟨-, -, -, hsum⟩ := (Conf.legal_iff _).1 hlegal
    refine (inv_iff_of_keygen rfl).2 ⟨hin.moved _ _ _, rfl, rfl, ?_⟩
    simp [-BitVec.toNat_add, State.KeygenData, hin.attempts, hlegal, hatt, hip (by simp [hk]),
      toNat_base_add_draw hsum hr, hr]

/-- Either answer of the PrimeSource is taken; a prime moves on within the attempt and leaves the two indices
alone (43_keygen.md R105). -/
theorem keygenFetchP_inv {s : State} (hi : s.Inv) (hk : s.hidden.kstep = .fetchP) (answer : Option Word) :
    (keygenFetchP answer s).Inv := by
  obtain ⟨hin, hlegal, hatt⟩ := hi.inAttempt (by simp [hk])
  obtain ⟨-, -, -, -, -, -, -, hip, hiq, -⟩ := (inv_iff_of_keygen (by simp [hk])).1 hi
  cases answer with
  | none => exact endCommand_inv _ hin.port
  | some v =>
    refine (inv_iff_of_keygen rfl).2 ⟨hin.moved _ _ _, ?_, rfl, ?_⟩
    · simp [keygenFetchP, hi.phase_eq, requestFor, hk, phaseOf]
    · simp [keygenFetchP, State.KeygenData, hin.attempts, hlegal, hatt, hip (by simp [hk]), hiq (by simp [hk])]

theorem keygenFetchQ_inv {s : State} (hi : s.Inv) (hk : s.hidden.kstep = .fetchQ) (answer : Option Word) :
    (keygenFetchQ answer s).Inv := by
  obtain ⟨hin, hlegal, hatt⟩ := hi.inAttempt (by simp [hk])
  obtain ⟨-, -, -, -, -, -, -, hip, hiq, -⟩ := (inv_iff_of_keygen (by simp [hk])).1 hi
  cases answer with
  | none => exact endCommand_inv _ hin.port
  | some v =>
    refine (inv_iff_of_keygen rfl).2 ⟨hin.moved _ _ _, rfl, rfl, ?_⟩
    simp [keygenFetchQ, State.KeygenData, hin.attempts, hlegal, hatt, hip (by simp [hk]), hiq (by simp [hk])]

/-- A totient of at least 2 is no larger than the product, so it fits the word (43_keygen.md R109, R110). -/
theorem totient_le_mul {p q : Nat} (h : 2 ≤ totient p q) : totient p q ≤ (p * q : Nat) := by
  unfold totient at *
  rcases Nat.eq_zero_or_pos (p + q) with h0 | h0
  · obtain ⟨rfl, rfl⟩ : p = 0 ∧ q = 0 := by omega
    omega
  · omega

theorem keygenDerive_inv {s : State} (hi : s.Inv) (hk : s.hidden.kstep = .derive) : (keygenDerive s).Inv := by
  obtain ⟨hin, hlegal, hatt⟩ := hi.inAttempt (by simp [hk])
  obtain ⟨-, -, -, -, -, -, -, hip, hiq, -⟩ := (inv_iff_of_keygen (by simp [hk])).1 hi
  rcases keygenDerive_cases s with ⟨-, e⟩ | ⟨-, -, e⟩ | ⟨hn, hphi, e⟩ <;> rw [e]
  · exact failAttempt_inv hi (.inl hk) _
  · exact failAttempt_inv hi (.inl hk) _
  · have hle := totient_le_mul hphi
    have htphi : (BitVec.ofNat 64 (totient s.hidden.p.toNat s.hidden.q.toNat).toNat).toNat
        = (totient s.hidden.p.toNat s.hidden.q.toNat).toNat := by
      rw [BitVec.toNat_ofNat, Nat.mod_eq_of_lt (by omega)]
    have htn : (BitVec.ofNat 64 (s.hidden.p.toNat * s.hidden.q.toNat)).toNat
        = s.hidden.p.toNat * s.hidden.q.toNat := by
      rw [BitVec.toNat_ofNat, Nat.mod_eq_of_lt hn]
    refine (inv_iff_of_keygen rfl).2 ⟨hin.moved _ _ _, rfl, rfl, ?_⟩
    simp [-BitVec.toNat_ofNat, State.KeygenData, hin.attempts, hlegal, hatt, hip (by simp [hk]),
      hiq (by simp [hk]), htphi, htn]
    omega

theorem keygenDrawE_inv {s : State} (hi : s.Inv) (hk : s.hidden.kstep = .drawE) (r : Word) :
    (keygenDrawE r s).Inv := by
  obtain ⟨hin, hlegal, hatt⟩ := hi.inAttempt (by simp [hk])
  obtain ⟨-, -, -, hdata⟩ := (inv_iff_of_keygen (by simp [hk])).1 hi
  have ⟨_, _, _, _, hip, hiq, hderived, _⟩ := hdata
  rcases keygenDrawE_cases r s with ⟨-, e⟩ | ⟨-, -, e⟩ | ⟨hr, hg, e⟩ <;> rw [e]
  · exact endCommand_inv _ hin.port
  · refine (inv_iff_of_keygen (by simp [hk])).2 ⟨hin.moved _ _ _, ?_, ?_, hdata⟩
    · simp [hi.phase_eq, requestFor, hk, phaseOf]
    · simp [State.RequestAgrees, requestFor, hk]
  · have hte : (1#64 + r).toNat = 1 + r.toNat :=
      BitVec.toNat_add_of_lt (by have := s.hidden.tphi.isLt; simp; omega)
    refine (inv_iff_of_keygen rfl).2 ⟨hin.moved _ _ _, rfl, rfl, ?_⟩
    simp [-BitVec.toNat_add, State.KeygenData, hin.attempts, hlegal, hatt,
      hip (by simp [hk]), hiq (by simp [hk]), hderived (by simp [hk]), hte, hg]
    omega

theorem keygenFinish_inv {s : State} (hi : s.Inv) (hk : s.hidden.kstep = .finish) : (keygenFinish s).Inv := by
  rcases keygenFinish_cases s with ⟨-, e⟩ | ⟨-, -, e⟩ | ⟨-, -, e⟩ <;> rw [e]
  · exact failAttempt_inv hi (.inr hk) _
  · exact failAttempt_inv hi (.inr hk) _
  · exact endCommand_inv _ hi.1

/-! ### Every step of every agent -/

/-- Whatever answer stands on the port, `onRand` takes it off, so the reaction starts from a state of the
invariant. -/
theorem onRand_inv {s : State} {react : Word → State → State} (hs : s.takeAnswer.Inv)
    (hreact : ∀ r, (react r s.takeAnswer).Inv) : (onRand react s).Inv := by
  rcases onRand_cases react s with ⟨r, -, e⟩ | e <;> rw [e]
  · exact hreact r
  · exact hs

theorem onPrime_inv {s : State} {react : Option Word → State → State} (hs : s.takeAnswer.Inv)
    (hreact : ∀ v, (react v s.takeAnswer).Inv) : (onPrime react s).Inv := by
  rcases onPrime_cases react s with ⟨v, -, e⟩ | ⟨-, e⟩ | e <;> rw [e]
  · exact hreact _
  · exact hreact _
  · exact hs

/-- A command's meaning keeps the invariant of the state around the ports. An answer may be on its way when a
request is pending, and then only: at such a step the meaning takes it off the port. -/
theorem exec_inv {i : Instr} {s t : State} (ht : s.takeAnswer.Inv) (hport : s.hidden.req = .none → s.PortIdle)
    (hd : decode s.cmd = .command i) (h : exec i s = .next t) : t.Inv := by
  have hs (hr : requestFor s = .none) : s.Inv := ⟨hport (ht.req_eq.trans hr), ht.2⟩
  by_cases hi : i = .keygen
  · subst hi
    rcases exec_keygen_next s t h with ⟨hk, rfl⟩ | ⟨hk, rfl⟩ | ⟨hk, rfl⟩ | ⟨hk, rfl⟩ | ⟨hk, rfl⟩ | ⟨hk, rfl⟩
      | ⟨hk, rfl⟩ | ⟨hk, rfl⟩ | ⟨hk, rfl⟩ | ⟨hk, rfl⟩
    · exact accept_inv (hs (by simp [requestFor, hk])) hk hd
    · exact keygenInit_inv (hs (by simp [requestFor, hk])) hk
    · exact keygenStart_inv (hs (by simp [requestFor, hk])) hk
    · exact onRand_inv ht (keygenPickP_inv ht hk)
    · exact onRand_inv ht (keygenPickQ_inv ht hk)
    · exact onPrime_inv ht (keygenFetchP_inv ht hk)
    · exact onPrime_inv ht (keygenFetchQ_inv ht hk)
    · exact keygenDerive_inv (hs (by simp [requestFor, hk])) hk
    · exact onRand_inv ht (keygenDrawE_inv ht hk)
    · exact keygenFinish_inv (hs (by simp [requestFor, hk])) hk
  · rcases exec_arithmetic_next hi h with ⟨hk, rfl⟩ | ⟨hk, ht⟩
    · exact accept_inv (hs (by simp [requestFor, hk])) hk hd
    · have hp : s.PortIdle := (hs (by simp [requestFor, hk])).1
      rcases ht with ⟨_, rfl⟩ | ⟨_, rfl⟩ | ⟨-, _, _, _, rfl⟩
      · exact endCommand_inv _ hp
      · exact endCommand_inv _ hp
      · exact endCommand_inv _ hp

/-- The reset state meets the invariant in every world where no answer is on its way. -/
theorem reset_inv {w : World} (hw : w.answer = none) : State.Inv { State.reset with world := w } :=
  (inv_iff_of_idle rfl).2 ⟨hw, rfl, rfl, fun h => absurd rfl h, rfl⟩

/-- Storing a word while no command is in progress keeps the invariant, which then says nothing of `CMD`, the
operands and the configuration. -/
theorem storeReg_inv {s : State} (hs : s.Inv) (hb : s.status.busy = false) (r : Reg) (v : Word) :
    (storeReg r v s).Inv := by
  have hk := hs.idle hb
  have hs := (inv_iff_of_idle hk).1 hs
  refine (inv_iff_of_idle (by rw [storeReg_hidden, hk])).2 ?_
  rwa [State.PortIdle, storeReg_world, storeReg_status, storeReg_hidden]

theorem startCommand_inv {w : Word} {s t : State} (hs : s.Inv) (hb : s.status.busy = false)
    (h : startCommand w s = .next t) : t.Inv := by
  have hk := hs.idle hb
  have hst := storeReg_inv hs hb .cmd w
  rcases startCommand_next w s t hk h with ⟨i, hd, rfl⟩ | ⟨-, rfl⟩
  · exact accept_inv hst hk hd
  · obtain ⟨hp, hb, hph, -, hr⟩ := (inv_iff_of_idle (s := storeReg .cmd w s) hk).1 hst
    exact (inv_iff_of_idle (s := illegalCommand (storeReg .cmd w s)) hk).2 ⟨hp, hb, hph, fun _ => rfl, hr⟩

theorem State.Inv.popped {s : State} (hs : s.Inv) (rest : List Event) : (s.popped rest).Inv := hs.inWorld hs.1

theorem step_inv {s t : State} (hs : s.Inv) (h : step s = .next t) : t.Inv := by
  rcases step_next_cases s t h with ⟨rest, -, rfl⟩ | ⟨w, hw, rfl⟩ | ⟨r, v, rest, -, -, -, hb, rfl⟩
    | ⟨w, rest, -, hb, h⟩ | ⟨i, rest, hd, -, h⟩ | ⟨i, a, rest, hd, ha, h⟩
  · exact reset_inv rfl
  · exact hs.inWorld (hw.trans hs.1)
  · exact storeReg_inv (hs.popped rest) hb r v
  · exact startCommand_inv (hs.popped rest) hb h
  · exact exec_inv (s := s.popped rest) (hs.inWorld rfl) (fun _ => hs.1) hd h
  · have hreq : s.hidden.req ≠ .none := by rintro hr; simp [hr, Req.takes] at ha
    exact exec_inv (s := { s with world := { s.world with script := rest, answer := some a } })
      (hs.inWorld rfl) (fun hr => absurd hr hreq) hd h

/-- Settles O51: `step_inv`, which takes the step apart by agent; each agent's step is one of the operations
above. -/
theorem everyStepKeepsTheInvariant : Obligations.EveryStepKeepsTheInvariant := fun _ _ => step_inv

/-- Settles O50: the reset state is an idle state of the invariant. -/
theorem resetMeetsTheInvariant : Obligations.ResetMeetsTheInvariant :=
  ⟨reset_inv rfl, fun _ => reset_inv rfl⟩

/-! ## `STATUS` as one register (10_state.md R16 to R20)

A field is reached by dropping the fields below it and then cutting off those above. -/

theorem statusWord_flags (t : Status) :
    (statusWord t).getLsbD 0 = t.busy ∧ (statusWord t).getLsbD 1 = t.done
      ∧ (statusWord t).getLsbD 2 = t.xneg ∧ (statusWord t).getLsbD 3 = t.yneg := by
  unfold statusWord
  refine ⟨?_, ?_, ?_, ?_⟩ <;> repeat rw [BitVec.getLsbD_append]
  all_goals simp

theorem statusWord_fields (t : Status) :
    (statusWord t).extractLsb' 4 4 = 0 ∧ (statusWord t).extractLsb' 8 4 = t.err.code
      ∧ (statusWord t).extractLsb' 12 4 = t.lastFail.code ∧ (statusWord t).extractLsb' 16 4 = t.phase.code
      ∧ (statusWord t).extractLsb' 20 44 = 0 := by
  unfold statusWord
  refine ⟨?_, ?_, ?_, ?_, ?_⟩ <;> repeat rw [BitVec.extractLsb'_append_eq_of_le (by omega)]
  on_goal 5 => rfl
  all_goals
    rw [BitVec.extractLsb'_append_eq_of_add_le (by omega)]
    exact BitVec.extractLsb'_eq_self

/-- No field of `STATUS` holds a reserved value (10_state.md R18, R19, R20). -/
theorem ErrCode.code_le (c : ErrCode) : c.code.toNat ≤ 8 := by cases c <;> decide

theorem FailCause.code_le (c : FailCause) : c.code.toNat ≤ 4 := by cases c <;> decide

theorem Phase.code_le (p : Phase) : p.code.toNat ≤ 3 := by cases p <;> decide

/-- Settles O7, field by field. -/
theorem statusRegisterLayout : Obligations.StatusRegisterLayout := by
  refine ⟨fun t => ?_, rfl, rfl, rfl⟩
  obtain ⟨hbusy, hdone, hxneg, hyneg⟩ := statusWord_flags t
  exact ⟨hbusy, hdone, hxneg, hyneg, statusWord_fields t⟩

/-! ## Coefficients (10_state.md R13) -/

theorem coefLow_toNat (v : Int) : ((coefLow v).toNat : Int) = v % 2 ^ 64 := by
  simp [coefLow, sext65, Config.coefw]
  omega

/-- The high bit of the 65 is the sign of a coefficient that fits them. -/
theorem coefNeg_eq_true_iff {v : Int} (hl : -2 ^ 64 ≤ v) (hu : v < 2 ^ 64) : coefNeg v = true ↔ v < 0 := by
  have hsign : coefNeg v = (sext65 v).msb := (BitVec.msb_eq_getLsbD_last _).symm
  have hint : (sext65 v).toInt = v := BitVec.toInt_ofInt_eq_self (by decide) (by simpa using hl) (by simpa using hu)
  rw [hsign, BitVec.msb_eq_toInt, hint, decide_eq_true_iff]

/-- Settles O23: the low half is `v mod 2^64`, which is `v` or, for a negative `v`, `v + 2^64`. -/
theorem coefficientsReadBack : Obligations.CoefficientsReadBack := by
  intro v hl hu
  refine ⟨?_, coefNeg_eq_true_iff hl hu⟩
  rw [coefValue, coefLow_toNat]
  by_cases hv : v < 0
  · rw [(coefNeg_eq_true_iff hl hu).2 hv, Bool.toNat_true]; omega
  · rw [Bool.eq_false_iff.2 (mt (coefNeg_eq_true_iff hl hu).1 hv), Bool.toNat_false]; omega

/-! ## What a command's step leaves alone (10_state.md R11, R14, R15, R30) -/

/-- Only the acceptance of `XGCD` clears the halves of the coefficients. -/
theorem accept_coefficients {i : Instr} (hi : i ≠ .xgcd) (s : State) :
    (accept i s).results.xlo = s.results.xlo ∧ (accept i s).results.ylo = s.results.ylo := by
  cases i with
  | xgcd => exact absurd rfl hi
  | gcd | modinv | modpow | keygen => exact ⟨rfl, rfl⟩

/-- Settles O31: an arithmetic command is accepted, or it ends after writes to its destination set alone. -/
theorem arithmeticCommandFrame : Obligations.ArithmeticCommandFrame := by
  intro i s t hi h
  rcases exec_arithmetic_next hi h with ⟨-, rfl⟩ | ⟨-, ⟨code, rfl⟩ | ⟨v, rfl⟩ | ⟨rfl, v, x, y, rfl⟩⟩
  · obtain ⟨-, hx, hy, hkeys, hatt, hlast⟩ := accept_destination i s
    refine ⟨by simp, by simp, by rw [hkeys, if_neg hi], by rw [hatt, if_neg hi], by simp, by simp,
      by rw [hlast, if_neg hi], by simp, fun hxgcd => ?_⟩
    obtain ⟨hxlo, hylo⟩ := accept_coefficients hxgcd s
    exact ⟨hxlo, hylo, by rw [hx, if_neg hxgcd], by rw [hy, if_neg hxgcd]⟩
  · exact ⟨rfl, rfl, rfl, rfl, rfl, rfl, rfl, rfl, fun _ => ⟨rfl, rfl, rfl, rfl⟩⟩
  · exact ⟨rfl, rfl, rfl, rfl, rfl, rfl, rfl, rfl, fun _ => ⟨rfl, rfl, rfl, rfl⟩⟩
  · exact ⟨rfl, rfl, rfl, rfl, rfl, rfl, rfl, rfl, fun h => absurd rfl h⟩

/-- `CMD`, the operands and the configuration, which the host writes; the key registers and `ATTEMPTS`, which a
KEYGEN writes. -/
structure State.SameRegisters (s t : State) : Prop where
  cmd      : t.cmd = s.cmd
  operands : t.operands = s.operands
  conf     : t.conf = s.conf
  keys     : t.keys = s.keys
  attempts : t.attempts = s.attempts

theorem onRand_sameRegisters {react : Word → State → State}
    (h : ∀ (r : Word) (u : State), u.SameRegisters (react r u)) (s : State) :
    s.SameRegisters (onRand react s) := by
  rcases onRand_cases react s with ⟨r, -, e⟩ | e <;> rw [e]
  · obtain ⟨hc, ho, hf, hk, ha⟩ := h r s.takeAnswer
    exact ⟨hc, ho, hf, hk, ha⟩
  · exact ⟨rfl, rfl, rfl, rfl, rfl⟩

theorem onPrime_sameRegisters {react : Option Word → State → State}
    (h : ∀ (v : Option Word) (u : State), u.SameRegisters (react v u)) (s : State) : s.SameRegisters (onPrime react s) := by
  rcases onPrime_cases react s with ⟨v, -, e⟩ | ⟨-, e⟩ | e <;> rw [e]
  · obtain ⟨hc, ho, hf, hk, ha⟩ := h (some v) s.takeAnswer
    exact ⟨hc, ho, hf, hk, ha⟩
  · obtain ⟨hc, ho, hf, hk, ha⟩ := h none s.takeAnswer
    exact ⟨hc, ho, hf, hk, ha⟩
  · exact ⟨rfl, rfl, rfl, rfl, rfl⟩

theorem keygenInit_sameRegisters (s : State) : s.SameRegisters (keygenInit s) := by
  rcases keygenInit_cases s with ⟨-, e⟩ | ⟨-, e⟩ <;> rw [e] <;> exact ⟨rfl, rfl, rfl, rfl, rfl⟩

theorem keygenPickP_sameRegisters (r : Word) (s : State) : s.SameRegisters (keygenPickP r s) := by
  rcases keygenPickP_cases r s with ⟨-, e⟩ | ⟨-, e⟩ <;> rw [e] <;> exact ⟨rfl, rfl, rfl, rfl, rfl⟩

theorem keygenPickQ_sameRegisters (r : Word) (s : State) : s.SameRegisters (keygenPickQ r s) := by
  rcases keygenPickQ_cases r s with ⟨-, e⟩ | ⟨-, e⟩ <;> rw [e] <;> exact ⟨rfl, rfl, rfl, rfl, rfl⟩

theorem keygenFetchP_sameRegisters (v : Option Word) (s : State) : s.SameRegisters (keygenFetchP v s) := by
  cases v <;> exact ⟨rfl, rfl, rfl, rfl, rfl⟩

theorem keygenFetchQ_sameRegisters (v : Option Word) (s : State) : s.SameRegisters (keygenFetchQ v s) := by
  cases v <;> exact ⟨rfl, rfl, rfl, rfl, rfl⟩

theorem keygenDerive_sameRegisters (s : State) : s.SameRegisters (keygenDerive s) := by
  rcases keygenDerive_cases s with ⟨-, e⟩ | ⟨-, -, e⟩ | ⟨-, -, e⟩ <;> rw [e] <;>
    exact ⟨rfl, rfl, rfl, rfl, rfl⟩

theorem keygenDrawE_sameRegisters (r : Word) (s : State) : s.SameRegisters (keygenDrawE r s) := by
  rcases keygenDrawE_cases r s with ⟨-, e⟩ | ⟨-, -, e⟩ | ⟨-, -, e⟩ <;> rw [e] <;>
    exact ⟨rfl, rfl, rfl, rfl, rfl⟩

/-- What a step of KEYGEN does to the registers of `SameRegisters`: its acceptance clears its destination set,
`K_START` counts an attempt below the cap, the Valid end at `K_FINISH` writes the key registers, and every other
step leaves all of them alone (10_state.md R30, 43_keygen.md R102, R115). -/
theorem exec_keygen_registers {s t : State} (h : exec .keygen s = .next t) :
    (s.hidden.kstep = .idle ∧ t = accept .keygen s)
    ∨ s.SameRegisters t
    ∨ (s.attempts.toNat < s.conf.maxtry.toNat ∧ s.SameRegisters { t with attempts := s.attempts }
        ∧ t.status.busy = s.status.busy)
    ∨ (s.hidden.kstep = .finish
        ∧ ∃ n e d phi, t = endCommand .none (s.putKeys n e d phi)) := by
  rcases exec_keygen_next s t h with ⟨hk, e⟩ | ⟨-, rfl⟩ | ⟨-, rfl⟩ | ⟨-, rfl⟩ | ⟨-, rfl⟩ | ⟨-, rfl⟩
    | ⟨-, rfl⟩ | ⟨-, rfl⟩ | ⟨-, rfl⟩ | ⟨hk, rfl⟩
  · exact .inl ⟨hk, e⟩
  · exact .inr (.inl (keygenInit_sameRegisters s))
  · rcases keygenStart_cases s with ⟨-, e⟩ | ⟨hlt, e⟩ <;> rw [e]
    · exact .inr (.inl ⟨rfl, rfl, rfl, rfl, rfl⟩)
    · exact .inr (.inr (.inl ⟨hlt, ⟨rfl, rfl, rfl, rfl, rfl⟩, rfl⟩))
  · exact .inr (.inl (onRand_sameRegisters keygenPickP_sameRegisters s))
  · exact .inr (.inl (onRand_sameRegisters keygenPickQ_sameRegisters s))
  · exact .inr (.inl (onPrime_sameRegisters keygenFetchP_sameRegisters s))
  · exact .inr (.inl (onPrime_sameRegisters keygenFetchQ_sameRegisters s))
  · exact .inr (.inl (keygenDerive_sameRegisters s))
  · exact .inr (.inl (onRand_sameRegisters keygenDrawE_sameRegisters s))
  · rcases keygenFinish_cases s with ⟨-, e⟩ | ⟨-, -, e⟩ | ⟨-, -, e⟩ <;> rw [e]
    · exact .inr (.inl ⟨rfl, rfl, rfl, rfl, rfl⟩)
    · exact .inr (.inl ⟨rfl, rfl, rfl, rfl, rfl⟩)
    · exact .inr (.inr (.inr ⟨hk, _, _, _, _, rfl⟩))

/-- No command writes a register that the host writes, whatever state it is run in. -/
theorem exec_keeps_hostRegisters {i : Instr} {s t : State} (h : exec i s = .next t) :
    t.cmd = s.cmd ∧ t.operands = s.operands ∧ t.conf = s.conf := by
  by_cases hi : i = .keygen
  · subst hi
    rcases exec_keygen_registers h with ⟨-, rfl⟩ | hsame | ⟨-, hsame, -⟩ | ⟨-, _, _, _, _, rfl⟩
    · exact ⟨rfl, rfl, rfl⟩
    · exact ⟨hsame.cmd, hsame.operands, hsame.conf⟩
    · exact ⟨hsame.cmd, hsame.operands, hsame.conf⟩
    · exact ⟨rfl, rfl, rfl⟩
  · obtain ⟨hcmd, hops, -, -, hconf, -⟩ := arithmeticCommandFrame i s t hi h
    exact ⟨hcmd, hops, hconf⟩

/-- A command changes the key registers at the acceptance of a KEYGEN and at its Valid end. -/
theorem exec_keys {i : Instr} {s t : State} (h : exec i s = .next t) (hne : t.keys ≠ s.keys) :
    i = .keygen
      ∧ ((s.hidden.kstep = .idle ∧ t = accept .keygen s)
        ∨ (s.hidden.kstep = .finish ∧ ∃ n e d phi, t = endCommand .none (s.putKeys n e d phi))) := by
  by_cases hi : i = .keygen
  · subst hi
    rcases exec_keygen_registers h with hacc | hsame | ⟨-, hsame, -⟩ | hend
    · exact ⟨rfl, .inl hacc⟩
    · exact absurd hsame.keys hne
    · exact absurd hsame.keys hne
    · exact ⟨rfl, .inr hend⟩
  · obtain ⟨-, -, hkeys, -⟩ := arithmeticCommandFrame i s t hi h
    exact absurd hkeys hne

/-- The next transaction is a host's write, in the words of the statements. -/
theorem HostWrites.script {s : State} {idx : Nat} {v : Word} (h : HostWrites s idx v) :
    ∃ rest, (∃ idx v, s.world.script = .write idx v :: rest)
      ∨ ∃ off bytes, s.world.script = .busWrite off bytes :: rest := by
  obtain ⟨rest, h | ⟨off, bytes, -, -, -, h⟩⟩ := h
  · exact ⟨rest, .inl ⟨idx, v, h⟩⟩
  · exact ⟨rest, .inr ⟨off, bytes, h⟩⟩

/-- Settles O55: among the steps that `step_next_cases` lists, only reset and the host's writes reach these
registers, since no command does. -/
theorem onlyTheHostWritesItsRegisters : Obligations.OnlyTheHostWritesItsRegisters := by
  intro s t h hne
  have changed : ¬ (t.cmd = s.cmd ∧ t.operands = s.operands ∧ t.conf = s.conf) := by
    rintro ⟨hc, ho, hf⟩
    exact hne.elim (absurd hc) (Or.rec (absurd ho) (absurd hf))
  rcases step_next_cases s t h with ⟨rest, hs, -⟩ | ⟨w, -, rfl⟩ | ⟨r, v, rest, hw, -, -, hb, -⟩
    | ⟨w, rest, hw, hb, -⟩ | ⟨i, rest, -, -, h⟩ | ⟨i, a, rest, -, -, h⟩
  · exact .inl ⟨rest, hs⟩
  · exact absurd ⟨rfl, rfl, rfl⟩ changed
  · exact .inr ⟨hb, hw.script⟩
  · exact .inr ⟨hb, hw.script⟩
  · exact absurd (exec_keeps_hostRegisters h) changed
  · exact absurd (exec_keeps_hostRegisters h) changed

/-- A command in progress changes the key registers as R14 says, whatever the ports hold. -/
theorem exec_keys_of_inv {i : Instr} {s t : State} {w : World} (hs : s.Inv) (hd : decode s.cmd = .command i)
    (h : exec i { s with world := w } = .next t) (hne : t.keys ≠ s.keys) :
    (s.status.busy = false ∧ t.status.busy = true ∧ decode t.cmd = .command .keygen
      ∧ t.keys = { n := 0, e := 0, d := 0, phi := 0 })
    ∨ (s.hidden.kstep = .finish ∧ t.status.busy = false ∧ t.status.done = true ∧ t.status.err = .none) := by
  obtain ⟨rfl, ⟨hk, rfl⟩ | ⟨hk, n, e, d, phi, rfl⟩⟩ := exec_keys h hne
  · obtain ⟨-, hb, -⟩ := (inv_iff_of_idle (s := s) hk).1 hs
    exact .inl ⟨hb, rfl, hd, rfl⟩
  · exact .inr ⟨hk, rfl, rfl, rfl⟩

/-- Settles O54: the key registers are out of the host's reach, and of the commands KEYGEN alone writes them. -/
theorem keyRegistersChangeOnlyByKeygenOrReset : Obligations.KeyRegistersChangeOnlyByKeygenOrReset := by
  intro s t hs h hne
  rcases step_next_cases s t h with ⟨rest, hr, -⟩ | ⟨w, -, rfl⟩ | ⟨r, v, rest, -, -, -, -, rfl⟩
    | ⟨w, rest, -, hb, h⟩ | ⟨i, rest, hd, -, h⟩ | ⟨i, a, rest, hd, -, h⟩
  · exact .inl ⟨rest, hr⟩
  · exact absurd rfl hne
  · exact absurd (storeReg_keys r v _) hne
  · rcases startCommand_next w (s.popped rest) t (hs.idle hb) h with ⟨i, hd, rfl⟩ | ⟨-, rfl⟩
    · obtain ⟨-, -, -, hkeys, -⟩ := accept_destination i (storeReg .cmd w (s.popped rest))
      by_cases hi : i = .keygen
      · subst hi
        exact .inr (.inl ⟨hb, rfl, hd, rfl⟩)
      · exact absurd (hkeys.trans (if_neg hi)) hne
    · exact absurd rfl hne
  · exact .inr (exec_keys_of_inv hs hd h hne)
  · exact .inr (exec_keys_of_inv hs hd h hne)

/-! ## The invariants as R31 states them -/

theorem ofOpcode_eq_some {op : BitVec 8} {i : Instr} (h : ofOpcode op = some i) : op = i.opcode := by
  unfold ofOpcode at h
  split_ifs at h with h1 h2 h3 h4 h5 <;> cases h <;> assumption

/-- The low byte of a command word is the opcode of its command (30_encoding.md R60, R61). -/
theorem opcode_of_decode {w : Word} {i : Instr} (h : decode w = .command i) : w.extractLsb' 0 8 = i.opcode := by
  unfold decode at h
  split at h
  · cases h
  · split at h <;> cases h
    next ho => exact ofOpcode_eq_some ho

theorem Instr.opcode_injective {i j : Instr} (h : i.opcode = j.opcode) : i = j := by
  cases i <;> cases j <;> simp [Instr.opcode] at h ⊢

/-- The command in progress is the one that the opcode in `CMD` names, and `kstep` is a step of it. -/
theorem State.Inv.command_of_opcode {s : State} (hs : s.Inv) (hb : s.status.busy = true) {i : Instr}
    (ho : s.cmd.extractLsb' 0 8 = i.opcode) :
    decode s.cmd = .command i
      ∧ (if i = .keygen then s.hidden.kstep.ofKeygen = true else s.hidden.kstep = .run) := by
  have named {j : Instr} (hd : decode s.cmd = .command j) : j = i :=
    Instr.opcode_injective ((opcode_of_decode hd).symm.trans ho)
  by_cases hk : s.hidden.kstep = .run
  · obtain ⟨-, -, -, -, -, -, hc, -, -⟩ := (inv_iff_of_run hk).1 hs
    cases hd : decode s.cmd with
    | illegal why => simp [hd, decodesArithmetic] at hc
    | command j =>
      obtain rfl := named hd
      have hj : j ≠ .keygen := by rintro rfl; simp [hd, decodesArithmetic, isArithmetic] at hc
      exact ⟨rfl, by rw [if_neg hj]; exact hk⟩
  · have hidle : s.hidden.kstep ≠ .idle := by
      intro h
      obtain ⟨-, hb', -⟩ := (inv_iff_of_idle h).1 hs
      simp [hb'] at hb
    have hof : s.hidden.kstep.ofKeygen = true := (KStep.ofKeygen_iff _).2 ⟨hidle, hk⟩
    obtain ⟨hin, -⟩ := (inv_iff_of_keygen hof).1 hs
    obtain rfl := named hin.command
    exact ⟨hin.command, by rw [if_pos rfl]; exact hof⟩

theorem State.Inv.busy_false_iff_phase {s : State} (hs : s.Inv) :
    s.status.busy = false ↔ s.status.phase = .idle := by
  obtain ⟨-, ⟨-, hidle, -, -⟩, -⟩ := id hs
  rw [hidle, hs.phase_eq, requestFor]
  cases s.hidden.kstep <;> simp [phaseOf]

theorem State.Inv.req_ne_none_iff {s : State} (hs : s.Inv) :
    s.hidden.req ≠ .none ↔ s.hidden.kstep ∈ [.pickP, .pickQ, .fetchP, .fetchQ, .drawE] := by
  rw [hs.req_eq, requestFor]
  cases s.hidden.kstep <;> simp

/-- The cap on attempts still holds in the state in which a KEYGEN has ended (10_state.md R31 (g)). -/
theorem exec_keygen_end_attempts {s t : State} (hatt : s.attempts.toNat ≤ s.conf.maxtry.toNat)
    (hb : s.status.busy = true) (h : exec .keygen s = .next t) (htb : t.status.busy = false) :
    t.attempts.toNat ≤ t.conf.maxtry.toNat := by
  rcases exec_keygen_registers h with ⟨-, rfl⟩ | hsame | ⟨-, -, hbusy⟩ | ⟨-, n, e, d, phi, rfl⟩
  · simp at htb
  · rw [hsame.attempts, hsame.conf]; exact hatt
  · rw [hbusy, hb] at htb; cases htb
  · exact hatt

theorem step_keygen_end_attempts {s t : State} (hs : s.Inv) (hb : s.status.busy = true)
    (hk : s.hidden.kstep.ofKeygen = true) (h : step s = .next t) (htb : t.status.busy = false)
    (htd : t.status.done = true) : t.attempts.toNat ≤ t.conf.maxtry.toNat := by
  obtain ⟨hin, -⟩ := (inv_iff_of_keygen hk).1 hs
  have byCommand {i : Instr} {w : World} (hd : decode s.cmd = .command i)
      (h : exec i { s with world := w } = .next t) : t.attempts.toNat ≤ t.conf.maxtry.toNat := by
    cases hin.command.symm.trans hd
    exact exec_keygen_end_attempts (s := { s with world := w }) hin.attempts hb h htb
  rcases step_next_cases s t h with ⟨rest, -, rfl⟩ | ⟨w, -, rfl⟩ | ⟨r, v, rest, -, -, -, hb', -⟩
    | ⟨w, rest, -, hb', -⟩ | ⟨i, rest, hd, -, h⟩ | ⟨i, a, rest, hd, -, h⟩
  · cases htd
  · exact hin.attempts
  · simp [hb'] at hb
  · simp [hb'] at hb
  · exact byCommand hd h
  · exact byCommand hd h

theorem Reachable.inv {s : State} (h : Reachable s) : s.Inv := by
  induction h with
  | boot script => exact reset_inv rfl
  | step s t _ ht ih => exact step_inv ih ht

/-- Settles O52: every reachable state meets the invariant, and each clause of R31 follows from it. -/
theorem reachableStatesMeetTheStatedInvariants : Obligations.ReachableStatesMeetTheStatedInvariants := by
  intro s hr
  have hs := hr.inv
  obtain ⟨-, ⟨hbd, hidle, -, herr⟩, -⟩ := id hs
  obtain ⟨hlow, hecode, hfcode, hpcode, hhigh⟩ := statusWord_fields s.status
  refine ⟨hbd, hidle, hs.busy_false_iff_phase, hs.req_ne_none_iff, herr, fun hb ho => ?res, fun hb ho => ?coef,
    fun hb ho => ?keys, fun t hb ho h htb htd => ?capAtEnd, hlow, hhigh, ?_, ?_, ?_⟩
  case res =>
    have running {i : Instr} (hi : i ≠ .keygen) (ho : s.cmd.extractLsb' 0 8 = i.opcode) : s.results.res = 0 := by
      obtain ⟨-, hk⟩ := hs.command_of_opcode hb ho
      rw [if_neg hi] at hk
      exact hs.res_eq_zero hk
    simp only [List.mem_cons, List.not_mem_nil, or_false] at ho
    rcases ho with ho | ho | ho | ho
    · exact running (i := .gcd) (by decide) ho
    · exact running (i := .xgcd) (by decide) ho
    · exact running (i := .modinv) (by decide) ho
    · exact running (i := .modpow) (by decide) ho
  case coef =>
    obtain ⟨hd, hk⟩ := hs.command_of_opcode hb (i := .xgcd) ho
    obtain ⟨-, -, -, -, -, -, -, -, hx⟩ := (inv_iff_of_run hk).1 hs
    obtain ⟨hres, hxneg, hyneg⟩ := hx hd
    exact ⟨by rw [hres], by rw [hres], hxneg, hyneg⟩
  case keys =>
    obtain ⟨-, hk⟩ := hs.command_of_opcode hb (i := .keygen) ho
    obtain ⟨hin, -⟩ := (inv_iff_of_keygen hk).1 hs
    rw [hin.keys]
    exact ⟨rfl, rfl, rfl, rfl, hin.attempts⟩
  case capAtEnd =>
    obtain ⟨-, hk⟩ := hs.command_of_opcode hb (i := .keygen) ho
    exact step_keygen_end_attempts hs hb hk h htb htd
  · rw [hecode]; exact s.status.err.code_le
  · rw [hfcode]; exact s.status.lastFail.code_le
  · rw [hpcode]; exact s.status.phase.code_le

/-! ## Reset values (10_state.md R29) -/

theorem limit_bounds : 1 ≤ Config.limit ∧ Config.limit ≤ 2 ^ 63 :=
  ⟨Nat.le_add_left _ _, Config.limitLessOne.isLt⟩

theorem maxtryReset_pos : 1 ≤ Config.maxtryReset.toNat := by
  have := Config.maxtryResetLessOne.isLt
  rw [Config.maxtryReset, BitVec.toNat_ofNat, Nat.mod_eq_of_lt (by omega)]
  omega

theorem pspanReset_toNat : Config.pspanReset.toNat = Config.limit := by
  have := limit_bounds
  rw [Config.pspanReset, BitVec.toNat_ofNat, Nat.mod_eq_of_lt (by omega)]

/-- `QSPAN` is `2 * LIMIT` where that fits the register; in the one other case it is at least 1 (log
entry 2). -/
theorem qspanReset_toNat :
    Config.qspanReset.toNat = 2 * Config.limit
    ∨ (Config.limit = 2 ^ 63 ∧ 1 ≤ Config.qspanReset.toNat) := by
  have hl := limit_bounds
  unfold Config.qspanReset
  split
  · next h => exact .inl (by rw [BitVec.toNat_ofNat, Nat.mod_eq_of_lt h])
  · next h =>
    have := Config.qspanOutOfRangeLessOne.isLt
    refine .inr ⟨by omega, ?_⟩
    rw [Config.qspanOutOfRange, BitVec.toNat_ofNat, Nat.mod_eq_of_lt (by omega)]
    omega

/-- Settles O5, register by register; the bounds are those of the parameters' types. -/
theorem resetValuesOfEveryRegister : Obligations.ResetValuesOfEveryRegister := by
  obtain ⟨hl, hu⟩ := limit_bounds
  have hp : (readReg State.reset .pspan).toNat = Config.limit := pspanReset_toNat
  have hq := qspanReset_toNat
  have hqfits := Config.qspanReset.isLt
  refine ⟨fun r hmaxtry hpspan hqspan => ?zero, ⟨rfl, maxtryReset_pos⟩, ⟨hl, hu, hp⟩, hq.imp_right And.left,
    ⟨hp ▸ hl, ?_, ?_, ?_⟩, rfl⟩
  case zero =>
    cases r with
    | maxtry => exact absurd rfl hmaxtry
    | pspan => exact absurd rfl hpspan
    | qspan => exact absurd rfl hqspan
    | _ => rfl
  · change 1 ≤ Config.qspanReset.toNat
    omega
  · rw [hp]
    change 0 + Config.limit ≤ 2 ^ 64
    omega
  · change 0 + Config.qspanReset.toNat ≤ 2 ^ 64
    omega

/-! ## The host's accesses (10_state.md R26 to R28, 20_memory.md R41, R42) -/

/-- Settles O8: index by index below 0x12; from there up no register is mapped. -/
theorem hostReadReturnsTheRegister : Obligations.HostReadReturnsTheRegister := by
  intro s idx rest h
  rw [step_cons s _ rest h]
  by_cases hidx : idx < Config.nreg
  · change idx < 18 at hidx
    interval_cases idx <;> rfl
  · have hunmapped : ∀ k < 18, ¬ idx = k := by rintro k hk rfl; exact hidx hk
    change hostRead idx (s.popped rest) = _
    rw [hostRead, memRead_unmapped _ _ (not_lt.1 hidx)]
    simp [hunmapped, reply, State.popped]

theorem hostWrite_busy {s : State} (hb : s.status.busy = true) (idx : Nat) (v : Word) :
    hostWrite idx v s = .next s := by
  rcases hostWrite_cases idx v s with e | ⟨-, hb', -⟩ | ⟨r, -, -, -, hb', -⟩
  · exact e
  · simp [hb'] at hb
  · simp [hb'] at hb

/-- A write goes to no register unless its index is that of one the host may write. -/
theorem hostWrite_dropped {idx : Nat} (h : ∀ r : Reg, r.hostWritable = true → idx ≠ r.index)
    (v : Word) (s : State) : hostWrite idx v s = .next s := by
  rcases hostWrite_cases idx v s with e | ⟨hidx, -, -⟩ | ⟨r, hidx, -, hw, -, -⟩
  · exact e
  · exact absurd hidx (h .cmd rfl)
  · exact absurd hidx (h r hw)

/-- Settles O10: the store needs `BUSY = 0`. -/
theorem writesWhileBusyAreDropped : Obligations.WritesWhileBusyAreDropped := by
  intro s idx v rest h hb
  rw [step_cons s _ rest h]
  exact hostWrite_busy (s := s.popped rest) hb idx v

/-- Settles O11: none of these indices is that of a register the host may write. -/
theorem writesToReadOnlyOrUnmappedAreDropped : Obligations.WritesToReadOnlyOrUnmappedAreDropped := by
  intro s idx v rest h hidx
  rw [step_cons s _ rest h]
  refine hostWrite_dropped (fun r hr => ?_) v _
  rintro rfl
  cases r <;> simp_all [Reg.index, Reg.hostWritable]

/-! ## The step runs the decoded command (10_state.md R24, 30_encoding.md R66) -/

theorem decode_encode (i : Instr) : decode (encode i) = .command i := by cases i <;> decide

/-- A store to `CMD` of a command word, with no command in progress, is that command's meaning on the stored
word (20_memory.md R45). -/
theorem hostWrite_command {s : State} {w : Word} {i : Instr} (hb : s.status.busy = false)
    (hd : decode w = .command i) : hostWrite 0x00 w s = exec i { s with cmd := w } := by
  simp [hostWrite, regAt, Reg.hostWritable, hb, startCommand, hd, storeReg]

/-- Settles O17, clause by clause: the engine's turn, the host's write, the answer delivered, and the word that
`withFetchWord` presents. -/
theorem stepRunsTheDecodedCommand : Obligations.StepRunsTheDecodedCommand := by
  intro s i rest
  refine ⟨fun hd hk => ⟨fun h => ?_, fun h => ?_⟩, fun w hd hb h => ?_, fun a hd ha h => ?_, ?_⟩
  · rw [step_nil s h]
    exact mieTurn_own s i hk hd
  · rw [step_cons s _ rest h]
    exact mieTurn_own (s.popped rest) i hk hd
  · rw [step_cons s _ rest h]
    exact hostWrite_command (s := s.popped rest) hb hd
  · rw [step_cons s _ rest h]
    change deliver a (s.popped rest) = _
    rw [deliver, if_pos (show (s.popped rest).hidden.req.takes a = true from ha)]
    exact engine_command _ i hd
  · have hw : BitVec.ofNat 64 ((encode i).toNat % 2 ^ 64) = encode i := by
      rw [Nat.mod_eq_of_lt (encode i).isLt, BitVec.ofNat_toNat, BitVec.setWidth_eq]
    rw [State.withFetchWord, hw, step_cons (presentCommand (encode i) s) _ _ rfl]
    exact hostWrite_command (s := (presentCommand (encode i) s).popped s.world.script) rfl (decode_encode i)

end Sys2Proof.Machine


/-! ## The bytes of a register (20_memory.md R43) -/

namespace Sys2Proof

/-- Byte `k` is digit `k` of the number to the base 256. -/
theorem leBytes_getElem? {n k : Nat} (h : k < n) (v : Nat) :
    (leBytes n v)[k]? = some (BitVec.ofNat 8 (v / 256 ^ k)) := by
  induction n generalizing k v with
  | zero => exact absurd h (Nat.not_lt_zero k)
  | succ n ih =>
    cases k with
    | zero => simp [leBytes]
    | succ k =>
      rw [leBytes, List.getElem?_cons_succ, ih (Nat.lt_of_succ_lt_succ h), Nat.div_div_eq_div_mul, pow_succ']

/-- Digit `k` to the base 256 is bits `8k` to `8k + 7`. -/
theorem ofNat_div_eq_extractLsb' (w : Word) (k : Nat) :
    BitVec.ofNat 8 (w.toNat / 256 ^ k) = w.extractLsb' (8 * k) 8 := by
  apply BitVec.eq_of_toNat_eq
  rw [BitVec.toNat_ofNat, BitVec.extractLsb'_toNat, Nat.shiftRight_eq_div_pow, pow_mul]
  rfl

theorem wordOfBytes_bytesOfWord (w : Word) : wordOfBytes (bytesOfWord w) = w := by
  rw [bytesOfWord, wordOfBytes_leBytes, BitVec.ofNat_toNat, BitVec.setWidth_eq]

/-- Settles O4: byte `k` is a digit to the base 256, and so are bits `8k` to `8k + 7`. -/
theorem registerBytesAreLittleEndian : Obligations.RegisterBytesAreLittleEndian := fun w =>
  ⟨leBytes_length 8 w.toNat,
    fun k hk => (leBytes_getElem? hk w.toNat).trans (congrArg some (ofNat_div_eq_extractLsb' w k)),
    wordOfBytes_bytesOfWord w⟩

end Sys2Proof

namespace Sys2Proof.Machine

/-! ## Every step is answered from the invariant (20_memory.md R44, 30_encoding.md R68, 43_keygen.md R121) -/

theorem State.Inv.kstep_ne_idle {s : State} (hs : s.Inv) (hb : s.status.busy = true) :
    s.hidden.kstep ≠ .idle := by
  intro hk
  obtain ⟨-, hb', -⟩ := (inv_iff_of_idle hk).1 hs
  simp [hb'] at hb

theorem exec_arithmetic_answers {i : Instr} (hi : isArithmetic i = true) {s : State}
    (hk : s.hidden.kstep = .run) : ∃ t, exec i s = .next t := by
  cases i with
  | keygen => cases hi
  | gcd => exact ⟨_, exec_gcd_run s hk⟩
  | xgcd => exact ⟨_, exec_xgcd_run s hk⟩
  | modinv => exact ⟨_, exec_modinv_run s hk⟩
  | modpow => exact ⟨_, exec_modpow_run s hk⟩

theorem exec_keygen_answers {s : State} (hk : s.hidden.kstep ≠ .run) : ∃ t, exec .keygen s = .next t := by
  cases h : s.hidden.kstep with
  | run => exact absurd h hk
  | _ => simp [exec, execKeygen, h]

/-- A command in progress always has a step: `CMD` names it and `kstep` is one of its steps (10_state.md R24,
R25). -/
theorem State.Inv.engine_answers {s : State} (hs : s.Inv) (hk : s.hidden.kstep ≠ .idle) (w : World) :
    ∃ t, engine { s with world := w } = .next t := by
  by_cases hrun : s.hidden.kstep = .run
  · obtain ⟨-, -, -, -, -, -, hc, -, -⟩ := (inv_iff_of_run hrun).1 hs
    cases hd : decode s.cmd with
    | illegal why => simp [hd, decodesArithmetic] at hc
    | command i =>
      rw [engine_command { s with world := w } i hd]
      exact exec_arithmetic_answers (by simpa [hd, decodesArithmetic] using hc) hrun
  · obtain ⟨hin, -⟩ := (inv_iff_of_keygen ((KStep.ofKeygen_iff _).2 ⟨hk, hrun⟩)).1 hs
    rw [engine_command { s with world := w } .keygen hin.command]
    exact exec_keygen_answers hrun

theorem State.Inv.mieTurn_answers {s : State} (hs : s.Inv) : ∃ t, mieTurn s = .next t := by
  cases hk : s.hidden.kstep.ownStep with
  | false => exact ⟨s, mieTurn_waiting s hk⟩
  | true =>
    rw [mieTurn, if_pos hk]
    exact hs.engine_answers (by rintro h; simp [h, KStep.ownStep] at hk) s.world

/-- A pending request belongs to a command in progress, so its answer is taken. -/
theorem State.Inv.deliver_answers {s : State} (hs : s.Inv) (a : Answer) : ∃ t, deliver a s = .next t := by
  unfold deliver
  split
  · next ha =>
    refine hs.engine_answers (fun hk => ?_) _
    simp [hs.req_eq, requestFor, hk, Req.takes] at ha
  · exact ⟨s, rfl⟩

theorem State.Inv.primeServe_answers {s : State} (hs : s.Inv) (available : Bool) :
    ∃ t, primeServe available s = .next t := by
  unfold primeServe
  split
  · exact hs.deliver_answers _
  · exact ⟨s, rfl⟩
  · exact ⟨s, rfl⟩

theorem startCommand_answers {s : State} (hk : s.hidden.kstep = .idle) (w : Word) :
    ∃ t, startCommand w s = .next t := by
  unfold startCommand
  split
  · next i _ => exact ⟨_, exec_idle i (storeReg .cmd w s) hk⟩
  · exact ⟨_, rfl⟩

theorem State.Inv.hostWrite_answers {s : State} (hs : s.Inv) (idx : Nat) (v : Word) :
    ∃ t, hostWrite idx v s = .next t := by
  rcases hostWrite_cases idx v s with e | ⟨-, hb, e⟩ | ⟨r, -, -, -, -, e⟩ <;> rw [e]
  · exact ⟨s, rfl⟩
  · exact startCommand_answers (hs.idle hb) v
  · exact ⟨_, rfl⟩

theorem hostPoll_answers (s : State) : ∃ t, hostPoll s = .next t := by
  cases hb : s.status.busy with
  | false => exact ⟨_, hostPoll_over s hb⟩
  | true => exact ⟨_, hostPoll_busy s hb⟩

theorem busAdmitted_iff (off len : Nat) : busAdmitted off len = true ↔ len = 8 ∧ off % 8 = 0 := by
  simp [busAdmitted]

theorem busRead_admitted {off len : Nat} (h : len = 8 ∧ off % 8 = 0) (s : State) :
    busRead off len s = .next (reply (.bytes (bytesOfWord (memRead s (off / 8)))) s) :=
  if_pos ((busAdmitted_iff off len).2 h)

theorem busRead_refused {off len : Nat} (h : ¬ (len = 8 ∧ off % 8 = 0)) (s : State) :
    busRead off len s = .refused (.inadmissibleAccess off len) :=
  if_neg (mt (busAdmitted_iff off len).1 h)

theorem busWrite_admitted {off : Nat} {bytes : List Byte} (h : bytes.length = 8 ∧ off % 8 = 0) (s : State) :
    busWrite off bytes s = hostWrite (off / 8) (wordOfBytes bytes) s :=
  if_pos ((busAdmitted_iff off bytes.length).2 h)

theorem busWrite_refused {off : Nat} {bytes : List Byte} (h : ¬ (bytes.length = 8 ∧ off % 8 = 0)) (s : State) :
    busWrite off bytes s = .refused (.inadmissibleAccess off bytes.length) :=
  if_neg (mt (busAdmitted_iff off bytes.length).1 h)

/-- The event is a byte-mapped access at that offset and of that length. -/
def Event.IsBusAccess (off len : Nat) (ev : Event) : Prop :=
  ev = .busRead off len ∨ ∃ bytes, bytes.length = len ∧ ev = .busWrite off bytes

/-- Every agent's step is answered, but for a byte-mapped access that R44 gives no step. -/
theorem State.Inv.agentStep_answers {s : State} (hs : s.Inv) (ev : Event) :
    (∃ t, agentStep ev s = .next t)
    ∨ ∃ off len, agentStep ev s = .refused (.inadmissibleAccess off len) ∧ ¬ (len = 8 ∧ off % 8 = 0)
        ∧ ev.IsBusAccess off len := by
  cases ev with
  | read idx => exact .inl ⟨_, rfl⟩
  | write idx v => exact .inl (hs.hostWrite_answers idx v)
  | busRead off len =>
    by_cases h : len = 8 ∧ off % 8 = 0
    · exact .inl ⟨_, busRead_admitted h s⟩
    · exact .inr ⟨off, len, busRead_refused h s, h, .inl rfl⟩
  | busWrite off bytes =>
    by_cases h : bytes.length = 8 ∧ off % 8 = 0
    · exact .inl ((hs.hostWrite_answers _ _).imp fun _ ht => (busWrite_admitted h s).trans ht)
    · exact .inr ⟨off, bytes.length, busWrite_refused h s, h, .inr ⟨bytes, rfl, rfl⟩⟩
  | poll => exact .inl (hostPoll_answers s)
  | reset => exact .inl ⟨_, rfl⟩
  | mie => exact .inl hs.mieTurn_answers
  | answer a => exact .inl (hs.deliver_answers a)
  | serve available => exact .inl (hs.primeServe_answers available)

theorem State.Inv.step_answers {s : State} (hs : s.Inv) :
    (∃ t, step s = .next t)
    ∨ ∃ off len, step s = .refused (.inadmissibleAccess off len) ∧ ¬ (len = 8 ∧ off % 8 = 0)
        ∧ ∃ ev rest, s.world.script = ev :: rest ∧ ev.IsBusAccess off len := by
  cases hscript : s.world.script with
  | nil =>
    rw [step_nil s hscript]
    exact .inl hs.mieTurn_answers
  | cons ev rest =>
    rw [step_cons s ev rest hscript]
    refine ((hs.popped rest).agentStep_answers ev).imp_right ?_
    rintro ⟨off, len, e, hadm, hev⟩
    exact ⟨off, len, e, hadm, ev, rest, rfl, hev⟩

/-- Settles O53: agent by agent, each step is answered or is an access that R44 does not admit. -/
theorem noStepFaultsFromTheInvariant : Obligations.NoStepFaultsFromTheInvariant := by
  intro s hs
  rcases hs.step_answers with ⟨t, e⟩ | ⟨off, len, e, hadm, ev, rest, hscript, hev⟩
  · simp [e]
  · refine ⟨by simp [e], fun r hr => ?_⟩
    cases e.symm.trans hr
    refine ⟨off, len, rfl, hadm, rest, ?_⟩
    rcases hev with rfl | ⟨bytes, hlen, rfl⟩
    · exact .inl hscript
    · exact .inr ⟨bytes, hlen, hscript⟩

/-! ## A command ends whole (20_memory.md R54, 60_exceptions.md R142, R143) -/

/-- A step from `s` to `t` leaves `BUSY` as it is, or it ends the command: `DONE` is set and, after an error,
no result and no key has been written. -/
def State.BusyKeptOrEnded (s t : State) : Prop :=
  t.status.busy = s.status.busy
  ∨ (t.status.done = true ∧ (t.status.err ≠ .none → t.keys = s.keys ∧ t.results = s.results))

theorem endCommand_ended (code : ErrCode) (s : State) : s.BusyKeptOrEnded (endCommand code s) :=
  .inr ⟨rfl, fun _ => ⟨rfl, rfl⟩⟩

/-- After a completion without error, whatever was written before it. -/
theorem complete_ended (s u : State) : s.BusyKeptOrEnded (endCommand .none u) :=
  .inr ⟨rfl, fun h => absurd rfl h⟩

theorem onRand_busyKeptOrEnded {react : Word → State → State}
    (h : ∀ (r : Word) (u : State), u.BusyKeptOrEnded (react r u)) (s : State) :
    s.BusyKeptOrEnded (onRand react s) := by
  rcases onRand_cases react s with ⟨r, -, e⟩ | e <;> rw [e]
  · exact h r s.takeAnswer
  · exact .inl rfl

theorem onPrime_busyKeptOrEnded {react : Option Word → State → State}
    (h : ∀ (v : Option Word) (u : State), u.BusyKeptOrEnded (react v u)) (s : State) :
    s.BusyKeptOrEnded (onPrime react s) := by
  rcases onPrime_cases react s with ⟨v, -, e⟩ | ⟨-, e⟩ | e <;> rw [e]
  · exact h (some v) s.takeAnswer
  · exact h none s.takeAnswer
  · exact .inl rfl

theorem keygenInit_busyKeptOrEnded (s : State) : s.BusyKeptOrEnded (keygenInit s) := by
  rcases keygenInit_cases s with ⟨-, e⟩ | ⟨-, e⟩ <;> rw [e]
  · exact .inl rfl
  · exact endCommand_ended _ s

theorem keygenStart_busyKeptOrEnded (s : State) : s.BusyKeptOrEnded (keygenStart s) := by
  rcases keygenStart_cases s with ⟨-, e⟩ | ⟨-, e⟩ <;> rw [e]
  · exact endCommand_ended _ s
  · exact .inl rfl

theorem keygenPickP_busyKeptOrEnded (r : Word) (s : State) : s.BusyKeptOrEnded (keygenPickP r s) := by
  rcases keygenPickP_cases r s with ⟨-, e⟩ | ⟨-, e⟩ <;> rw [e]
  · exact endCommand_ended _ s
  · exact .inl rfl

theorem keygenPickQ_busyKeptOrEnded (r : Word) (s : State) : s.BusyKeptOrEnded (keygenPickQ r s) := by
  rcases keygenPickQ_cases r s with ⟨-, e⟩ | ⟨-, e⟩ <;> rw [e]
  · exact endCommand_ended _ s
  · exact .inl rfl

theorem keygenFetchP_busyKeptOrEnded (v : Option Word) (s : State) : s.BusyKeptOrEnded (keygenFetchP v s) := by
  cases v with
  | none => exact endCommand_ended _ s
  | some v => exact .inl rfl

theorem keygenFetchQ_busyKeptOrEnded (v : Option Word) (s : State) : s.BusyKeptOrEnded (keygenFetchQ v s) := by
  cases v with
  | none => exact endCommand_ended _ s
  | some v => exact .inl rfl

theorem keygenDerive_busyKeptOrEnded (s : State) : s.BusyKeptOrEnded (keygenDerive s) := by
  rcases keygenDerive_cases s with ⟨-, e⟩ | ⟨-, -, e⟩ | ⟨-, -, e⟩ <;> rw [e] <;> exact .inl rfl

theorem keygenDrawE_busyKeptOrEnded (r : Word) (s : State) : s.BusyKeptOrEnded (keygenDrawE r s) := by
  rcases keygenDrawE_cases r s with ⟨-, e⟩ | ⟨-, -, e⟩ | ⟨-, -, e⟩ <;> rw [e]
  · exact endCommand_ended _ s
  · exact .inl rfl
  · exact .inl rfl

theorem keygenFinish_busyKeptOrEnded (s : State) : s.BusyKeptOrEnded (keygenFinish s) := by
  rcases keygenFinish_cases s with ⟨-, e⟩ | ⟨-, -, e⟩ | ⟨-, -, e⟩ <;> rw [e]
  · exact .inl rfl
  · exact .inl rfl
  · exact complete_ended s _

/-- With a command in progress its meaning goes on, leaving `BUSY` alone, or ends it in that same step. -/
theorem exec_busyKeptOrEnded {i : Instr} {s t : State} (hk : s.hidden.kstep ≠ .idle)
    (h : exec i s = .next t) : s.BusyKeptOrEnded t := by
  by_cases hi : i = .keygen
  · subst hi
    rcases exec_keygen_next s t h with ⟨hidle, -⟩ | ⟨-, rfl⟩ | ⟨-, rfl⟩ | ⟨-, rfl⟩ | ⟨-, rfl⟩ | ⟨-, rfl⟩
      | ⟨-, rfl⟩ | ⟨-, rfl⟩ | ⟨-, rfl⟩ | ⟨-, rfl⟩
    · exact absurd hidle hk
    · exact keygenInit_busyKeptOrEnded s
    · exact keygenStart_busyKeptOrEnded s
    · exact onRand_busyKeptOrEnded keygenPickP_busyKeptOrEnded s
    · exact onRand_busyKeptOrEnded keygenPickQ_busyKeptOrEnded s
    · exact onPrime_busyKeptOrEnded keygenFetchP_busyKeptOrEnded s
    · exact onPrime_busyKeptOrEnded keygenFetchQ_busyKeptOrEnded s
    · exact keygenDerive_busyKeptOrEnded s
    · exact onRand_busyKeptOrEnded keygenDrawE_busyKeptOrEnded s
    · exact keygenFinish_busyKeptOrEnded s
  · rcases exec_arithmetic_next hi h with ⟨hidle, -⟩ | ⟨-, ⟨code, rfl⟩ | ⟨v, rfl⟩ | ⟨-, v, x, y, rfl⟩⟩
    · exact absurd hidle hk
    · exact endCommand_ended code s
    · exact complete_ended s _
    · exact complete_ended s _

/-- While a command is in progress its destination reads 0 (10_state.md R31 (e), (f)). -/
theorem State.Inv.destination_zero {s : State} (hs : s.Inv) (hb : s.status.busy = true) :
    (decode s.cmd = .command .keygen → s.keys = { n := 0, e := 0, d := 0, phi := 0 })
    ∧ (decode s.cmd ≠ .command .keygen → s.results.res = 0) := by
  by_cases hrun : s.hidden.kstep = .run
  · obtain ⟨-, -, -, -, -, -, hc, -, -⟩ := (inv_iff_of_run hrun).1 hs
    exact ⟨fun hd => by simp [hd, decodesArithmetic, isArithmetic] at hc, fun _ => hs.res_eq_zero hrun⟩
  · obtain ⟨hin, -⟩ := (inv_iff_of_keygen ((KStep.ofKeygen_iff _).2 ⟨hs.kstep_ne_idle hb, hrun⟩)).1 hs
    exact ⟨fun _ => hin.keys, fun hd => absurd hin.command hd⟩

/-- A step with a command in progress, reset left out, goes on or ends it, and keeps the host's registers. -/
theorem State.Inv.step_busyKeptOrEnded {s t : State} (hs : s.Inv) (h : step s = .next t)
    (hb : s.status.busy = true) (hreset : ∀ rest, s.world.script ≠ .reset :: rest) :
    s.BusyKeptOrEnded t ∧ t.cmd = s.cmd ∧ t.operands = s.operands ∧ t.conf = s.conf := by
  have hk := hs.kstep_ne_idle hb
  have byCommand {i : Instr} {w : World} (h : exec i { s with world := w } = .next t) :
      s.BusyKeptOrEnded t ∧ t.cmd = s.cmd ∧ t.operands = s.operands ∧ t.conf = s.conf :=
    ⟨exec_busyKeptOrEnded (s := { s with world := w }) hk h,
      exec_keeps_hostRegisters (s := { s with world := w }) h⟩
  rcases step_next_cases s t h with ⟨rest, hr, -⟩ | ⟨w, -, rfl⟩ | ⟨r, v, rest, -, -, -, hb', -⟩
    | ⟨w, rest, -, hb', -⟩ | ⟨i, rest, -, -, h⟩ | ⟨i, a, rest, -, -, h⟩
  · exact absurd hr (hreset rest)
  · exact ⟨.inl rfl, rfl, rfl, rfl⟩
  · simp [hb'] at hb
  · simp [hb'] at hb
  · exact byCommand h
  · exact byCommand h

/-- Settles O56: `BUSY` falls only where the command is ended; the phase, `kstep` and `REQ` agree with `BUSY`
by the invariant of the next state, and an error leaves the destination as the invariant has it before. -/
theorem commandsEndInOneStep : Obligations.CommandsEndInOneStep := by
  intro s t hs h hb htb hreset
  obtain ⟨hended, hcmd, hops, hconf⟩ := hs.step_busyKeptOrEnded h hb hreset
  have ht := step_inv hs h
  have hk := ht.idle htb
  obtain ⟨-, -, hphase, -, hreq⟩ := (inv_iff_of_idle hk).1 ht
  rcases hended with hbusy | ⟨hdone, herr⟩
  · exact absurd (hbusy.symm.trans htb) (by simp [hb])
  obtain ⟨hkeys, hres⟩ := hs.destination_zero hb
  refine ⟨hdone, hphase, hk, hreq, hcmd, hops, hconf, fun he hd => ?_, fun he hd => ?_⟩
  · exact (herr he).1.trans (hkeys (hcmd ▸ hd))
  · rw [(herr he).2]
    exact hres (hcmd ▸ hd)

/-! ## A store to a register (20_memory.md R42, R45) -/

theorem hostWrite_store {s : State} {r : Reg} (hb : s.status.busy = false) (hc : r ≠ .cmd)
    (hw : r.hostWritable = true) (v : Word) : hostWrite r.index v s = .next (storeReg r v s) := by
  simp [hostWrite, hb, hc, hw]

theorem memRead_storeReg_other {r : Reg} {idx : Nat} (h : idx ≠ r.index) (v : Word) (s : State) :
    memRead (storeReg r v s) idx = memRead s idx := by
  unfold memRead
  cases hr : regAt idx with
  | none => rfl
  | some r' =>
    refine readReg_storeReg_other r r' v s ?_
    rintro rfl
    exact h (index_of_regAt idx r' hr)

/-- The registers do not lie in the world around the engine. -/
theorem memRead_popped (s : State) (rest : List Event) (idx : Nat) :
    memRead (s.popped rest) idx = memRead s idx := by
  unfold memRead
  cases regAt idx with
  | none => rfl
  | some r => cases r <;> rfl

/-- The operand and the configuration registers, a write to which does nothing but store (20_memory.md R45). -/
def Reg.storing : List Reg := [.a, .b, .m, .maxtry, .pbase, .pspan, .qbase, .qspan]

theorem Reg.hostWritable_of_storing : ∀ r ∈ Reg.storing, r ≠ .cmd ∧ r.hostWritable = true := by decide

/-- Settles O9: each of these indices is that of a register the host may write, other than `CMD`. -/
theorem hostWriteOnlyStores : Obligations.HostWriteOnlyStores := by
  intro s idx v rest h hb hidx
  change idx ∈ Reg.storing.map Reg.index at hidx
  obtain ⟨r, hr, rfl⟩ := List.mem_map.1 hidx
  obtain ⟨hc, hw⟩ := Reg.hostWritable_of_storing r hr
  refine ⟨storeReg r v (s.popped rest), ?_, ?_, fun j hj => ?_, storeReg_status r v _, storeReg_hidden r v _,
    storeReg_world r v _⟩
  · rw [step_cons s _ rest h]
    exact hostWrite_store (s := s.popped rest) hb hc hw v
  · rw [memRead_index, readReg_storeReg_same r v _ hw]
  · rw [memRead_storeReg_other hj, memRead_popped]

/-! ## Byte-mapped accesses (20_memory.md R43, R44) -/

/-- Settles O12: an admitted access is that of the word at its index; the others are refused. -/
theorem busAccessesAreWordAccessesOrNone : Obligations.BusAccessesAreWordAccessesOrNone := by
  intro s rest
  refine ⟨fun off bytes h => ?write, fun off len h => ?read⟩
  case write =>
    rw [step_cons s _ rest h]
    exact ⟨fun hadm => busWrite_admitted hadm (s.popped rest), fun hadm => busWrite_refused hadm (s.popped rest)⟩
  case read =>
    rw [step_cons s _ rest h]
    refine ⟨fun hadm => ?_, fun hadm => busRead_refused hadm (s.popped rest)⟩
    rw [← memRead_popped s rest]
    exact busRead_admitted hadm (s.popped rest)

/-! ## The collaborators (20_memory.md R46, R47, R52) -/

theorem primeAnswer_outside {table : List Word} {i : Word} (h : table.length ≤ i.toNat) (mayFail available : Bool) :
    primeAnswer table mayFail available i = .notFound := by
  simp [primeAnswer, h]

theorem primeAnswer_entry {table : List Word} {i v : Word} (h : table[i.toNat]? = some v) (mayFail available : Bool) :
    primeAnswer table mayFail available i = if mayFail && !available then .notFound else .found v := by
  simp [primeAnswer, h]

theorem primeServe_pending {s : State} {i : Word} (h : s.hidden.req = .prime i) (available : Bool) :
    primeServe available s
      = deliver (primeAnswer Config.primeTable Config.primeMayBeUnavailable available i) s := by
  simp [primeServe, h]

theorem primeServe_notPending {s : State} (h : ∀ i, s.hidden.req ≠ .prime i) (available : Bool) :
    primeServe available s = .next s := by
  unfold primeServe
  split
  · next i hr => exact absurd hr (h i)
  · rfl
  · rfl

theorem deliver_dropped {s : State} {a : Answer} (h : s.hidden.req.takes a = false) : deliver a s = .next s := by
  simp [deliver, h]

/-- Settles O45: `primeAnswer` case by case; with a request pending, the PrimeSource's turn is the delivery of
its answer. -/
theorem primeSourceFollowsItsTable : Obligations.PrimeSourceFollowsItsTable := by
  refine ⟨fun table mayFail available i => ⟨fun h => primeAnswer_outside h _ _, fun v hv => ⟨?_, ?_⟩⟩, ?_⟩
  · rintro (rfl | rfl) <;> simp [primeAnswer_entry hv]
  · rintro rfl rfl
    simp [primeAnswer_entry hv]
  · intro s i available rest hreq h
    rw [step_cons s _ rest h]
    exact primeServe_pending (s := s.popped rest) hreq available

/-- Settles O46: a request takes answers of its own kind alone. -/
theorem unsolicitedAnswersAreDropped : Obligations.UnsolicitedAnswersAreDropped := by
  intro s rest
  refine ⟨fun r hreq h => ?_, fun a hreq ha h => ?_, fun up hreq h => ?_⟩ <;> rw [step_cons s _ rest h]
  · refine deliver_dropped (s := s.popped rest) (Bool.eq_false_iff.2 fun ht => ?_)
    rcases takes_cases _ _ ht with ⟨b, _, hb, -⟩ | ⟨i, -, ha | ⟨v, ha⟩⟩
    · exact hreq b hb
    · cases ha
    · cases ha
  · refine deliver_dropped (s := s.popped rest) (Bool.eq_false_iff.2 fun ht => ?_)
    rcases takes_cases _ _ ht with ⟨-, r, -, hr⟩ | ⟨i, hi, -⟩
    · exact ha r hr
    · exact hreq i hi
  · exact primeServe_notPending (s := s.popped rest) hreq up

end Sys2Proof.Machine

namespace Sys2Proof.Machine

/-! ## Decoding and encoding (30_encoding.md R60 to R63, R72) -/

theorem zeroField_of_decode {w : Word} {i : Instr} (h : decode w = .command i) : w.extractLsb' 8 56 = 0 := by
  unfold decode at h
  split at h
  · cases h
  · next hz => exact not_not.1 hz

/-- Each command is decoded from one word alone, whose two fields are then known. -/
theorem decode_eq_command_iff {w : Word} {i : Instr} : decode w = .command i ↔ w = encode i := by
  constructor
  · intro h
    rw [← toWord_ofWord w, encode, Instr.commandWord, ← opcode_of_decode h, ← zeroField_of_decode h]
    rfl
  · rintro rfl
    exact decode_encode i

/-- A word is illegal for its `ZERO` field or, that being 0, for its opcode (30_encoding.md R62, R63). -/
theorem decode_eq_illegal_iff (w : Word) :
    (∃ why, decode w = .illegal why) ↔ w.extractLsb' 8 56 ≠ 0 ∨ ofOpcode (w.extractLsb' 0 8) = none := by
  unfold decode
  split
  · next hz => exact iff_of_true ⟨_, rfl⟩ (.inl hz)
  · next hz =>
    split
    · next i ho => exact iff_of_false (by simp) (not_or.2 ⟨hz, ne_of_eq_of_ne ho (by simp)⟩)
    · next ho => exact iff_of_true ⟨_, rfl⟩ (.inr ho)

theorem ofOpcode_eq_none_iff (op : BitVec 8) : ofOpcode op = none ↔ op.toNat = 0 ∨ 5 < op.toNat := by
  unfold ofOpcode
  split_ifs <;> simp only [false_iff, true_iff] <;> bv_omega

/-- Settles O2: a command is decoded from its one word; a word of no command fails one of the two checks. -/
theorem decodeSelectsExactlyTheFiveWords : Obligations.DecodeSelectsExactlyTheFiveWords := by
  intro w
  refine ⟨decode_eq_command_iff, decode_eq_command_iff, decode_eq_command_iff, decode_eq_command_iff,
    decode_eq_command_iff, ?_⟩
  rw [decode_eq_illegal_iff, ofOpcode_eq_none_iff]

/-- The eight bytes of a register decode as the word they hold (20_memory.md R43). -/
theorem decodeBytes_bytesOfWord (w : Word) : decodeBytes (bytesOfWord w) = decode w := by
  rw [bytesOfWord, decodeBytes_leBytes, BitVec.ofNat_toNat, BitVec.setWidth_eq]

/-- A row of the table as wide as the register is the register's eight bytes. -/
theorem decodeTableWord_command {w : Word} {i : Instr} (h : decode w = .command i) :
    decodeTableWord 64 w.toNat = some i := by
  have hbytes : decodeBytes (leBytes 8 (w.toNat % 2 ^ 64)) = .command i := by
    rw [Nat.mod_eq_of_lt w.isLt]
    exact (decodeBytes_bytesOfWord w).trans h
  simp only [decodeTableWord, hbytes]
  rfl

/-- Settles O3: bytes and table row decode as the word does, and no other word decodes to the command. -/
theorem decodeAndEncodeAgree : Obligations.DecodeAndEncodeAgree :=
  ⟨fun i => ⟨decode_encode i, (decodeBytes_bytesOfWord _).trans (decode_encode i),
      decodeTableWord_command (decode_encode i)⟩,
    fun _ _ h => (decode_eq_command_iff.1 h).symm⟩

/-- Settles O1: the five words are the encodings; the three illegal ones are evaluated. -/
theorem specWordsDecodeToTheirCommands : Obligations.SpecWordsDecodeToTheirCommands :=
  ⟨decode_encode .gcd, decode_encode .xgcd, decode_encode .modinv, decode_encode .modpow,
    decode_encode .keygen, by decide, by decide, by decide⟩

/-- Settles O14: the expansions, unfolded. -/
theorem pseudoInstructionsExpand : Obligations.PseudoInstructionsExpand := fun _ _ _ =>
  ⟨rfl, rfl, rfl, rfl, rfl, rfl, rfl⟩

/-! ## A write to `CMD` (30_encoding.md R66, R67; 20_memory.md R45) -/

/-- With no command in progress, a command word is stored and its command accepted. -/
theorem step_accept {s : State} {i : Instr} {w : Word} {rest : List Event} (hk : s.hidden.kstep = .idle)
    (hb : s.status.busy = false) (hd : decode w = .command i) (h : s.world.script = .write 0x00 w :: rest) :
    step s = .next (accept i (storeReg .cmd w (s.popped rest))) := by
  rw [step_cons s _ rest h]
  exact (hostWrite_command (s := s.popped rest) hb hd).trans (exec_idle i _ hk)

/-- With no command in progress, an illegal word is stored and recorded. -/
theorem step_illegal {s : State} {why : Illegal} {w : Word} {rest : List Event}
    (hb : s.status.busy = false) (hd : decode w = .illegal why) (h : s.world.script = .write 0x00 w :: rest) :
    step s = .next (illegalCommand (storeReg .cmd w (s.popped rest))) := by
  rw [step_cons s _ rest h]
  change hostWrite Reg.cmd.index w (s.popped rest) = _
  simp [hostWrite, Reg.hostWritable, State.popped, hb, startCommand, hd]

/-- Settles O15: `accept` written out for each command. -/
theorem acceptanceOfALegalCommand : Obligations.AcceptanceOfALegalCommand := by
  intro s i w rest hs hb hd h
  have hk := hs.idle hb
  obtain ⟨-, -, -, -, hreq⟩ := (inv_iff_of_idle hk).1 hs
  refine ⟨hreq, (step_accept hk hb hd h).trans ?_⟩
  cases i <;> rfl

/-- Settles O16: a word that is none of the five encodings is illegal. -/
theorem illegalCommandIsRecorded : Obligations.IllegalCommandIsRecorded := by
  intro s w rest hb hw h
  cases hd : decode w with
  | illegal why => exact step_illegal hb hd h
  | command i =>
    obtain rfl := decode_eq_command_iff.1 hd
    exact absurd (by cases i <;> decide) hw

end Sys2Proof.Machine

namespace Sys2Proof.Machine

/-! ## Runs, and `WAIT` (30_encoding.md R69, 20_memory.md R53) -/

theorem runSteps_of_step {s u : State} (h : step s = .next u) (n : Nat) : runSteps (n + 1) s = runSteps n u := by
  simp only [runSteps, h]

theorem runSteps_succ_next {n : Nat} {s t : State} (h : runSteps (n + 1) s = .next t) :
    ∃ u, step s = .next u ∧ runSteps n u = .next t := by
  cases hs : step s with
  | next u => exact ⟨u, rfl, (runSteps_of_step hs n).symm.trans h⟩
  | fault r => simp [runSteps, hs] at h
  | refused r => simp [runSteps, hs] at h

/-- A step that is none of the program's, taken in any world in which it is the next one scheduled. -/
theorem step_inWorld {ev : Event} {s u : State} (hev : ev.ofProgram = false) (h : agentStep ev s = .next u)
    (rest : List Event) (replies : List Reply) :
    step (s.inWorld (ev :: rest) replies) = .next (u.inWorld rest replies) :=
  (step_cons (s.inWorld (ev :: rest) replies) ev rest rfl).trans (agentStep_inWorld rest replies ev hev s u h)

/-- The agents that the events name take their steps, each with a command in progress before it. -/
inductive BusyRun : List Event → State → State → Prop
  | nil (s : State) : BusyRun [] s s
  | cons {ev : Event} {evs : List Event} {s u t : State} (hb : s.status.busy = true)
      (hstep : agentStep ev s = .next u) (hrun : BusyRun evs u t) : BusyRun (ev :: evs) s t

/-- With the events next in the script it is a run of the machine, whatever comes after them. -/
theorem BusyRun.scheduled {evs : List Event} {s t : State} (h : BusyRun evs s t)
    (hev : ∀ ev ∈ evs, ev.ofProgram = false) (rest : List Event) (replies : List Reply) :
    runSteps evs.length (s.inWorld (evs ++ rest) replies) = .next (t.inWorld rest replies) := by
  induction h with
  | nil s => rfl
  | cons hb hstep hrun ih =>
    obtain ⟨hev, hevs⟩ := List.forall_mem_cons.1 hev
    exact (runSteps_of_step (step_inWorld hev hstep _ _) _).trans (ih hevs)

/-- A poll that reads `BUSY = 0` is over, in any world. -/
theorem step_poll_over {s : State} (hb : s.status.busy = false) (rest : List Event) (replies : List Reply) :
    step (s.inWorld (.poll :: rest) replies)
      = .next (s.inWorld rest (.word (statusWord s.status) :: replies)) :=
  hostPoll_over (s.inWorld rest replies) hb

/-- A poll that reads `BUSY = 1` comes again after the next step, when that is none of the program's. -/
theorem step_poll_busy {ev : Event} {s : State} (hev : ev.ofProgram = false) (hb : s.status.busy = true)
    (rest : List Event) (replies : List Reply) :
    step (s.inWorld (.poll :: ev :: rest) replies)
      = .next (s.inWorld (ev :: .poll :: rest) (.word (statusWord s.status) :: replies)) := by
  have hagain : waitAgain (ev :: rest) = ev :: .poll :: rest := waitAgain_other [] rest ev (by simp) hev
  rw [← hagain]
  exact hostPoll_busy (s.inWorld (ev :: rest) replies) hb

/-- Under `WAIT` the same steps fall, one between two reads, until a read finds the command over. -/
theorem BusyRun.polled {evs : List Event} {s t : State} (h : BusyRun evs s t)
    (hev : ∀ ev ∈ evs, ev.ofProgram = false) (hb : t.status.busy = false) (rest : List Event)
    (replies : List Reply) :
    ∃ read : List Reply, read.length = evs.length + 1
      ∧ runSteps (2 * evs.length + 1) (s.inWorld (.poll :: (evs ++ rest)) replies)
        = .next (t.inWorld rest (read ++ replies)) := by
  induction h generalizing replies with
  | nil s => exact ⟨[.word (statusWord s.status)], rfl, runSteps_of_step (step_poll_over hb rest replies) 0⟩
  | @cons ev evs s u t hbusy hstep hrun ih =>
    obtain ⟨hev, hevs⟩ := List.forall_mem_cons.1 hev
    obtain ⟨read, hlen, e⟩ := ih hevs hb (.word (statusWord s.status) :: replies)
    refine ⟨read ++ [.word (statusWord s.status)], by simp [hlen], ?_⟩
    calc runSteps (2 * evs.length + 1 + 1 + 1) (s.inWorld (.poll :: ev :: (evs ++ rest)) replies)
        = runSteps (2 * evs.length + 1 + 1)
            (s.inWorld (ev :: .poll :: (evs ++ rest)) (.word (statusWord s.status) :: replies)) :=
          runSteps_of_step (step_poll_busy hev hbusy _ _) _
      _ = runSteps (2 * evs.length + 1)
            (u.inWorld (.poll :: (evs ++ rest)) (.word (statusWord s.status) :: replies)) :=
          runSteps_of_step (step_inWorld hev hstep _ _) _
      _ = .next (t.inWorld rest (read ++ [.word (statusWord s.status)] ++ replies)) := by
          rw [e, List.append_assoc]; rfl

/-- A run of the machine over such events is one of the agents they name, in any world. -/
theorem busyRun_of_runSteps {evs : List Event} (hev : ∀ ev ∈ evs, ev.ofProgram = false) {s t : State}
    (hs : s.world.script = evs)
    (hb : ∀ k u, k < evs.length → runSteps k s = .next u → u.status.busy = true)
    (h : runSteps evs.length s = .next t) (rest : List Event) (replies : List Reply) :
    BusyRun evs (s.inWorld rest replies) (t.inWorld rest replies) := by
  induction evs generalizing s with
  | nil => cases h; exact .nil _
  | cons ev evs ih =>
    obtain ⟨hev, hevs⟩ := List.forall_mem_cons.1 hev
    obtain ⟨u, hu, ht⟩ := runSteps_succ_next h
    have hstep : agentStep ev (s.popped evs) = .next u := (step_cons s ev evs hs).symm.trans hu
    obtain ⟨hscript, -⟩ := agentStep_keepsWorld ev hev _ _ hstep
    refine .cons (hb 0 s (Nat.succ_pos _) rfl)
      (agentStep_inWorld rest replies ev hev (s.popped evs) u hstep)
      (ih hevs hscript (fun k v hk hv => ?_) ht)
    exact hb (k + 1) v (Nat.succ_lt_succ hk) ((runSteps_of_step hu k).trans hv)

/-- Settles O13: the poll by its two cases, and `WAIT` as the run of the steps that fall under it. -/
theorem waitReadsStatusUntilTheCommandIsOver : Obligations.WaitReadsStatusUntilTheCommandIsOver := by
  refine ⟨fun s rest h => ?poll, fun s t evs rest hev hb ht htb h => ?wait⟩
  case poll =>
    rw [step_cons s _ rest h]
    refine ⟨fun hb => hostPoll_over (s.popped rest) hb, fun hb => ?_⟩
    have hpoll := hostPoll_busy (s.popped rest) hb
    refine ⟨fun program others ev hrest hprogram hev => ?_, fun hprogram => ?_⟩
    · rw [← waitAgain_other program others ev hprogram hev, ← hrest]
      exact hpoll
    · rw [← waitAgain_program rest hprogram]
      exact hpoll
  case wait =>
    have hrun := busyRun_of_runSteps hev rfl hb ht s.world.script s.world.replies
    obtain ⟨read, hlen, e⟩ := hrun.polled hev htb rest s.world.replies
    refine ⟨read, hlen, ?_⟩
    rwa [← List.cons_append, ← h] at e

end Sys2Proof.Machine

namespace Sys2Proof.Machine

/-! ## The Bezout coefficients and the modular inverse (41_xgcd_modinv.md R80, R83 to R85) -/

theorem extendedGcd_zero (b : Nat) : extendedGcd 0 b = (b, 0, 1) := rfl

/-- The recursion, without the bound on the calls. -/
theorem extendedGcd_of_ne_zero {a : Nat} (ha : a ≠ 0) (b : Nat) :
    extendedGcd a b
      = (Nat.gcd a b, (extendedGcd (b % a) a).2.2 - ((b / a : Nat) : Int) * (extendedGcd (b % a) a).2.1,
          (extendedGcd (b % a) a).2.1) := by
  obtain ⟨k, rfl⟩ := Nat.exists_eq_succ_of_ne_zero ha
  have hlt := Nat.mod_lt b (Nat.succ_pos k)
  have hfuel : extendedGcdLoop k (b % (k + 1)) (k + 1) = extendedGcd (b % (k + 1)) (k + 1) :=
    extendedGcdLoop_fuel _ _ _ _ (Nat.le_of_lt_succ hlt) le_rfl
  have hg := extendedGcd_fst (k + 1) b
  rw [extendedGcd, extendedGcdLoop, if_neg ha] at hg ⊢
  rw [hfuel] at hg ⊢
  exact Prod.ext hg rfl

/-- `a * x + b * y = gcd(a, b)` for every pair. -/
theorem extendedGcd_bezout (a b : Nat) :
    (a : Int) * (extendedGcd a b).2.1 + b * (extendedGcd a b).2.2 = (Nat.gcd a b : Nat) := by
  induction a, b using Nat.gcd.induction with
  | H0 b => simp [extendedGcd_zero]
  | H1 a b ha ih =>
    rw [extendedGcd_of_ne_zero ha.ne', Nat.gcd_rec, ← ih]
    have hb : (a : Int) * ((b / a : Nat) : Int) + ((b % a : Nat) : Int) = b := by
      exact_mod_cast Nat.div_add_mod b a
    linear_combination -(extendedGcd (b % a) a).2.1 * hb

/-- The bounds of R83, each multiplied by the gcd. -/
theorem extendedGcd_bounds (a b : Nat) :
    (extendedGcd a b).2.1.natAbs * Nat.gcd a b ≤ max (Nat.gcd a b) b
    ∧ (extendedGcd a b).2.2.natAbs * Nat.gcd a b ≤ max (Nat.gcd a b) a := by
  induction a, b using Nat.gcd.induction with
  | H0 b => simp [extendedGcd_zero]
  | H1 a b ha ih =>
    obtain ⟨hx, hy⟩ := ih
    rw [extendedGcd_of_ne_zero ha.ne']
    dsimp only
    rw [← Nat.gcd_rec] at hx hy
    have hga : Nat.gcd a b ≤ a := Nat.gcd_le_left b ha
    rw [max_eq_right hga] at hx
    refine ⟨?_, hx.trans (le_max_right _ _)⟩
    rcases Nat.eq_zero_or_pos (b % a) with h0 | hpos
    · simp [h0, extendedGcd_zero]
    · have hgb : Nat.gcd a b ≤ b % a := Nat.gcd_rec a b ▸ Nat.gcd_le_left a hpos
      rw [max_eq_right hgb] at hy
      refine le_max_of_le_right ?_
      generalize (extendedGcd (b % a) a).2.1 = x, (extendedGcd (b % a) a).2.2 = y, Nat.gcd a b = g at *
      calc (y - ((b / a : Nat) : Int) * x).natAbs * g
          ≤ (y.natAbs + b / a * x.natAbs) * g := by
            gcongr
            exact (Int.natAbs_sub_le _ _).trans (by rw [Int.natAbs_mul, Int.natAbs_natCast])
        _ = y.natAbs * g + b / a * (x.natAbs * g) := by ring
        _ ≤ b % a + b / a * a := by gcongr
        _ = b := Nat.mod_add_div' b a

theorem gcd_lt_two_pow {a b : Nat} (ha : a < 2 ^ 64) (hb : b < 2 ^ 64) : Nat.gcd a b < 2 ^ 64 := by
  rcases Nat.eq_zero_or_pos a with rfl | hpos
  · rwa [Nat.gcd_zero_left]
  · exact (Nat.gcd_le_left b hpos).trans_lt ha

/-- Coefficients of 64-bit operands are in the range that the registers hold (10_state.md R13). -/
theorem extendedGcd_natAbs_lt {a b : Nat} (ha : a < 2 ^ 64) (hb : b < 2 ^ 64) :
    (extendedGcd a b).2.1.natAbs < 2 ^ 64 ∧ (extendedGcd a b).2.2.natAbs < 2 ^ 64 := by
  rcases Nat.eq_zero_or_pos (Nat.gcd a b) with h0 | hpos
  · obtain ⟨rfl, rfl⟩ := Nat.gcd_eq_zero_iff.1 h0
    simp [extendedGcd_zero]
  · obtain ⟨hx, hy⟩ := extendedGcd_bounds a b
    have hg := gcd_lt_two_pow ha hb
    exact ⟨((Nat.le_mul_of_pos_right _ hpos).trans hx).trans_lt (max_lt hg hb),
      ((Nat.le_mul_of_pos_right _ hpos).trans hy).trans_lt (max_lt hg ha)⟩

theorem modInverse_lt {m : Nat} (hm : m ≠ 0) (a : Nat) : modInverse a m < m := by
  unfold modInverse
  have := Int.emod_lt_of_pos ((extendedGcd a m).2.1 + m) (show (0 : Int) < m by omega)
  omega

/-- The inverse of `a` modulo `m`, for coprime `a` and `m` (41_xgcd_modinv.md R85). -/
theorem mul_modInverse {a m : Nat} (hm : m ≠ 0) (hg : Nat.gcd a m = 1) : a * modInverse a m % m = 1 % m := by
  have hcast : (modInverse a m : Int) = ((extendedGcd a m).2.1 + m) % m :=
    Int.toNat_of_nonneg (Int.emod_nonneg _ (by omega))
  have hbezout := extendedGcd_bezout a m
  rw [hg] at hbezout
  zify
  rw [hcast, Int.mul_emod, Int.emod_emod, ← Int.mul_emod, ← Nat.cast_one, ← hbezout]
  rw [mul_add, Int.add_mul_emod_self_right, Int.add_mul_emod_self_left]

end Sys2Proof.Machine

namespace Sys2Proof.Machine

/-! ## The arithmetic commands by their results (30_encoding.md R68, 40_gcd.md R76, 41_xgcd_modinv.md R82, R86,
42_modpow.md R93)

What each command's step at `K_RUN` leaves in `ERR` and its destination set, as numbers. -/

theorem State.opA_lt (s : State) : s.opA < 2 ^ 64 := s.operands.a.isLt
theorem State.opB_lt (s : State) : s.opB < 2 ^ 64 := s.operands.b.isLt
theorem State.opM_lt (s : State) : s.opM < 2 ^ 64 := s.operands.m.isLt

theorem gcdBody_spec {s : State} (h0 : s.results.res = 0) :
    (s.opA = 0 ∧ s.opB = 0 → (gcdBody s).status.err = .bothZero ∧ (gcdBody s).results.res = 0)
    ∧ (¬ (s.opA = 0 ∧ s.opB = 0) →
        (gcdBody s).status.err = .none ∧ (gcdBody s).results.res.toNat = Nat.gcd s.opA s.opB) := by
  rw [gcdBody_err, gcdBody_res s h0]
  refine ⟨fun h => ⟨if_pos h, by simp [h]⟩, fun h => ⟨if_neg h, ?_⟩⟩
  exact Nat.mod_eq_of_lt (gcd_lt_two_pow s.opA_lt s.opB_lt)

theorem coefValue_of_natAbs_lt {v : Int} (h : v.natAbs < 2 ^ 64) : coefValue (coefLow v) (coefNeg v) = v :=
  (coefficientsReadBack v (by omega) (by omega)).1

/-- The coefficients that the registers hold are those of R80, since these fit 65 bits. -/
theorem xgcdBody_spec (s : State) :
    (xgcdBody s).status.err = .none ∧ (xgcdBody s).results.res.toNat = Nat.gcd s.opA s.opB
    ∧ (s.opA : Int) * coefValue (xgcdBody s).results.xlo (xgcdBody s).status.xneg
        + s.opB * coefValue (xgcdBody s).results.ylo (xgcdBody s).status.yneg
      = ((xgcdBody s).results.res.toNat : Int) := by
  have hgcd : (BitVec.ofNat 64 (Nat.gcd s.opA s.opB)).toNat = Nat.gcd s.opA s.opB :=
    Nat.mod_eq_of_lt (gcd_lt_two_pow s.opA_lt s.opB_lt)
  obtain ⟨hx, hy⟩ := extendedGcd_natAbs_lt s.opA_lt s.opB_lt
  rw [xgcdBody_eq]
  refine ⟨rfl, hgcd, ?_⟩
  change (s.opA : Int) * coefValue (coefLow _) (coefNeg _) + s.opB * coefValue (coefLow _) (coefNeg _)
    = ((BitVec.ofNat 64 (Nat.gcd s.opA s.opB)).toNat : Int)
  rw [hgcd, coefValue_of_natAbs_lt hx, coefValue_of_natAbs_lt hy]
  exact extendedGcd_bezout s.opA s.opB

/-- An error writes no result, and `RES` reads 0 from acceptance on. -/
theorem modinvBody_spec {s : State} (h0 : s.results.res = 0) :
    (s.opM = 0 → (modinvBody s).status.err = .modZero ∧ (modinvBody s).results.res = 0)
    ∧ (s.opM ≠ 0 → Nat.gcd s.opA s.opM ≠ 1 →
        (modinvBody s).status.err = .notCoprime ∧ (modinvBody s).results.res = 0)
    ∧ (s.opM ≠ 0 → Nat.gcd s.opA s.opM = 1 →
        (modinvBody s).status.err = .none ∧ (modinvBody s).results.res.toNat < s.opM
        ∧ s.opA * (modinvBody s).results.res.toNat % s.opM = 1 % s.opM) := by
  rw [modinvBody_err, modinvBody_res s h0]
  refine ⟨fun hm => by simp [hm], fun hm hg => by simp [hm, hg], fun hm hg => ?_⟩
  have hlt := modInverse_lt hm s.opA
  have hres : (BitVec.ofNat 64 (modInverse s.opA s.opM)).toNat = modInverse s.opA s.opM :=
    Nat.mod_eq_of_lt (hlt.trans s.opM_lt)
  rw [if_neg hm, if_pos hg, if_pos ⟨hm, hg⟩, hres]
  exact ⟨rfl, hlt, mul_modInverse hm hg⟩

theorem modpowBody_spec {s : State} (h0 : s.results.res = 0) :
    (s.opM = 0 → (modpowBody s).status.err = .modZero ∧ (modpowBody s).results.res = 0)
    ∧ (s.opM ≠ 0 →
        (modpowBody s).status.err = .none ∧ (modpowBody s).results.res.toNat = s.opA ^ s.opB % s.opM) := by
  rw [modpowBody_err, modpowBody_res s h0]
  refine ⟨fun hm => by simp [hm], fun hm => ?_⟩
  rw [if_neg hm, if_neg hm]
  exact ⟨rfl, Nat.mod_eq_of_lt ((Nat.mod_lt _ (Nat.pos_of_ne_zero hm)).trans s.opM_lt)⟩

/-! ## From acceptance to the end of an arithmetic command (30_encoding.md R66, R68) -/

/-- The state in which a command whose word `w` the host has written is accepted. -/
def State.accepted (i : Instr) (w : Word) (s : State) : State := accept i (storeReg .cmd w s)

/-- The host's write of a command word with no command in progress, in any world. -/
theorem step_accepted {s : State} {i : Instr} {w : Word} (hk : s.hidden.kstep = .idle)
    (hb : s.status.busy = false) (hd : decode w = .command i) (rest : List Event) (replies : List Reply) :
    step (s.inWorld (.write 0x00 w :: rest) replies) = .next ((s.accepted i w).inWorld rest replies) := by
  rw [step_accept (s := s.inWorld (.write 0x00 w :: rest) replies) hk hb hd rfl]
  cases i <;> rfl

/-- A run of the steps that end a command, after the write that starts it: scheduled as they are, or with a
`WAIT` of the program before them. -/
theorem BusyRun.after_write {s t : State} {i : Instr} {w : Word} {evs rest : List Event} {count : Nat}
    (h : BusyRun evs (s.accepted i w) t) (hk : s.hidden.kstep = .idle) (hb : s.status.busy = false)
    (hd : decode w = .command i) (hev : ∀ ev ∈ evs, ev.ofProgram = false) (htb : t.status.busy = false)
    (hscript : (s.world.script = .write 0x00 w :: evs ++ rest ∧ count = evs.length + 1)
      ∨ (s.world.script = [.write 0x00 w, .poll] ++ evs ++ rest ∧ count = 2 * evs.length + 2)) :
    ∃ replies, runSteps count s = .next (t.inWorld rest replies) := by
  have accepted (after : List Event) (hs : s.world.script = .write 0x00 w :: after) :
      step s = .next ((s.accepted i w).inWorld after s.world.replies) := by
    have e := step_accepted hk hb hd after s.world.replies
    rwa [← hs] at e
  rcases hscript with ⟨hs, rfl⟩ | ⟨hs, rfl⟩
  · exact ⟨_, (runSteps_of_step (accepted _ hs) _).trans (h.scheduled hev rest _)⟩
  · obtain ⟨read, -, e⟩ := h.polled hev htb rest s.world.replies
    exact ⟨_, (runSteps_of_step (accepted _ hs) _).trans e⟩

theorem isArithmetic_iff (i : Instr) : isArithmetic i = true ↔ i ≠ .keygen := by cases i <;> simp [isArithmetic]

theorem firstStep_of_ne_keygen {i : Instr} (hi : i ≠ .keygen) : firstStep i = .run := by
  cases i with
  | keygen => exact absurd rfl hi
  | gcd | xgcd | modinv | modpow => rfl

/-- The engine's turn runs an arithmetic command just accepted, and the command is over. -/
theorem accepted_turn {i : Instr} {w : Word} (hi : i ≠ .keygen) (hd : decode w = .command i) (s : State) :
    ∃ t, exec i (s.accepted i w) = .next t ∧ BusyRun [.mie] (s.accepted i w) t
      ∧ t.status.busy = false ∧ t.status.done = true ∧ t.cmd = w ∧ t.operands = s.operands := by
  have hk : (s.accepted i w).hidden.kstep = .run := by
    rw [State.accepted, accept_hidden]
    exact firstStep_of_ne_keygen hi
  have hcmd : (s.accepted i w).cmd = w := accept_cmd i _
  obtain ⟨t, ht⟩ := exec_arithmetic_answers ((isArithmetic_iff i).2 hi) hk
  obtain ⟨htcmd, htops, -⟩ := exec_keeps_hostRegisters ht
  have hturn : agentStep .mie (s.accepted i w) = .next t :=
    (mieTurn_own _ i (by rw [hk]; rfl) (by rw [hcmd]; exact hd)).trans ht
  have hended : t.status.busy = false ∧ t.status.done = true := by
    rcases exec_arithmetic_next hi ht with ⟨hidle, -⟩ | ⟨-, ⟨_, rfl⟩ | ⟨_, rfl⟩ | ⟨-, _, _, _, rfl⟩⟩
    · rw [hk] at hidle; cases hidle
    · exact ⟨rfl, rfl⟩
    · exact ⟨rfl, rfl⟩
    · exact ⟨rfl, rfl⟩
  exact ⟨t, ht, .cons rfl hturn (.nil t), hended.1, hended.2, htcmd.trans hcmd, htops.trans (accept_operands i _)⟩

/-- Settles O58: the write accepts the command, the turn ends it, and each command's step is read as numbers. -/
theorem arithmeticCommandsRunToCompletion : Obligations.ArithmeticCommandsRunToCompletion := by
  intro s i w rest a b m hs hb hi hd h ha hbo hm
  subst ha hbo hm
  obtain ⟨t, ht, hrun, htb, htd, htcmd, htops⟩ := accepted_turn hi hd s
  obtain ⟨replies, e⟩ :=
    hrun.after_write (rest := rest) (hs.idle hb) hb hd (by simp [Event.ofProgram]) htb (.inl ⟨h, rfl⟩)
  refine ⟨t.inWorld rest replies, e, htb, htd, htcmd, htops, rfl, ?_, ?_, ?_, ?_⟩
  · rintro rfl
    cases (exec_gcd_run _ rfl).symm.trans ht
    exact gcdBody_spec (s := s.accepted .gcd w) rfl
  · rintro rfl
    cases (exec_xgcd_run _ rfl).symm.trans ht
    exact xgcdBody_spec (s.accepted .xgcd w)
  · rintro rfl
    cases (exec_modinv_run _ rfl).symm.trans ht
    exact modinvBody_spec (s := s.accepted .modinv w) rfl
  · rintro rfl
    cases (exec_modpow_run _ rfl).symm.trans ht
    exact modpowBody_spec (s := s.accepted .modpow w) rfl

end Sys2Proof.Machine

namespace Sys2Proof.Machine

/-! ## The program ENCRYPT_UNIT (30_encoding.md R65, R69, R70) -/

/-- A write of the program to a register that only stores. -/
theorem step_store {s : State} {r : Reg} (hb : s.status.busy = false) (hr : r ∈ Reg.storing) (v : Word)
    (rest : List Event) (replies : List Reply) :
    step (s.inWorld (.write r.index v :: rest) replies) = .next ((storeReg r v s).inWorld rest replies) := by
  obtain ⟨hc, hw⟩ := Reg.hostWritable_of_storing r hr
  refine (hostWrite_store (s := s.inWorld rest replies) hb hc hw v).trans ?_
  cases r <;> rfl

/-- `WAIT` on a command that the engine's next turn ends, whether that turn is scheduled or only the program
is: the engine then has its turn all the same. -/
theorem BusyRun.polled_turn {s t : State} (h : BusyRun [.mie] s t) (hb : t.status.busy = false)
    {after rest : List Event}
    (hafter : after = .mie :: rest ∨ (after = rest ∧ ∀ ev ∈ rest, ev.ofProgram = true)) (replies : List Reply) :
    ∃ read : List Reply, runSteps 3 (s.inWorld (.poll :: after) replies) = .next (t.inWorld rest read) := by
  obtain ⟨read, -, e⟩ := h.polled (by simp [Event.ofProgram]) hb rest replies
  rcases hafter with rfl | ⟨rfl, hprogram⟩
  · exact ⟨_, e⟩
  · have hbusy : s.status.busy = true := by cases h; assumption
    refine ⟨read ++ replies, Eq.trans ?_ e⟩
    have hpoll : step (s.inWorld (.poll :: after) replies)
        = step (s.inWorld (.poll :: .mie :: after) replies) := by
      rw [step_poll_busy rfl hbusy, ← waitAgain_program after hprogram]
      exact hostPoll_busy (s.inWorld after replies) hbusy
    simp only [runSteps, hpoll, List.singleton_append]
    rfl

/-- The state in which the program has written the operands of `MODPOW`. -/
def State.operandsWritten (a b m : Word) (s : State) : State := storeReg .m m (storeReg .b b (storeReg .a a s))

/-- The writes of `MODPOW base, exponent, modulus`, up to its `WAIT` (30_encoding.md R70). -/
theorem runSteps_modpow_writes {s : State} (hk : s.hidden.kstep = .idle) (hb : s.status.busy = false)
    (a b m : Word) (after : List Event) (replies : List Reply) (n : Nat) :
    runSteps (n + 4) (s.inWorld (Script.modpow a b m ++ after) replies)
      = runSteps n
          (((s.operandsWritten a b m).accepted .modpow (encode .modpow)).inWorld (.poll :: after) replies) := by
  calc runSteps (n + 3 + 1) (s.inWorld (Script.modpow a b m ++ after) replies)
      = runSteps (n + 2 + 1) ((storeReg .a a s).inWorld _ replies) :=
        runSteps_of_step (step_store hb (by decide) a _ replies) _
    _ = runSteps (n + 1 + 1) ((storeReg .b b (storeReg .a a s)).inWorld _ replies) :=
        runSteps_of_step (step_store (s := storeReg .a a s) hb (by decide) b _ replies) _
    _ = runSteps (n + 1) ((s.operandsWritten a b m).inWorld _ replies) :=
        runSteps_of_step (step_store (s := storeReg .b b (storeReg .a a s)) hb (by decide) m _ replies) _
    _ = runSteps n _ :=
        runSteps_of_step (step_accepted (s := s.operandsWritten a b m) hk hb (decode_encode .modpow) _ replies) n

/-- Settles O59: the writes, the acceptance of `MODPOW`, and `WAIT`, under which the engine's turn falls. -/
theorem encryptUnitProgramEncrypts : Obligations.EncryptUnitProgramEncrypts := by
  intro s m e n after rest hs hb hn h hafter
  have hwrites := runSteps_modpow_writes (hs.idle hb) hb m e n after s.world.replies 3
  obtain ⟨t, ht, hrun, htb, htd, -, -⟩ :=
    accepted_turn (by decide) (decode_encode .modpow) (s.operandsWritten m e n)
  obtain ⟨read, hwait⟩ := hrun.polled_turn htb hafter s.world.replies
  rw [show Script.modpow m e n ++ after = s.world.script from h.symm] at hwrites
  obtain ⟨-, -, hkeys, hatt, hconf, -⟩ := arithmeticCommandFrame .modpow _ t (by decide) ht
  cases (exec_modpow_run _ rfl).symm.trans ht
  have hM : ((s.operandsWritten m e n).accepted .modpow (encode .modpow)).opM ≠ 0 :=
    fun h0 => hn (BitVec.eq_of_toNat_eq h0)
  obtain ⟨herr, hres⟩ := (modpowBody_spec rfl).2 hM
  exact ⟨_, hwrites.trans hwait, rfl, htb, htd, herr, hres, hkeys, hconf, hatt⟩

end Sys2Proof.Machine

namespace Sys2Proof.Machine

/-! ## A KEYGEN given good answers (43_keygen.md R100 to R115) -/

/-- The engine's turn, when a step of KEYGEN is due. -/
theorem keygen_turn {s u t : State} (hk : s.hidden.kstep.ownStep = true) (h : exec .keygen s = .next u)
    (hd : decode s.cmd = .command .keygen) (ht : u = t) : agentStep .mie s = .next t :=
  (mieTurn_own s .keygen hk hd).trans (ht ▸ h)

/-- An answer of the kind that KEYGEN waits for. -/
theorem keygen_answer {s u t : State} {a : Answer} (ha : s.hidden.req.takes a = true)
    (h : exec .keygen { s with world := { s.world with answer := some a } } = .next u)
    (hd : decode s.cmd = .command .keygen) (ht : u = t) : agentStep (.answer a) s = .next t := by
  change deliver a s = .next t
  rw [deliver, if_pos ha, ← ht]
  exact (engine_command { s with world := { s.world with answer := some a } } .keygen hd).trans h

/-- KEYGEN on its way: from its acceptance in `s` on, these registers alone have moved. -/
def State.during (s : State) (attempts : Word) (phase : Phase) (h : Hidden) : State :=
  { s with
    attempts := attempts
    status := { s.status with phase := phase }
    hidden := h
    world := { s.world with answer := none } }

section
variable {s t : State} {h : Hidden} {evs : List Event}
  (hd : decode s.cmd = .command .keygen) (hb : s.status.busy = true)
include hd hb

/-- From `K_INIT` to the draws of the first attempt (43_keygen.md R101, R102). -/
theorem busyRun_started (hlegal : s.conf.legal = true) (hmax : 1 ≤ s.conf.maxtry.toNat)
    (hrun : BusyRun evs (s.during 1 .waitRand { h with kstep := .pickP, req := .rand s.conf.pspan }) t) :
    BusyRun (.mie :: .mie :: evs) (s.during 0 .exec { h with kstep := .init }) t :=
  .cons (u := s.during 0 .exec { h with kstep := .start }) hb
    (keygen_turn rfl rfl hd (if_pos hlegal)) <|
  .cons hb (keygen_turn rfl rfl hd (if_neg (Nat.not_le.2 hmax))) hrun

/-- Two draws in range ask for the primes at their indices (43_keygen.md R103, R104). -/
theorem busyRun_picked {r1 r2 : Word} (hr1 : r1.toNat < s.conf.pspan.toNat) (hr2 : r2.toNat < s.conf.qspan.toNat)
    (hrun : BusyRun evs (s.during 1 .waitPrime { h with
      kstep := .fetchP, req := .prime (s.conf.pbase + r1), ip := s.conf.pbase + r1, iq := s.conf.qbase + r2 }) t) :
    BusyRun (.answer (.rand r1) :: .answer (.rand r2) :: evs)
      (s.during 1 .waitRand { h with kstep := .pickP, req := .rand s.conf.pspan }) t :=
  .cons hb (keygen_answer rfl rfl hd (if_neg hr1.not_ge)) <|
  .cons hb (keygen_answer rfl rfl hd (if_neg hr2.not_ge)) hrun

/-- Two primes found lead to `K_DERIVE` (43_keygen.md R105, R106). -/
theorem busyRun_fetched {i p q : Word}
    (hrun : BusyRun evs (s.during 1 .exec { h with kstep := .derive, req := .none, p := p, q := q }) t) :
    BusyRun (.answer (.found p) :: .answer (.found q) :: evs)
      (s.during 1 .waitPrime { h with kstep := .fetchP, req := .prime i }) t :=
  .cons hb (keygen_answer rfl rfl hd rfl) <| .cons hb (keygen_answer rfl rfl hd rfl) hrun

/-- `K_DERIVE`, and a draw that makes a coprime exponent (43_keygen.md R107, R110, R111). -/
theorem busyRun_derived {p q n phi r : Word} (hn : p.toNat * q.toNat = n.toNat)
    (hphi : totient p.toNat q.toNat = phi.toNat) (hr : 1 + r.toNat < phi.toNat)
    (hg : Nat.gcd (1 + r.toNat) phi.toNat = 1)
    (hrun : BusyRun evs (s.during 1 .exec { h with
      kstep := .finish, req := .none, p := p, q := q, tn := n, tphi := phi, te := 1 + r }) t) :
    BusyRun (.mie :: .answer (.rand r) :: evs)
      (s.during 1 .exec { h with kstep := .derive, req := .none, p := p, q := q }) t := by
  have derived : keygenDerive (s.during 1 .exec { h with kstep := .derive, req := .none, p := p, q := q })
      = s.during 1 .waitRand { h with
          kstep := .drawE, req := .rand (phi - 1), p := p, q := q, tn := n, tphi := phi } := by
    rcases keygenDerive_cases (s.during 1 .exec { h with kstep := .derive, req := .none, p := p, q := q }) with
      ⟨hover, -⟩ | ⟨-, hsmall, -⟩ | ⟨-, -, e⟩
    · exact absurd (hover.trans hn.le) n.isLt.not_ge
    · exact absurd (hphi.symm.trans_lt hsmall) (by omega)
    · have htn : BitVec.ofNat 64 (p.toNat * q.toNat) = n := by rw [hn, BitVec.ofNat_toNat, BitVec.setWidth_eq]
      have htphi : BitVec.ofNat 64 (totient p.toNat q.toNat).toNat = phi := by
        rw [hphi, Int.toNat_natCast, BitVec.ofNat_toNat, BitVec.setWidth_eq]
      rw [← htn, ← htphi]
      exact e
  have hrange : ¬ phi.toNat - 1 ≤ r.toNat := by omega
  have hcoprime : ¬ gcd (1 + r.toNat) phi.toNat ≠ 1 := by rw [gcd_eq_natGcd]; exact not_not.2 hg
  exact .cons hb (keygen_turn rfl rfl hd derived) <|
    .cons hb (keygen_answer rfl rfl hd ((if_neg hrange).trans (if_neg hcoprime))) hrun

end

/-- A coprime exponent and a round trip that closes end KEYGEN with its keys (43_keygen.md R112 to R115). -/
theorem keygenFinish_valid {s : State} {n phi e : Nat} (hn : s.hidden.tn.toNat = n) (hphi : s.hidden.tphi.toNat = phi)
    (he : s.hidden.te.toNat = e) (h2 : 2 ≤ phi) (hg : Nat.gcd e phi = 1)
    (hround : ∀ d : Nat, d < phi → e * d % phi = 1 → (5 ^ e % n) ^ d % n = 5) :
    keygenFinish s = endCommand .none (s.putKeys n e (modInverse e phi) phi)
      ∧ modInverse e phi < phi ∧ e * modInverse e phi % phi = 1 := by
  have hlt : modInverse e phi < phi := modInverse_lt (by omega) e
  have hed : e * modInverse e phi % phi = 1 := (mul_modInverse (by omega) hg).trans (Nat.mod_eq_of_lt h2)
  refine ⟨?_, hlt, hed⟩
  subst hn hphi he
  rcases keygenFinish_cases s with ⟨hne, -⟩ | ⟨-, hne, -⟩ | ⟨-, -, e⟩
  · exact absurd hed hne
  · exact absurd (hround _ hlt hed) hne
  · exact e

/-- The totient as the source writes it (43_keygen.md R109), where it is at least 2. -/
theorem totient_eq_mul {p q : Nat} (h : 2 ≤ (p - 1) * (q - 1)) : totient p q = ((p - 1) * (q - 1) : Nat) := by
  cases p with
  | zero => simp at h
  | succ p =>
    cases q with
    | zero => simp at h
    | succ q => simp only [totient, Nat.add_sub_cancel]; push_cast; ring

/-- A KEYGEN just accepted stands at `K_INIT` with no attempt counted. -/
theorem accepted_keygen_eq_during {s : State} (hp : s.PortIdle) (w : Word) :
    s.accepted .keygen w = (s.accepted .keygen w).during 0 .exec { s.hidden with kstep := .init } := by
  obtain ⟨cmd, status, operands, results, keys, attempts, conf, hidden, ⟨script, answer, replies⟩⟩ := s
  cases hp
  rfl

/-- The hidden state at `K_FINISH` of an attempt given these draws and primes. -/
def Hidden.finishing (h : Hidden) (ip iq p q n phi e : Word) : Hidden :=
  { h with kstep := .finish, req := .none, ip := ip, iq := iq, p := p, q := q, tn := n, tphi := phi, te := e }

/-- The steps of a KEYGEN whose first attempt ends Valid. -/
theorem busyRun_valid {s t : State} {h : Hidden} {r1 r2 r3 p q n phi : Word}
    (hd : decode s.cmd = .command .keygen) (hb : s.status.busy = true) (hlegal : s.conf.legal = true)
    (hmax : 1 ≤ s.conf.maxtry.toNat) (hr1 : r1.toNat < s.conf.pspan.toNat) (hr2 : r2.toNat < s.conf.qspan.toNat)
    (hn : p.toNat * q.toNat = n.toNat) (hphi : totient p.toNat q.toNat = phi.toNat)
    (hr3 : 1 + r3.toNat < phi.toNat) (hg : Nat.gcd (1 + r3.toNat) phi.toNat = 1)
    (hfinish : keygenFinish (s.during 1 .exec
      (h.finishing (s.conf.pbase + r1) (s.conf.qbase + r2) p q n phi (1 + r3))) = t) :
    BusyRun [.mie, .mie, .answer (.rand r1), .answer (.rand r2), .answer (.found p), .answer (.found q), .mie,
      .answer (.rand r3), .mie] (s.during 0 .exec { h with kstep := .init }) t :=
  busyRun_started hd hb hlegal hmax <| busyRun_picked hd hb hr1 hr2 <|
    busyRun_fetched (h := { h with ip := s.conf.pbase + r1, iq := s.conf.qbase + r2 }) hd hb <|
    busyRun_derived hd hb hn hphi hr3 hg <|
    .cons hb (keygen_turn rfl rfl hd hfinish) (.nil t)

/-- Settles O60: the ten steps as one run from the acceptance, which the machine takes as scheduled or under
`WAIT`. -/
theorem keygenRunsToAValidKey : Obligations.KeygenRunsToAValidKey := by
  intro s r1 r2 r3 p q others rest count n phi e hs hb hps hqs hp hq hmax hr1 hr2 hn hn64 hphi h2 he helt hg
    hround hothers hscript
  subst he hothers
  have hd : decode 0x5#64 = .command .keygen := decode_encode .keygen
  have hlegal := (Conf.legal_iff s.conf).2 ⟨hps, hqs, hp, hq⟩
  have htot : totient p.toNat q.toNat = phi := by rw [totient_eq_mul (hphi ▸ h2), hphi]
  have hphi64 : phi < 2 ^ 64 := by
    have := totient_le_mul (p := p.toNat) (q := q.toNat) (by omega)
    omega
  have hnw : (BitVec.ofNat 64 n).toNat = n := Nat.mod_eq_of_lt hn64
  have hphiw : (BitVec.ofNat 64 phi).toNat = phi := Nat.mod_eq_of_lt hphi64
  have hew : (1 + r3).toNat = 1 + r3.toNat := BitVec.toNat_add_of_lt (by change 1 + r3.toNat < _; omega)
  obtain ⟨hfinish, hdlt, hed⟩ := keygenFinish_valid
    (s := (s.accepted .keygen 0x5).during 1 .exec (s.hidden.finishing (s.conf.pbase + r1) (s.conf.qbase + r2) p q
      (BitVec.ofNat 64 n) (BitVec.ofNat 64 phi) (1 + r3))) hnw hphiw hew h2 hg hround
  have hrun := busyRun_valid (s := s.accepted .keygen 0x5) hd rfl hlegal hmax hr1 hr2 (hn.symm.trans hnw.symm)
    (by rw [htot, hphiw]) (by rwa [hphiw]) (by rwa [hphiw]) hfinish
  rw [← accepted_keygen_eq_during hs.1] at hrun
  obtain ⟨replies, h⟩ := hrun.after_write (rest := rest) (count := count) (hs.idle hb) hb hd
    (by simp [Event.ofProgram]) rfl hscript
  have hdw : (BitVec.ofNat 64 (modInverse (1 + r3.toNat) phi)).toNat = modInverse (1 + r3.toNat) phi :=
    Nat.mod_eq_of_lt (hdlt.trans hphi64)
  refine ⟨_, h, rfl, rfl, rfl, rfl, rfl, hnw, hphiw, Nat.mod_eq_of_lt (helt.trans hphi64), ?_, ?_,
    rfl, rfl, rfl, rfl⟩
  · exact hdw.trans_lt hdlt
  · exact (congrArg (fun d => (1 + r3.toNat) * d % phi) hdw).trans hed

end Sys2Proof.Machine

namespace Sys2Proof.Machine

/-! ## GCD (40_gcd.md) -/

theorem State.opA_opB_zero_iff (s : State) :
    s.opA = 0 ∧ s.opB = 0 ↔ s.operands.a = 0 ∧ s.operands.b = 0 :=
  and_congr (@BitVec.toNat_eq 64 _ 0).symm (@BitVec.toNat_eq 64 _ 0).symm

/-- The step of `GCD` at `K_RUN` on operands not both zero ends the command with their gcd in `RES`. -/
theorem exec_gcd_nonzero {s : State} (hk : s.hidden.kstep = .run)
    (h0 : ¬ (s.operands.a = 0 ∧ s.operands.b = 0)) :
    exec .gcd s = .next (endCommand .none (s.putRes (Nat.gcd s.opA s.opB))) := by
  rw [exec_gcd_run s hk, gcdBody_nonzero s (mt s.opA_opB_zero_iff.1 h0)]

/-- Settles O18: the step is `endCommand` after the store to `RES`, and neither touches anything else. -/
theorem gcdCompletesWithTheGcd : Obligations.GcdCompletesWithTheGcd :=
  fun _ hk h0 => exec_gcd_nonzero hk h0

theorem not_dvd_both_of_gcd_lt {a b c : Nat} (hpos : 0 < Nat.gcd a b) (hc : Nat.gcd a b < c) :
    a % c ≠ 0 ∨ b % c ≠ 0 := by
  by_contra hboth
  obtain ⟨ha, hb⟩ : a % c = 0 ∧ b % c = 0 := by rwa [not_or, not_not, not_not] at hboth
  have hdvd : c ∣ Nat.gcd a b := Nat.dvd_gcd (Nat.dvd_of_mod_eq_zero ha) (Nat.dvd_of_mod_eq_zero hb)
  exact Nat.not_dvd_of_pos_of_lt hpos hc hdvd

/-- Settles O19: `RES` holds the gcd, which fits 64 bits and is not 0, so each clause is one about `Nat.gcd`. -/
theorem gcdResultIsTheGreatestDivisor : Obligations.GcdResultIsTheGreatestDivisor := by
  intro s hk h0
  have hres : (BitVec.ofNat 64 (Nat.gcd s.opA s.opB)).toNat = Nat.gcd s.opA s.opB :=
    Nat.mod_eq_of_lt (gcd_lt_two_pow s.opA_lt s.opB_lt)
  have hpos : 0 < Nat.gcd s.opA s.opB :=
    Nat.pos_of_ne_zero fun hg => h0 (s.opA_opB_zero_iff.1 (Nat.gcd_eq_zero_iff.1 hg))
  refine ⟨_, exec_gcd_nonzero hk h0, endCommand_err _ _, ?_⟩
  rw [endCommand_results, putRes_res, hres]
  refine ⟨fun h => hpos.ne' (hres.symm.trans (congrArg BitVec.toNat h)), ?_, ?_, ?_⟩
  · exact Nat.mod_eq_zero_of_dvd (Nat.gcd_dvd_left s.opA s.opB)
  · exact Nat.mod_eq_zero_of_dvd (Nat.gcd_dvd_right s.opA s.opB)
  · exact fun c hc => not_dvd_both_of_gcd_lt hpos hc

end Sys2Proof.Machine

namespace Sys2Proof.Machine

/-! ## XGCD (41_xgcd_modinv.md R80 to R83) -/

theorem eq_gcd_of_extendedGcd_eq {a b g : Nat} {x y : Int} (h : extendedGcd a b = (g, x, y)) :
    g = Nat.gcd a b := by rw [← extendedGcd_fst, h]

/-- Settles O21: the recursion holds for the bounded loop, and the triple satisfies Bezout's identity. -/
theorem extendedGcdObeysItsRecursion : Obligations.ExtendedGcdObeysItsRecursion := by
  refine ⟨extendedGcd_zero, fun a b ha g x1 y1 h => ?recursion, fun a b g x y h => ?bezout⟩
  case recursion =>
    have hg : g = Nat.gcd (b % a) a := eq_gcd_of_extendedGcd_eq h
    rw [extendedGcd_of_ne_zero ha, h, Nat.gcd_rec, ← hg]
  case bezout =>
    have hg : g = Nat.gcd a b := eq_gcd_of_extendedGcd_eq h
    have hbezout := extendedGcd_bezout a b
    rw [h, ← hg] at hbezout
    exact ⟨hbezout, hg⟩

theorem le_max_one_div_of_mul_le {n g b : Nat} (hg : 0 < g) (h : n * g ≤ max g b) : n ≤ max 1 (b / g) := by
  rcases le_max_iff.1 h with h | h
  · exact le_max_of_le_left (Nat.le_of_mul_le_mul_right (by rwa [one_mul]) hg)
  · exact le_max_of_le_right ((Nat.le_div_iff_mul_le hg).2 h)

/-- The coefficient that the recursion multiplies is at most `a`, so the product is at most `b`. -/
theorem extendedGcd_product_le {a : Nat} (ha : a ≠ 0) (b : Nat) :
    (((b / a : Nat) : Int) * (extendedGcd (b % a) a).2.1).natAbs ≤ b := by
  have hpos : 0 < a := Nat.pos_of_ne_zero ha
  have hx : (extendedGcd (b % a) a).2.1.natAbs ≤ a :=
    calc (extendedGcd (b % a) a).2.1.natAbs
        ≤ (extendedGcd (b % a) a).2.1.natAbs * Nat.gcd (b % a) a :=
          Nat.le_mul_of_pos_right _ (Nat.gcd_pos_of_pos_right _ hpos)
      _ ≤ max (Nat.gcd (b % a) a) a := (extendedGcd_bounds (b % a) a).1
      _ = a := max_eq_right (Nat.gcd_le_right _ hpos)
  calc (((b / a : Nat) : Int) * (extendedGcd (b % a) a).2.1).natAbs
      = b / a * (extendedGcd (b % a) a).2.1.natAbs := by rw [Int.natAbs_mul, Int.natAbs_natCast]
    _ ≤ b / a * a := Nat.mul_le_mul_left _ hx
    _ ≤ b := Nat.div_mul_le_self b a

/-- Settles O22: R83's bounds are those of `extendedGcd_bounds` divided by the gcd, when it is not 0. -/
theorem bezoutCoefficientsAreBounded : Obligations.BezoutCoefficientsAreBounded := by
  intro a b ha hb g x y h
  have hg : g = Nat.gcd a b := eq_gcd_of_extendedGcd_eq h
  obtain ⟨hx, hy⟩ := extendedGcd_bounds a b
  obtain ⟨hxlt, hylt⟩ := extendedGcd_natAbs_lt ha hb
  rw [h] at hx hy hxlt hylt
  rw [← hg] at hx hy
  refine ⟨fun h0 => ?zero, fun h0 => ?nonzero, hxlt, hylt, fun ha0 => ?product⟩
  case zero =>
    obtain ⟨rfl, rfl⟩ := Nat.gcd_eq_zero_iff.1 (hg.symm.trans h0)
    cases h
    exact ⟨rfl, rfl, rfl, rfl⟩
  case nonzero =>
    have hpos := Nat.pos_of_ne_zero h0
    exact ⟨le_max_one_div_of_mul_le hpos hx, le_max_one_div_of_mul_le hpos hy⟩
  case product => exact (extendedGcd_product_le ha0 b).trans_lt hb

/-- The low 64 bits of the 65 are those of the integer. -/
theorem coefLow_eq_ofInt (v : Int) : coefLow v = BitVec.ofInt 64 v := by
  apply BitVec.eq_of_toNat_eq
  rw [BitVec.toNat_ofInt]
  exact congrArg Int.toNat (coefLow_toNat v)

theorem coefNeg_eq_decide {v : Int} (h : v.natAbs < 2 ^ 64) : coefNeg v = decide (v < 0) :=
  Bool.eq_iff_iff.2 ((coefNeg_eq_true_iff (by omega) (by omega)).trans decide_eq_true_iff.symm)

/-- Settles O24: the step is `endCommand` after the stores to the destination set; the coefficients fit 65 bits,
so the high bit of each is its sign. -/
theorem xgcdCompletesOnEveryPair : Obligations.XgcdCompletesOnEveryPair := by
  intro s g x y hk h
  obtain ⟨hx, hy⟩ := extendedGcd_natAbs_lt s.opA_lt s.opB_lt
  change extendedGcd s.opA s.opB = (g, x, y) at h
  have hg : g = Nat.gcd s.opA s.opB := eq_gcd_of_extendedGcd_eq h
  rw [h] at hx hy
  rw [exec_xgcd_run s hk, xgcdBody_eq, h, ← hg, ← coefLow_eq_ofInt, ← coefLow_eq_ofInt, ← coefNeg_eq_decide hx,
    ← coefNeg_eq_decide hy]
  rfl

/-- Settles O25: `xgcdBody_spec`, which reads the coefficients back from the registers. -/
theorem xgcdRegistersSatisfyBezout : Obligations.XgcdRegistersSatisfyBezout := by
  intro s hk
  obtain ⟨-, hres, hbezout⟩ := xgcdBody_spec s
  exact ⟨_, exec_xgcd_run s hk, hbezout, hres⟩

end Sys2Proof.Machine

namespace Sys2Proof.Machine

/-! ## MODINV (41_xgcd_modinv.md R84 to R88) -/

theorem State.opM_eq_zero_iff (s : State) : s.opM = 0 ↔ s.operands.m = 0 :=
  (@BitVec.toNat_eq 64 _ 0).symm

theorem exec_modinv_zero {s : State} (hk : s.hidden.kstep = .run) (hm : s.operands.m = 0) :
    exec .modinv s = .next (endCommand .modZero s) := by
  rw [exec_modinv_run s hk, modinvBody, if_pos (s.opM_eq_zero_iff.2 hm), raise_eq_endCommand]

theorem exec_modinv_notCoprime {s : State} (hk : s.hidden.kstep = .run) (hm : s.operands.m ≠ 0)
    (hg : Nat.gcd s.opA s.opM ≠ 1) : exec .modinv s = .next (endCommand .notCoprime s) := by
  rw [exec_modinv_run s hk, modinvBody, if_neg (mt s.opM_eq_zero_iff.1 hm), extendedGcd_fst, if_pos hg,
    raise_eq_endCommand]

theorem exec_modinv_coprime {s : State} (hk : s.hidden.kstep = .run) (hm : s.operands.m ≠ 0)
    (hg : Nat.gcd s.opA s.opM = 1) :
    exec .modinv s = .next (endCommand .none (s.putRes (modInverse s.opA s.opM))) := by
  rw [exec_modinv_run s hk, modinvBody, if_neg (mt s.opM_eq_zero_iff.1 hm), extendedGcd_fst, if_neg (not_not.2 hg),
    complete_eq_endCommand]

/-- Settles O28: each error ends the command and writes no result. -/
theorem modinvErrors : Obligations.ModinvErrors :=
  fun _ hk => ⟨exec_modinv_zero hk, exec_modinv_notCoprime hk⟩

/-- The inverse fits `RES`, being less than the modulus. -/
theorem toNat_ofNat_modInverse {s : State} (hm : s.opM ≠ 0) (a : Nat) :
    (BitVec.ofNat 64 (modInverse a s.opM)).toNat = modInverse a s.opM :=
  Nat.mod_eq_of_lt ((modInverse_lt hm a).trans s.opM_lt)

/-- Settles O26: `RES` holds `modInverse`, which fits it. -/
theorem modinvCompletesWithTheInverse : Obligations.ModinvCompletesWithTheInverse := by
  intro s hk hm hg
  have hm0 : s.opM ≠ 0 := mt s.opM_eq_zero_iff.1 hm
  have hres := toNat_ofNat_modInverse hm0 s.opA
  refine ⟨_, exec_modinv_coprime hk hm hg, hres.trans_lt (modInverse_lt hm0 _), fun h1 => ?_⟩
  rw [hres]
  exact (mul_modInverse hm0 hg).trans (Nat.mod_eq_of_lt h1)

theorem modInverse_coprime {a m : Nat} (hm : m ≠ 0) (hg : Nat.gcd a m = 1) :
    Nat.gcd (modInverse a m) m = 1 := by
  have hprod : Nat.gcd (a * modInverse a m) m = Nat.gcd 1 m := Nat.ModEq.gcd_eq (mul_modInverse hm hg)
  exact Nat.Coprime.coprime_mul_left (hprod.trans (Nat.gcd_one_left m))

/-- The inverse of the inverse: both it and `a` multiply the inverse to 1, and the inverse can be cancelled. -/
theorem modInverse_modInverse {a m : Nat} (hm : m ≠ 0) (hg : Nat.gcd a m = 1) :
    modInverse (modInverse a m) m = a % m := by
  have hcop := modInverse_coprime hm hg
  have hmul : modInverse a m * modInverse (modInverse a m) m ≡ modInverse a m * a [MOD m] := by
    rw [Nat.ModEq, mul_modInverse hm hcop, mul_comm, mul_modInverse hm hg]
  have hmod : modInverse (modInverse a m) m ≡ a [MOD m] :=
    Nat.ModEq.cancel_left_of_coprime ((Nat.gcd_comm _ _).trans hcop) hmul
  rwa [Nat.ModEq, Nat.mod_eq_of_lt (modInverse_lt hm _)] at hmod

/-- `MODINV` of an inverse: that is coprime to `M` as well, so the command completes. -/
theorem exec_modinv_of_modInverse {s : State} {a : Nat} (hk : s.hidden.kstep = .run) (hm : s.operands.m ≠ 0)
    (hg : Nat.gcd a s.opM = 1) (hA : s.opA = modInverse a s.opM) :
    ∃ u, exec .modinv s = .next u ∧ u.status.err = .none ∧ u.results.res.toNat = a % s.opM := by
  have hm0 : s.opM ≠ 0 := mt s.opM_eq_zero_iff.1 hm
  have hcop : Nat.gcd s.opA s.opM = 1 := by rw [hA, modInverse_coprime hm0 hg]
  refine ⟨_, exec_modinv_coprime hk hm hcop, endCommand_err _ _, ?_⟩
  rw [endCommand_results, putRes_res, toNat_ofNat_modInverse hm0, hA, modInverse_modInverse hm0 hg]

/-- Settles O27: the operand `A` of the second run is the inverse, as `RES` holds it. -/
theorem modinvOfItsResultIsTheOperand : Obligations.ModinvOfItsResultIsTheOperand := by
  intro s t hk hm hg h
  cases (exec_modinv_coprime hk hm hg).symm.trans h
  exact exec_modinv_of_modInverse hk hm hg (toNat_ofNat_modInverse (mt s.opM_eq_zero_iff.1 hm) s.opA)

end Sys2Proof.Machine

namespace Sys2Proof.Machine

/-! ## MODPOW (42_modpow.md) -/

theorem exec_modpow_nonzero {s : State} (hk : s.hidden.kstep = .run) (hm : s.operands.m ≠ 0) :
    exec .modpow s = .next (endCommand .none (s.putRes (s.opA ^ s.opB % s.opM))) := by
  rw [exec_modpow_run s hk, modpowBody, if_neg (mt s.opM_eq_zero_iff.1 hm), modPow_eq_pow_mod, complete_eq_endCommand]

theorem exec_modpow_zero {s : State} (hk : s.hidden.kstep = .run) (hm : s.operands.m = 0) :
    exec .modpow s = .next (endCommand .modZero s) := by
  rw [exec_modpow_run s hk, modpowBody, if_pos (s.opM_eq_zero_iff.2 hm), raise_eq_endCommand]

/-- Settles O29: the step is `endCommand`, after the store to `RES` when the modulus is not 0. -/
theorem modpowCompletesWithThePowerOrModZero : Obligations.ModpowCompletesWithThePowerOrModZero :=
  fun _ hk => ⟨exec_modpow_nonzero hk, exec_modpow_zero hk⟩

theorem modPowLoop_zero (fuel x y m : Nat) : modPowLoop fuel x y 0 m = x % m := by
  cases fuel <;> rfl

theorem modPowLoop_succ {k : Nat} (hk : k ≠ 0) (fuel x y m : Nat) :
    modPowLoop (fuel + 1) x y k m
      = modPowLoop fuel (if k % 2 = 1 then (x * y) % m else x) ((y * y) % m) (k / 2) m := by
  rw [modPowLoop, if_neg hk]

/-- The accumulator's bound of 42_modpow.md R92 is kept by a pass, whether it multiplies or not. -/
theorem accumulator_le_of_pass {m x : Nat} (hm : 1 ≤ m) (hx : x ≤ max 1 (m - 1)) (y k : Nat) :
    (if k % 2 = 1 then (x * y) % m else x) ≤ max 1 (m - 1) := by
  split
  · exact le_max_of_le_right (Nat.le_sub_one_of_lt (Nat.mod_lt _ hm))
  · exact hx

theorem mul_lt_two_pow_128 {x y : Nat} (hx : x < 2 ^ 64) (hy : y < 2 ^ 64) : x * y < 2 ^ 128 := by
  rw [show 2 ^ 128 = 2 ^ 64 * 2 ^ 64 by norm_num]
  exact Nat.mul_lt_mul'' hx hy

/-- Settles O30: `x` and `y` stay below 2^64 within the bounds of R92, so their products stay below 2^128. -/
theorem modpowProductsFit128Bits : Obligations.ModpowProductsFit128Bits := by
  intro base m hm hm64 hbase
  refine ⟨fun _ => rfl, ⟨le_max_left _ _, le_max_left _ _⟩, fun fuel x y k hx hy hk => ?pass,
    fun fuel x y => modPowLoop_zero fuel x y m⟩
  have hx64 : x < 2 ^ 64 := by omega
  have hy64 : y < 2 ^ 64 := by omega
  have hsq : y * y % m < m := Nat.mod_lt _ hm
  exact ⟨mul_lt_two_pow_128 hx64 hy64, mul_lt_two_pow_128 hy64 hy64, modPowLoop_succ hk fuel x y m,
    accumulator_le_of_pass hm hx y k, hsq, le_max_of_le_right (Nat.le_sub_one_of_lt hsq)⟩

/-- Fermat's little theorem for an exponent that is 1 modulo a multiple of `p - 1`, on every base: also on one
that `p` divides. -/
theorem pow_modEq_self_of_prime {p c t : Nat} (hp : p.Prime) (ht : p - 1 ∣ t) (hc : c % t = 1) (m : Nat) :
    m ^ c ≡ m [MOD p] := by
  have hpos : 1 ≤ c := hc.symm.trans_le (Nat.mod_le c t)
  have hmod : 1 ≡ c [MOD t] := by rw [Nat.ModEq, ← hc, Nat.mod_mod]
  have hdvd : p - 1 ∣ c - 1 := ht.trans ((Nat.modEq_iff_dvd' hpos).1 hmod)
  simpa [← Int.natCast_modEq_iff] using Int.ModEq.pow_eq_pow hp hdvd hpos one_pos (m : Int)

/-- Settles O42: the round trip raises to the power `e * d`, which gives the message back modulo each prime, and
so modulo their product. -/
theorem roundTripClosesForDistinctPrimes : Obligations.RoundTripClosesForDistinctPrimes := by
  intro p q e d m hp hq hpq hed hm
  have hmod : m ^ (e * d) ≡ m [MOD p * q] :=
    (Nat.modEq_and_modEq_iff_modEq_mul ((Nat.coprime_primes hp hq).2 hpq)).1
      ⟨pow_modEq_self_of_prime hp (dvd_mul_right _ _) hed m, pow_modEq_self_of_prime hq (dvd_mul_left _ _) hed m⟩
  calc modPow (modPow m e (p * q)) d (p * q)
      = m ^ (e * d) % (p * q) := by rw [modPow_eq_pow_mod, modPow_eq_pow_mod, ← Nat.pow_mod, pow_mul]
    _ = m % (p * q) := hmod
    _ = m := Nat.mod_eq_of_lt hm

end Sys2Proof.Machine

namespace Sys2Proof.Machine

/-! ## KEYGEN, state by state (43_keygen.md R101 to R112)

At a step of its own KEYGEN's meaning is that step; at a waiting step it is the reaction to the answer on the
port, which is taken off. -/

section
variable {s : State}

theorem exec_keygen_init (hk : s.hidden.kstep = .init) : exec .keygen s = .next (keygenInit s) := by
  simp [exec, execKeygen, hk]

theorem exec_keygen_start (hk : s.hidden.kstep = .start) : exec .keygen s = .next (keygenStart s) := by
  simp [exec, execKeygen, hk]

theorem exec_keygen_derive (hk : s.hidden.kstep = .derive) : exec .keygen s = .next (keygenDerive s) := by
  simp [exec, execKeygen, hk]

theorem exec_keygen_finish (hk : s.hidden.kstep = .finish) : exec .keygen s = .next (keygenFinish s) := by
  simp [exec, execKeygen, hk]

theorem exec_keygen_pickP {r : Word} (hk : s.hidden.kstep = .pickP) (ha : s.world.answer = some (.rand r)) :
    exec .keygen s = .next (keygenPickP r s.takeAnswer) := by
  simp [exec, execKeygen, hk, onRand_rand keygenPickP s r ha]

theorem exec_keygen_pickQ {r : Word} (hk : s.hidden.kstep = .pickQ) (ha : s.world.answer = some (.rand r)) :
    exec .keygen s = .next (keygenPickQ r s.takeAnswer) := by
  simp [exec, execKeygen, hk, onRand_rand keygenPickQ s r ha]

theorem exec_keygen_drawE {r : Word} (hk : s.hidden.kstep = .drawE) (ha : s.world.answer = some (.rand r)) :
    exec .keygen s = .next (keygenDrawE r s.takeAnswer) := by
  simp [exec, execKeygen, hk, onRand_rand keygenDrawE s r ha]

theorem exec_keygen_fetchP_found {v : Word} (hk : s.hidden.kstep = .fetchP)
    (ha : s.world.answer = some (.found v)) : exec .keygen s = .next (keygenFetchP (some v) s.takeAnswer) := by
  simp [exec, execKeygen, hk, onPrime_found keygenFetchP s v ha]

theorem exec_keygen_fetchQ_found {v : Word} (hk : s.hidden.kstep = .fetchQ)
    (ha : s.world.answer = some (.found v)) : exec .keygen s = .next (keygenFetchQ (some v) s.takeAnswer) := by
  simp [exec, execKeygen, hk, onPrime_found keygenFetchQ s v ha]

/-- With no prime found, both fetches end the command (43_keygen.md R105, R106). -/
theorem exec_keygen_notFound (hk : s.hidden.kstep = .fetchP ∨ s.hidden.kstep = .fetchQ)
    (ha : s.world.answer = some .notFound) :
    exec .keygen s = .next (endCommand .primeNotFound s.takeAnswer) := by
  rcases hk with hk | hk
  · simp [exec, execKeygen, hk, onPrime_notFound keygenFetchP s ha, keygenFetchP]
  · simp [exec, execKeygen, hk, onPrime_notFound keygenFetchQ s ha, keygenFetchQ]

end

theorem Conf.illegal_iff (c : Conf) :
    ¬ c.legal = true ↔ c.pspan = 0 ∨ c.qspan = 0 ∨ 2 ^ 64 < c.pbase.toNat + c.pspan.toNat
      ∨ 2 ^ 64 < c.qbase.toNat + c.qspan.toNat := by
  have hp : c.pspan = 0 ↔ c.pspan.toNat = 0 := BitVec.toNat_eq
  have hq : c.qspan = 0 ↔ c.qspan.toNat = 0 := BitVec.toNat_eq
  rw [Conf.legal_iff, hp, hq]
  omega

/-- Settles O33: the check is `Conf.legal`, and what it secures is what it says. -/
theorem keygenInitChecksTheConfiguration : Obligations.KeygenInitChecksTheConfiguration := by
  intro s hk
  rw [exec_keygen_init hk, ← Conf.illegal_iff, not_not]
  refine ⟨fun hillegal => congrArg _ (if_neg hillegal), fun hlegal => ⟨congrArg _ (if_pos hlegal), ?_⟩⟩
  obtain ⟨hpspan, hqspan, hp, hq⟩ := (Conf.legal_iff _).1 hlegal
  exact ⟨⟨hpspan, fun r hr => by omega⟩, ⟨hqspan, fun r hr => by omega⟩⟩

/-- Settles O34: the cap is tested first; the sum that counts the attempt is one of words. -/
theorem keygenStartCountsTheAttempt : Obligations.KeygenStartCountsTheAttempt := by
  intro s hk
  rw [exec_keygen_start hk]
  exact ⟨fun hcap => congrArg _ (if_pos hcap), fun hcap => congrArg _ (if_neg hcap.not_ge)⟩

/-- Settles O35: a draw is taken off the port, and its range tested first. -/
theorem keygenDrawsTheIndices : Obligations.KeygenDrawsTheIndices := by
  intro s r ha
  refine ⟨fun hk hr => ?_, fun hk hr => ?_, ?_⟩
  · exact (exec_keygen_pickP hk ha).trans (congrArg _ (if_neg hr.not_ge))
  · exact (exec_keygen_pickQ hk ha).trans (congrArg _ (if_neg hr.not_ge))
  · rintro (⟨hk, hr⟩ | ⟨hk, hr⟩)
    · exact (exec_keygen_pickP hk ha).trans (congrArg _ (if_pos hr))
    · exact (exec_keygen_pickQ hk ha).trans (congrArg _ (if_pos hr))

/-- Settles O36, answer by answer. -/
theorem keygenFetchesThePrimes : Obligations.KeygenFetchesThePrimes := fun _ =>
  ⟨fun _ ha => ⟨fun hk => exec_keygen_fetchP_found hk ha, fun hk => exec_keygen_fetchQ_found hk ha⟩,
    fun ha hk => exec_keygen_notFound hk ha⟩

/-- The request for the exponent's draw as a number (43_keygen.md R110). -/
theorem sub_one_eq_ofNat {w : Word} (h : 1 ≤ w.toNat) : w - 1 = BitVec.ofNat 64 (w.toNat - 1) := by
  apply BitVec.eq_of_toNat_eq
  rw [BitVec.toNat_sub_of_le (by exact h), BitVec.toNat_ofNat, Nat.mod_eq_of_lt (by omega)]
  rfl

/-- Settles O38: the range is tested first, then the coprimality. -/
theorem keygenDrawsTheExponent : Obligations.KeygenDrawsTheExponent := by
  intro s r hk ha
  rw [exec_keygen_drawE hk ha]
  rcases keygenDrawE_cases r s.takeAnswer with ⟨hr, e⟩ | ⟨hr, hg, e⟩ | ⟨hr, hg, e⟩ <;> rw [e] <;>
    rw [takeAnswer_hidden] at hr
  · exact ⟨fun _ => rfl, fun h => absurd h hr.not_gt, fun h => absurd h hr.not_gt⟩
  · refine ⟨fun h => absurd h hr.not_ge, fun _ _ => ?_, fun _ h => absurd h hg⟩
    rw [← sub_one_eq_ofNat (by omega)]
    rfl
  · exact ⟨fun h => absurd h hr.not_ge, fun _ h => absurd hg h, fun _ _ => rfl⟩

/-! ## The modulus and the totient (43_keygen.md R107 to R110) -/

/-- With a factor of 0 or 1 the totient is at most 1, and that of 2 and 2 is 1 (43_keygen.md R110). -/
theorem totient_lt_two {p q : Nat} (h : p < 2 ∨ q < 2 ∨ (p = 2 ∧ q = 2)) : totient p q < 2 := by
  unfold totient
  rcases h with h | h | ⟨rfl, rfl⟩
  · interval_cases p <;> omega
  · interval_cases q <;> omega
  · decide

/-- The other pairs give a modulus above 5 and a totient between 2 and it (43_keygen.md R110). -/
theorem modulus_totient_bounds {p q : Nat} (hp : 2 ≤ p) (hq : 2 ≤ q) (hne : ¬ (p = 2 ∧ q = 2)) :
    6 ≤ p * q ∧ 2 ≤ (p - 1) * (q - 1) ∧ (p - 1) * (q - 1) < p * q := by
  obtain ⟨a, rfl⟩ := Nat.exists_eq_add_of_le' hp
  obtain ⟨b, rfl⟩ := Nat.exists_eq_add_of_le' hq
  have hab : 1 ≤ a + b := by omega
  simp only [show a + 2 - 1 = a + 1 from rfl, show b + 2 - 1 = b + 1 from rfl]
  refine ⟨?_, ?_, ?_⟩ <;> nlinarith [Nat.zero_le (a * b)]

/-- Settles O37: the three cases of `keygenDerive`, with the totient as the source writes it. -/
theorem keygenDerivesModulusAndTotient : Obligations.KeygenDerivesModulusAndTotient := by
  rintro s p q hk rfl rfl
  rw [exec_keygen_derive hk]
  refine ⟨fun hover => congrArg _ (if_pos hover), fun hfit hsmall => ?phiRange, fun hfit hp hq hne => ?derived⟩
  case phiRange =>
    exact congrArg _ ((if_neg hfit.not_ge).trans (if_pos (totient_lt_two hsmall)))
  case derived =>
    obtain ⟨hn, hphi, hlt⟩ := modulus_totient_bounds hp hq hne
    refine ⟨hn, hphi, hlt, ?_⟩
    have htot := totient_eq_mul hphi
    rcases keygenDerive_cases s with ⟨hover, -⟩ | ⟨-, hsmall, -⟩ | ⟨-, -, e⟩
    · exact absurd hover hfit.not_ge
    · rw [htot] at hsmall; omega
    · have hword := Nat.mod_eq_of_lt (hlt.trans hfit)
      rw [e, htot, Int.toNat_natCast, sub_one_eq_ofNat (by rw [BitVec.toNat_ofNat, hword]; omega),
        BitVec.toNat_ofNat, hword]

end Sys2Proof.Machine

namespace Sys2Proof.Machine

/-! ## The exponent `d` and the self-validation (43_keygen.md R112 to R116, R120) -/

/-- What an attempt has established when it reaches `K_FINISH` (43_keygen.md R107 to R111). -/
structure Hidden.KeyMaterial (h : Hidden) : Prop where
  modulus  : h.tn.toNat = h.p.toNat * h.q.toNat
  six_le   : 6 ≤ h.tn.toNat
  totient  : h.tphi.toNat = (h.p.toNat - 1) * (h.q.toNat - 1)
  two_le   : 2 ≤ h.tphi.toNat
  lt       : h.tphi.toNat < h.tn.toNat
  exponent : 1 ≤ h.te.toNat ∧ h.te.toNat < h.tphi.toNat
  coprime  : Nat.gcd h.te.toNat h.tphi.toNat = 1

theorem State.Inv.keyMaterial {s : State} (hs : s.Inv) (hk : s.hidden.kstep = .finish) :
    s.hidden.KeyMaterial := by
  obtain ⟨-, -, -, -, -, -, -, -, -, hderived, hexponent⟩ := (inv_iff_of_keygen (by simp [hk])).1 hs
  obtain ⟨hn, hphi, h2⟩ := hderived (by simp [hk])
  obtain ⟨he1, he2, hg⟩ := hexponent hk
  have hsmall := mt (@totient_lt_two s.hidden.p.toNat s.hidden.q.toNat) (by omega)
  obtain ⟨hp, hq, hne⟩ : 2 ≤ s.hidden.p.toNat ∧ 2 ≤ s.hidden.q.toNat
      ∧ ¬ (s.hidden.p.toNat = 2 ∧ s.hidden.q.toNat = 2) := by omega
  obtain ⟨h6, hphi2, hlt⟩ := modulus_totient_bounds hp hq hne
  rw [totient_eq_mul hphi2, Nat.cast_inj] at hphi
  exact ⟨hn, hn ▸ h6, hphi, h2, by rwa [hn, hphi], ⟨he1, he2⟩, hg⟩

/-- The exponent `d` that `K_FINISH` computes, as a word (43_keygen.md R112). -/
def Hidden.privateExponent (h : Hidden) : Word := BitVec.ofNat 64 (modInverse h.te.toNat h.tphi.toNat)

/-- The round trip of `PROBE` closes (43_keygen.md R114). -/
def Hidden.RoundTrip (h : Hidden) : Prop :=
  (5 ^ h.te.toNat % h.tn.toNat) ^ h.privateExponent.toNat % h.tn.toNat = 5

/-- The key registers as a Valid end leaves them (43_keygen.md R115). -/
def Hidden.key (h : Hidden) : Keys := { n := h.tn, e := h.te, d := h.privateExponent, phi := h.tphi }

section
variable {h : Hidden} (m : h.KeyMaterial)
include m

theorem Hidden.KeyMaterial.totient_ne_zero : h.tphi.toNat ≠ 0 := (Nat.zero_lt_two.trans_le m.two_le).ne'

theorem Hidden.KeyMaterial.privateExponent_toNat :
    h.privateExponent.toNat = modInverse h.te.toNat h.tphi.toNat :=
  Nat.mod_eq_of_lt ((modInverse_lt m.totient_ne_zero _).trans h.tphi.isLt)

theorem Hidden.KeyMaterial.privateExponent_lt : h.privateExponent.toNat < h.tphi.toNat := by
  rw [m.privateExponent_toNat]
  exact modInverse_lt m.totient_ne_zero _

/-- `e * d mod phi = 1`, so the check of R113 always passes. -/
theorem Hidden.KeyMaterial.mul_privateExponent : h.te.toNat * h.privateExponent.toNat % h.tphi.toNat = 1 := by
  rw [m.privateExponent_toNat, mul_modInverse m.totient_ne_zero m.coprime, Nat.mod_eq_of_lt m.two_le]

theorem Hidden.KeyMaterial.privateExponent_pos : 1 ≤ h.privateExponent.toNat := by
  refine Nat.pos_of_ne_zero fun h0 => ?_
  have hinv := m.mul_privateExponent
  simp [h0] at hinv

/-- With distinct primes the exponents undo each other on every message below the modulus (43_keygen.md
R120). -/
theorem Hidden.KeyMaterial.decrypts (hp : h.p.toNat.Prime) (hq : h.q.toNat.Prime) (hpq : h.p.toNat ≠ h.q.toNat)
    {msg : Nat} (hmsg : msg < h.tn.toNat) :
    modPow (modPow msg h.te.toNat h.tn.toNat) h.privateExponent.toNat h.tn.toNat = msg := by
  have hed := m.mul_privateExponent
  rw [m.totient] at hed
  rw [m.modulus] at hmsg ⊢
  exact roundTripClosesForDistinctPrimes _ _ _ _ msg hp hq hpq hed hmsg

end

theorem Hidden.roundTrip_iff_modPow (h : Hidden) :
    h.RoundTrip
      ↔ modPow (modPow 5 h.te.toNat h.tn.toNat) h.privateExponent.toNat h.tn.toNat = 5 := by
  rw [modPow_eq_pow_mod, modPow_eq_pow_mod]
  rfl

theorem putKeys_eq_key {s : State} (m : s.hidden.KeyMaterial) :
    s.putKeys s.hidden.tn.toNat s.hidden.te.toNat (modInverse s.hidden.te.toNat s.hidden.tphi.toNat)
      s.hidden.tphi.toNat = { s with keys := s.hidden.key } := by
  simp [← m.privateExponent_toNat, State.putKeys, Hidden.key]

/-- The outcome of `K_FINISH` turns on the round trip alone. -/
theorem keygenFinish_eq {s : State} (m : s.hidden.KeyMaterial) :
    (s.hidden.RoundTrip → keygenFinish s = endCommand .none { s with keys := s.hidden.key })
    ∧ (¬ s.hidden.RoundTrip → keygenFinish s = failAttempt .roundtrip s) := by
  rw [← putKeys_eq_key m]
  have hed := m.mul_privateExponent
  unfold Hidden.RoundTrip
  rw [m.privateExponent_toNat] at hed ⊢
  rcases keygenFinish_cases s with ⟨hne, -⟩ | ⟨-, hne, e⟩ | ⟨-, hround, e⟩
  · exact absurd hed hne
  · exact ⟨fun hround => absurd hround hne, fun _ => e⟩
  · exact ⟨fun _ => e, fun hne => absurd hround hne⟩

/-- Settles O39: `d` is `privateExponent`, and `keygenFinish_eq` decides on the round trip. -/
theorem keygenFinishValidatesTheKey : Obligations.KeygenFinishValidatesTheKey := by
  rintro s n phi e hs hk rfl rfl rfl
  have m := hs.keyMaterial hk
  obtain ⟨hvalid, hfail⟩ := keygenFinish_eq m
  rw [exec_keygen_finish hk]
  exact ⟨s.hidden.privateExponent, m.privateExponent_pos, m.privateExponent_lt, m.mul_privateExponent,
    fun hround => congrArg _ (hvalid hround), fun hne => congrArg _ (hfail hne)⟩

/-- Settles O43: `PROBE` is a message below the modulus, so its round trip closes. -/
theorem distinctPrimesAlwaysGiveAValidKey : Obligations.DistinctPrimesAlwaysGiveAValidKey := by
  intro s hs hk hp hq hpq
  have m := hs.keyMaterial hk
  have hround : s.hidden.RoundTrip :=
    s.hidden.roundTrip_iff_modPow.2 (m.decrypts hp hq (mt BitVec.eq_of_toNat_eq hpq) m.six_le)
  exact ⟨s.hidden.privateExponent, (exec_keygen_finish hk).trans (congrArg _ ((keygenFinish_eq m).1 hround))⟩

/-- A step that sets `DONE` at `K_FINISH` is the engine's own: no request is pending, and the host's writes are
dropped. -/
theorem State.Inv.exec_of_done {s t : State} (hs : s.Inv) (hk : s.hidden.kstep = .finish) (h : step s = .next t)
    (hdone : t.status.done = true) : ∃ rest, exec .keygen (s.popped rest) = .next t := by
  obtain ⟨hin, -⟩ := (inv_iff_of_keygen (by simp [hk])).1 hs
  rcases step_next_cases s t h with ⟨rest, -, rfl⟩ | ⟨w, -, rfl⟩ | ⟨r, v, rest, -, -, -, hb, -⟩
    | ⟨w, rest, -, hb, -⟩ | ⟨i, rest, hd, -, h⟩ | ⟨i, a, rest, -, ha, -⟩
  · cases hdone
  · exact absurd hdone (by simp [hin.done])
  · simp [hin.busy] at hb
  · simp [hin.busy] at hb
  · cases hin.command.symm.trans hd
    exact ⟨rest, h⟩
  · simp [hs.req_eq, requestFor, hk, Req.takes] at ha

/-- Of the two outcomes of `K_FINISH` only the Valid one sets `DONE`. -/
theorem State.Inv.valid_of_done {s t : State} (hs : s.Inv) (hk : s.hidden.kstep = .finish)
    (h : exec .keygen s = .next t) (hdone : t.status.done = true) :
    s.hidden.RoundTrip ∧ t = endCommand .none { s with keys := s.hidden.key } := by
  obtain ⟨hin, -⟩ := (inv_iff_of_keygen (by simp [hk])).1 hs
  obtain ⟨hvalid, hfail⟩ := keygenFinish_eq (hs.keyMaterial hk)
  cases (exec_keygen_finish hk).symm.trans h
  by_cases hround : s.hidden.RoundTrip
  · exact ⟨hround, hvalid hround⟩
  · rw [hfail hround, failAttempt_done, hin.done] at hdone
    cases hdone

/-- Settles O41: the key registers hold the material of the attempt, which the invariant describes. -/
theorem validKeyMaterial : Obligations.ValidKeyMaterial := by
  rintro s t _ _ hs hk h hdone - rfl rfl
  obtain ⟨rest, h⟩ := hs.exec_of_done hk h hdone
  obtain ⟨hround, rfl⟩ := (hs.popped rest).valid_of_done hk h hdone
  have m : s.hidden.KeyMaterial := hs.keyMaterial hk
  refine ⟨m.modulus, m.six_le, m.totient, ?_, m.two_le, m.lt, m.exponent.1, m.exponent.2, m.coprime,
    m.privateExponent_pos, m.privateExponent_lt, m.mul_privateExponent, (Hidden.roundTrip_iff_modPow _).1 hround,
    fun hp hq hpq _ hm => m.decrypts hp hq hpq hm⟩
  have htot := totient_eq_mul (m.totient ▸ m.two_le)
  rw [← m.totient, totient, ← m.modulus] at htot
  exact htot.symm

end Sys2Proof.Machine

namespace Sys2Proof.Machine

/-! ## What a step of KEYGEN can do (43_keygen.md R100)

KEYGEN's steps are of six kinds. The frame of the command, the causes of a failed attempt and the end of the
command are read off them. -/

/-- The step that follows within an attempt (43_keygen.md R100). -/
def KStep.next : KStep → KStep
  | .idle => .init | .init => .start | .start => .pickP | .pickP => .pickQ | .pickQ => .fetchP
  | .fetchP => .fetchQ | .fetchQ => .derive | .derive => .drawE | .drawE => .finish | .finish | .run => .idle

/-- One step of KEYGEN, the answer on the port already taken, if it waits for one. -/
inductive State.KeygenMove (s : State) : State → Prop
  | ended (code : ErrCode) : s.KeygenMove (endCommand code s)
  | advanced (phase : Phase) (h : Hidden) (hne : s.hidden.kstep ≠ .start) (hk : h.kstep = s.hidden.kstep.next) :
      s.KeygenMove { s with status := { s.status with phase := phase }, hidden := h }
  | counted (phase : Phase) (h : Hidden) (hs : s.hidden.kstep = .start) (hk : h.kstep = .pickP)
      (hcap : s.attempts.toNat < s.conf.maxtry.toNat) :
      s.KeygenMove { s with
        attempts := s.attempts + 1, status := { s.status with phase := phase }, hidden := h }
  | asked (hk : s.hidden.kstep = .drawE) :
      s.KeygenMove { s with hidden := { s.hidden with req := .rand (s.hidden.tphi - 1) } }
  | failed (cause : FailCause) (hk : s.hidden.kstep = .derive ∨ s.hidden.kstep = .finish)
      (hed : cause = .edCheck → s.hidden.kstep = .finish
        ∧ s.hidden.te.toNat * modInverse s.hidden.te.toNat s.hidden.tphi.toNat % s.hidden.tphi.toNat ≠ 1) :
      s.KeygenMove (failAttempt cause s)
  | valid (n e d phi : Nat) (hk : s.hidden.kstep = .finish) :
      s.KeygenMove (endCommand .none (s.putKeys n e d phi))

section
variable {s : State}

theorem keygenInit_moves (hk : s.hidden.kstep = .init) : s.KeygenMove (keygenInit s) := by
  rcases keygenInit_cases s with ⟨-, e⟩ | ⟨-, e⟩ <;> rw [e]
  · exact .advanced s.status.phase _ (by simp [hk]) (by rw [hk]; rfl)
  · exact .ended _

theorem keygenStart_moves (hk : s.hidden.kstep = .start) : s.KeygenMove (keygenStart s) := by
  rcases keygenStart_cases s with ⟨-, e⟩ | ⟨hcap, e⟩ <;> rw [e]
  · exact .ended _
  · exact .counted _ _ hk rfl hcap

theorem keygenPickP_moves (hk : s.hidden.kstep = .pickP) (r : Word) : s.KeygenMove (keygenPickP r s) := by
  rcases keygenPickP_cases r s with ⟨-, e⟩ | ⟨-, e⟩ <;> rw [e]
  · exact .ended _
  · exact .advanced s.status.phase _ (by simp [hk]) (by rw [hk]; rfl)

theorem keygenPickQ_moves (hk : s.hidden.kstep = .pickQ) (r : Word) : s.KeygenMove (keygenPickQ r s) := by
  rcases keygenPickQ_cases r s with ⟨-, e⟩ | ⟨-, e⟩ <;> rw [e]
  · exact .ended _
  · exact .advanced _ _ (by simp [hk]) (by rw [hk]; rfl)

theorem keygenFetchP_moves (hk : s.hidden.kstep = .fetchP) (answer : Option Word) :
    s.KeygenMove (keygenFetchP answer s) := by
  cases answer with
  | none => exact .ended _
  | some v => exact .advanced s.status.phase _ (by simp [hk]) (by rw [hk]; rfl)

theorem keygenFetchQ_moves (hk : s.hidden.kstep = .fetchQ) (answer : Option Word) :
    s.KeygenMove (keygenFetchQ answer s) := by
  cases answer with
  | none => exact .ended _
  | some v => exact .advanced _ _ (by simp [hk]) (by rw [hk]; rfl)

theorem keygenDerive_moves (hk : s.hidden.kstep = .derive) : s.KeygenMove (keygenDerive s) := by
  rcases keygenDerive_cases s with ⟨-, e⟩ | ⟨-, -, e⟩ | ⟨-, -, e⟩ <;> rw [e]
  · exact .failed _ (.inl hk) (by simp)
  · exact .failed _ (.inl hk) (by simp)
  · exact .advanced _ _ (by simp [hk]) (by rw [hk]; rfl)

theorem keygenDrawE_moves (hk : s.hidden.kstep = .drawE) (r : Word) : s.KeygenMove (keygenDrawE r s) := by
  rcases keygenDrawE_cases r s with ⟨-, e⟩ | ⟨-, -, e⟩ | ⟨-, -, e⟩ <;> rw [e]
  · exact .ended _
  · exact .asked hk
  · exact .advanced _ _ (by simp [hk]) (by rw [hk]; rfl)

theorem keygenFinish_moves (hk : s.hidden.kstep = .finish) : s.KeygenMove (keygenFinish s) := by
  rcases keygenFinish_cases s with ⟨hne, e⟩ | ⟨-, -, e⟩ | ⟨-, -, e⟩ <;> rw [e]
  · exact .failed _ (.inr hk) fun _ => ⟨hk, hne⟩
  · exact .failed _ (.inr hk) (by simp)
  · exact .valid _ _ _ _ hk

end

/-- The state with that on the port, or nothing. -/
def State.withPort (a : Option Answer) (s : State) : State := { s with world := { s.world with answer := a } }

/-- The port holds no answer of the kind that the step waits for, which at a step of the engine's own is none
(20_memory.md R52). -/
def State.Unanswered (s : State) : Prop := ∀ a, s.world.answer = some a → (requestFor s).takes a = false

theorem onRand_moves {react : Word → State → State} {s : State} {b : Word} (hreq : requestFor s = .rand b)
    (h : ∀ r, s.takeAnswer.KeygenMove (react r s.takeAnswer)) :
    (s.withPort none).KeygenMove (onRand react s) ∨ (s.Unanswered ∧ onRand react s = s.withPort none) := by
  unfold onRand State.Unanswered
  rw [hreq]
  split
  · exact .inl (h _)
  all_goals exact .inr ⟨by simp_all [Req.takes], rfl⟩

theorem onPrime_moves {react : Option Word → State → State} {s : State} {i : Word} (hreq : requestFor s = .prime i)
    (h : ∀ v, s.takeAnswer.KeygenMove (react v s.takeAnswer)) :
    (s.withPort none).KeygenMove (onPrime react s) ∨ (s.Unanswered ∧ onPrime react s = s.withPort none) := by
  unfold onPrime State.Unanswered
  rw [hreq]
  split
  · exact .inl (h _)
  · exact .inl (h _)
  all_goals exact .inr ⟨by simp_all [Req.takes], rfl⟩

/-- KEYGEN is accepted, or one of its steps is taken, or it waits on, an answer of the wrong kind taken off the
port. -/
theorem exec_keygen_moves {s t : State} (h : exec .keygen s = .next t) :
    (s.hidden.kstep = .idle ∧ t = accept .keygen s)
    ∨ (∃ a, (s.withPort a).KeygenMove t)
    ∨ (s.hidden.kstep.ownStep = false ∧ s.Unanswered ∧ t = s.withPort none) := by
  have waiting (hk : s.hidden.kstep.ownStep = false) {t : State}
      (h : (s.withPort none).KeygenMove t ∨ (s.Unanswered ∧ t = s.withPort none)) :
      (∃ a, (s.withPort a).KeygenMove t)
      ∨ (s.hidden.kstep.ownStep = false ∧ s.Unanswered ∧ t = s.withPort none) :=
    h.imp (fun h => ⟨none, h⟩) (fun h => ⟨hk, h⟩)
  rcases exec_keygen_next s t h with ⟨hk, e⟩ | ⟨hk, rfl⟩ | ⟨hk, rfl⟩ | ⟨hk, rfl⟩ | ⟨hk, rfl⟩ | ⟨hk, rfl⟩
    | ⟨hk, rfl⟩ | ⟨hk, rfl⟩ | ⟨hk, rfl⟩ | ⟨hk, rfl⟩
  · exact .inl ⟨hk, e⟩
  · exact .inr (.inl ⟨s.world.answer, keygenInit_moves hk⟩)
  · exact .inr (.inl ⟨s.world.answer, keygenStart_moves hk⟩)
  · exact .inr (waiting (by rw [hk]; rfl) (onRand_moves (by rw [requestFor, hk]) (keygenPickP_moves hk)))
  · exact .inr (waiting (by rw [hk]; rfl) (onRand_moves (by rw [requestFor, hk]) (keygenPickQ_moves hk)))
  · exact .inr (waiting (by rw [hk]; rfl) (onPrime_moves (by rw [requestFor, hk]) (keygenFetchP_moves hk)))
  · exact .inr (waiting (by rw [hk]; rfl) (onPrime_moves (by rw [requestFor, hk]) (keygenFetchQ_moves hk)))
  · exact .inr (.inl ⟨s.world.answer, keygenDerive_moves hk⟩)
  · exact .inr (waiting (by rw [hk]; rfl) (onRand_moves (by rw [requestFor, hk]) (keygenDrawE_moves hk)))
  · exact .inr (.inl ⟨s.world.answer, keygenFinish_moves hk⟩)

section
variable {s t : State} (hmove : s.KeygenMove t)
include hmove

theorem State.KeygenMove.frame :
    t.cmd = s.cmd ∧ t.operands = s.operands ∧ t.results = s.results ∧ t.conf = s.conf
    ∧ t.status.xneg = s.status.xneg ∧ t.status.yneg = s.status.yneg
    ∧ t.world.script = s.world.script ∧ t.world.replies = s.world.replies := by
  cases hmove <;> exact ⟨rfl, rfl, rfl, rfl, rfl, rfl, rfl, rfl⟩

theorem State.KeygenMove.attempts_eq (hne : s.hidden.kstep ≠ .start) : t.attempts = s.attempts := by
  cases hmove with
  | counted phase h hs hk hcap => exact absurd hs hne
  | _ => rfl

theorem State.KeygenMove.failed_of_lastFail_ne (hne : t.status.lastFail ≠ s.status.lastFail) :
    (s.hidden.kstep = .derive ∨ s.hidden.kstep = .finish) ∧ t.hidden.kstep = .start := by
  cases hmove with
  | failed cause hk hed => exact ⟨hk, rfl⟩
  | _ => exact absurd rfl hne

theorem State.KeygenMove.valid_of_keys_ne (hne : t.keys ≠ s.keys) :
    s.hidden.kstep = .finish ∧ t.hidden.kstep = .idle ∧ t.status.err = .none := by
  cases hmove with
  | valid n e d phi hk => exact ⟨hk, rfl, rfl⟩
  | _ => exact absurd rfl hne

end

/-- Settles O44: the frame of each kind of step; acceptance and waiting leave the rest alone as well. -/
theorem keygenFrame : Obligations.KeygenFrame := by
  intro s t h
  rcases exec_keygen_moves h with ⟨hk, rfl⟩ | ⟨a, hmove⟩ | ⟨-, -, rfl⟩
  · exact ⟨rfl, rfl, rfl, rfl, rfl, rfl, rfl, rfl, fun h => absurd hk h, fun h => absurd hk h,
      fun h => absurd hk h⟩
  · obtain ⟨hcmd, hops, hres, hconf, hxneg, hyneg, hscript, hreplies⟩ := hmove.frame
    exact ⟨hcmd, hops, hres, hconf, hxneg, hyneg, hscript, hreplies, fun _ => hmove.attempts_eq,
      fun _ => hmove.failed_of_lastFail_ne, fun _ => hmove.valid_of_keys_ne⟩
  · exact ⟨rfl, rfl, rfl, rfl, rfl, rfl, rfl, rfl, fun _ _ => rfl, fun _ h => absurd rfl h,
      fun _ h => absurd rfl h⟩

/-! ## `LASTFAIL` (43_keygen.md R113) -/

theorem accept_lastFail (i : Instr) (s : State) :
    (accept i s).status.lastFail = .none ∨ (accept i s).status.lastFail = s.status.lastFail := by
  obtain ⟨-, -, -, -, -, hlast⟩ := accept_destination i s
  rw [hlast]
  split
  · exact .inl rfl
  · exact .inr rfl

/-- A cause that a step of KEYGEN records is `ED_CHECK` only where `e * d mod phi` is not 1. -/
theorem State.KeygenMove.lastFail_ne_edCheck {s t : State} (hmove : s.KeygenMove t)
    (hmat : s.hidden.kstep = .finish → s.hidden.KeyMaterial) (hne : s.status.lastFail ≠ .edCheck) :
    t.status.lastFail ≠ .edCheck := by
  cases hmove with
  | failed cause hk hed =>
    intro hcause
    obtain ⟨hfinish, hcheck⟩ := hed hcause
    have m := hmat hfinish
    exact hcheck (m.privateExponent_toNat ▸ m.mul_privateExponent)
  | _ => exact hne

theorem exec_lastFail_ne_edCheck {i : Instr} {s t : State} (hmat : s.hidden.kstep = .finish → s.hidden.KeyMaterial)
    (hne : s.status.lastFail ≠ .edCheck) (h : exec i s = .next t) : t.status.lastFail ≠ .edCheck := by
  by_cases hi : i = .keygen
  · subst hi
    rcases exec_keygen_moves h with ⟨-, rfl⟩ | ⟨a, hmove⟩ | ⟨-, -, rfl⟩
    · exact FailCause.noConfusion
    · exact hmove.lastFail_ne_edCheck hmat hne
    · exact hne
  · obtain ⟨-, -, -, -, -, -, hlast, -⟩ := arithmeticCommandFrame i s t hi h
    rwa [hlast]

/-- Settles O40: of the steps of all agents only KEYGEN's record a cause, and from the invariant its check of
`e * d` passes. -/
theorem edCheckIsNeverWritten : Obligations.EdCheckIsNeverWritten := by
  intro s t hs hne h
  have byCommand {i : Instr} {w : World} (h : exec i { s with world := w } = .next t) :
      t.status.lastFail ≠ .edCheck :=
    exec_lastFail_ne_edCheck (s := { s with world := w }) hs.keyMaterial hne h
  rcases step_next_cases s t h with ⟨rest, -, rfl⟩ | ⟨w, -, rfl⟩ | ⟨r, v, rest, -, -, -, -, rfl⟩
    | ⟨w, rest, -, hb, h⟩ | ⟨i, rest, -, -, h⟩ | ⟨i, a, rest, -, -, h⟩
  · exact FailCause.noConfusion
  · exact hne
  · rwa [storeReg_status]
  · rcases startCommand_next w (s.popped rest) t (hs.idle hb) h with ⟨i, -, rfl⟩ | ⟨-, rfl⟩
    · rcases accept_lastFail i (storeReg .cmd w (s.popped rest)) with e | e <;> rw [e]
      · exact FailCause.noConfusion
      · exact hne
    · exact hne
  · exact byCommand h
  · exact byCommand h

end Sys2Proof.Machine

namespace Sys2Proof.Machine

/-! ## The end of a KEYGEN under fairness (43_keygen.md R121, 60_exceptions.md R149)

Between acceptance and its end a KEYGEN goes down a measure: attempts left, then steps left in the attempt. A
step of any agent lowers it, ends the command, or leaves KEYGEN where it is. Under fairness the last cannot go
on for ever. -/

/-- The steps left of an attempt, counted so that a failed one still goes down to `K_START`. -/
def KStep.rank : KStep → Nat
  | .pickP => 9 | .pickQ => 8 | .fetchP => 7 | .fetchQ => 6 | .derive => 5 | .drawE => 4 | .finish => 3
  | .init => 3 | .start => 2 | .idle | .run => 0

/-- Each attempt that may still be started counts for its eight steps. -/
def State.keygenMeasure (s : State) : Nat :=
  8 * (s.conf.maxtry.toNat - s.attempts.toNat) + s.hidden.kstep.rank

theorem KStep.rank_next {k : KStep} (hk : k.ofKeygen = true) (hstart : k ≠ .start) : k.next.rank < k.rank := by
  cases k <;> simp [KStep.next, KStep.rank, KStep.ofKeygen] at hk hstart ⊢

/-- KEYGEN is where it was. -/
structure State.KeygenWaits (s t : State) : Prop where
  hidden   : t.hidden = s.hidden
  attempts : t.attempts = s.attempts
  conf     : t.conf = s.conf
  busy     : t.status.busy = s.status.busy

theorem State.KeygenWaits.measure_eq {s t : State} (h : s.KeygenWaits t) : t.keygenMeasure = s.keygenMeasure := by
  rw [State.keygenMeasure, h.hidden, h.attempts, h.conf, State.keygenMeasure]

/-- Where KEYGEN is does not depend on the steps to come. -/
theorem State.KeygenWaits.of_popped {s t : State} {rest : List Event} (h : (s.popped rest).KeygenWaits t) :
    s.KeygenWaits t := ⟨h.hidden, h.attempts, h.conf, h.busy⟩

/-- A step of KEYGEN ends it, goes down the measure, or asks again for the exponent's draw. -/
theorem State.KeygenMove.descends {s t : State} (hmove : s.KeygenMove t) (hk : s.hidden.kstep.ofKeygen = true) :
    t.status.busy = false ∨ t.keygenMeasure < s.keygenMeasure
      ∨ (s.hidden.kstep = .drawE
        ∧ t = { s with hidden := { s.hidden with req := .rand (s.hidden.tphi - 1) } }) := by
  cases hmove with
  | ended code => exact .inl rfl
  | advanced phase h hne hh =>
    refine .inr (.inl (Nat.add_lt_add_left ?_ _))
    exact (congrArg KStep.rank hh).trans_lt (KStep.rank_next hk hne)
  | counted phase h hs hh hcap =>
    have hatt : (s.attempts + 1#64).toNat = s.attempts.toNat + 1 :=
      BitVec.toNat_add_of_lt (by have := s.conf.maxtry.isLt; change s.attempts.toNat + 1 < _; omega)
    refine .inr (.inl ?_)
    change 8 * (s.conf.maxtry.toNat - (s.attempts + 1#64).toNat) + h.kstep.rank
      < 8 * (s.conf.maxtry.toNat - s.attempts.toNat) + s.hidden.kstep.rank
    rw [hatt, hs, hh]
    simp only [KStep.rank]
    omega
  | asked hh => exact .inr (.inr ⟨hh, rfl⟩)
  | failed cause hh hed =>
    refine .inr (.inl (Nat.add_lt_add_left ?_ _))
    change KStep.rank .start < s.hidden.kstep.rank
    rcases hh with h | h <;> rw [h] <;> decide
  | valid n e d phi hh => exact .inl rfl

/-- From the invariant, asking again changes nothing: the request is the one that is pending. -/
theorem State.Inv.asked_again {s : State} (hs : s.Inv) (hk : s.hidden.kstep = .drawE) :
    { s.hidden with req := .rand (s.hidden.tphi - 1) } = s.hidden := by
  rw [← show s.hidden.req = .rand (s.hidden.tphi - 1) by rw [hs.req_eq, requestFor, hk]]

/-- An answer that is taken, and KEYGEN's turn, go down the measure or end the command, but for a draw that is
not coprime. -/
theorem exec_keygen_descends {s t : State} {a : Option Answer} (hs : s.Inv) (hk : s.hidden.kstep.ofKeygen = true)
    (ha : s.hidden.kstep.ownStep = true ∨ ∃ b, a = some b ∧ s.hidden.req.takes b = true)
    (h : exec .keygen (s.withPort a) = .next t) :
    t.status.busy = false ∨ t.keygenMeasure < s.keygenMeasure ∨ (s.hidden.kstep = .drawE ∧ s.KeygenWaits t) := by
  rcases exec_keygen_moves h with ⟨hidle, -⟩ | ⟨b, hmove⟩ | ⟨hown, hunanswered, -⟩
  · exact absurd hidle ((KStep.ofKeygen_iff _).1 hk).1
  · rcases hmove.descends hk with hb | hlt | ⟨hdraw, rfl⟩
    · exact .inl hb
    · exact .inr (.inl hlt)
    · exact .inr (.inr ⟨hdraw, hs.asked_again hdraw, rfl, rfl, rfl⟩)
  · rcases ha with ha | ⟨b, rfl, ha⟩
    · exact absurd (ha.symm.trans hown) (by decide)
    · exact absurd (ha.symm.trans (hs.req_eq ▸ hunanswered b rfl)) (by decide)

/-- The draw of a coprime exponent is the last (43_keygen.md R111). -/
theorem keygenDrawE_coprime {s : State} {r : Word} (hg : Nat.gcd (1 + r.toNat) s.hidden.tphi.toNat = 1) :
    (keygenDrawE r s).status.busy = false ∨ (keygenDrawE r s).hidden.kstep = .finish := by
  rcases keygenDrawE_cases r s with ⟨-, e⟩ | ⟨-, hne, -⟩ | ⟨-, -, e⟩
  · exact .inl (by rw [e]; rfl)
  · exact absurd hg hne
  · exact .inr (by rw [e])

/-- A draw in range that is not coprime leaves KEYGEN where it is. -/
theorem keygenDrawE_notCoprime {s : State} {r : Word} (hs : s.Inv) (hk : s.hidden.kstep = .drawE)
    (hr : r.toNat < s.hidden.tphi.toNat - 1) (hg : Nat.gcd (1 + r.toNat) s.hidden.tphi.toNat ≠ 1) :
    s.KeygenWaits (keygenDrawE r s) := by
  rcases keygenDrawE_cases r s with ⟨hr', -⟩ | ⟨-, -, e⟩ | ⟨-, hg', -⟩
  · exact absurd hr' hr.not_ge
  · rw [e]
    exact ⟨hs.asked_again hk, rfl, rfl, rfl⟩
  · exact absurd hg' hg

/-! ### The agents' steps with a KEYGEN in progress -/

/-- A step of an agent, with a KEYGEN in progress, that is no reset: KEYGEN waits, or its own step is taken, or an
answer that it waits for is. -/
theorem keygen_agentStep_cases {s t : State} {ev : Event} (hs : s.Inv) (hk : s.hidden.kstep.ofKeygen = true)
    (hev : ev ≠ .reset) (h : agentStep ev s = .next t) :
    (s.KeygenWaits t ∧ (ev = .mie → s.hidden.kstep.ownStep = false) ∧ ev.answers s.hidden.req = false)
    ∨ (ev = .mie ∧ s.hidden.kstep.ownStep = true ∧ exec .keygen s = .next t)
    ∨ (ev.answers s.hidden.req = true
      ∧ ∃ a, s.hidden.req.takes a = true ∧ (∀ b, ev = .answer b → b = a)
        ∧ exec .keygen (s.withPort (some a)) = .next t) := by
  obtain ⟨hin, -⟩ := (inv_iff_of_keygen hk).1 hs
  have waits : s.KeygenWaits s := ⟨rfl, rfl, rfl, rfl⟩
  have delivered {a : Answer} (ha : s.hidden.req.takes a = true) (h : deliver a s = .next t) :
      exec .keygen (s.withPort (some a)) = .next t := by
    rw [deliver, if_pos ha] at h
    exact (engine_command (s.withPort (some a)) .keygen hin.command).symm.trans h
  cases ev with
  | reset => exact absurd rfl hev
  | read idx =>
    cases h
    exact .inl ⟨⟨rfl, rfl, rfl, rfl⟩, by simp, rfl⟩
  | write idx v =>
    cases (hostWrite_busy hin.busy idx v).symm.trans h
    exact .inl ⟨waits, by simp, rfl⟩
  | busRead off len =>
    by_cases hadm : len = 8 ∧ off % 8 = 0
    · cases (busRead_admitted hadm s).symm.trans h
      exact .inl ⟨⟨rfl, rfl, rfl, rfl⟩, by simp, rfl⟩
    · cases (busRead_refused hadm s).symm.trans h
  | busWrite off bytes =>
    by_cases hadm : bytes.length = 8 ∧ off % 8 = 0
    · cases ((busWrite_admitted hadm s).trans (hostWrite_busy hin.busy _ _)).symm.trans h
      exact .inl ⟨waits, by simp, rfl⟩
    · cases (busWrite_refused hadm s).symm.trans h
  | poll =>
    cases (hostPoll_busy s hin.busy).symm.trans h
    exact .inl ⟨⟨rfl, rfl, rfl, rfl⟩, by simp, rfl⟩
  | mie =>
    cases hown : s.hidden.kstep.ownStep with
    | false =>
      cases (mieTurn_waiting s hown).symm.trans h
      exact .inl ⟨waits, fun _ => rfl, rfl⟩
    | true => exact .inr (.inl ⟨rfl, rfl, (mieTurn_own s .keygen hown hin.command).symm.trans h⟩)
  | answer a =>
    cases ha : s.hidden.req.takes a with
    | false =>
      cases (deliver_dropped ha).symm.trans h
      exact .inl ⟨waits, by simp, ha⟩
    | true => exact .inr (.inr ⟨ha, a, ha, by simp [eq_comm], delivered ha h⟩)
  | serve available =>
    by_cases hreq : ∃ i, s.hidden.req = .prime i
    · obtain ⟨i, hi⟩ := hreq
      have ha : s.hidden.req.takes (primeAnswer Config.primeTable Config.primeMayBeUnavailable available i)
          = true := by rw [hi]; exact primeAnswer_taken _ _ _ _ _
      refine .inr (.inr ⟨by rw [hi]; rfl, _, ha, by simp, delivered ha ?_⟩)
      exact (primeServe_pending hi available).symm.trans h
    · cases (primeServe_notPending (not_exists.1 hreq) available).symm.trans h
      refine .inl ⟨waits, by simp, ?_⟩
      cases hr : s.hidden.req with
      | prime i => exact absurd ⟨i, hr⟩ hreq
      | none | rand b => rfl

/-- Any such step that does not go down the measure or end the command leaves KEYGEN where it is, and then it was
not the engine's turn with a step due, nor an answer that is taken, unless a draw that is not coprime. -/
theorem keygen_agentStep_descends {s t : State} {ev : Event} (hs : s.Inv) (hk : s.hidden.kstep.ofKeygen = true)
    (hev : ev ≠ .reset) (h : agentStep ev s = .next t) :
    t.status.busy = false ∨ t.keygenMeasure < s.keygenMeasure
    ∨ (s.KeygenWaits t ∧ (ev = .mie → s.hidden.kstep.ownStep = false)
      ∧ (ev.answers s.hidden.req = true → s.hidden.kstep = .drawE)) := by
  rcases keygen_agentStep_cases hs hk hev h with ⟨hwaits, hmie, hans⟩ | ⟨rfl, hown, h⟩ | ⟨-, a, ha, -, h⟩
  · exact .inr (.inr ⟨hwaits, hmie, fun h => by simp [hans] at h⟩)
  · rcases exec_keygen_descends (a := s.world.answer) hs hk (.inl hown) h with hb | hlt | ⟨hdraw, -⟩
    · exact .inl hb
    · exact .inr (.inl hlt)
    · rw [hdraw] at hown; cases hown
  · rcases exec_keygen_descends hs hk (.inr ⟨a, rfl, ha⟩) h with hb | hlt | ⟨hdraw, hwaits⟩
    · exact .inl hb
    · exact .inr (.inl hlt)
    · exact .inr (.inr ⟨hwaits, fun _ => by rw [hdraw]; rfl, fun _ => hdraw⟩)

/-- A request is pending at the waiting steps of KEYGEN, which are none of the engine's own. -/
theorem State.Inv.ownStep_iff_req {s : State} (hs : s.Inv) (hk : s.hidden.kstep.ofKeygen = true) :
    s.hidden.kstep.ownStep = true ↔ s.hidden.req = .none := by
  rw [hs.req_eq, requestFor]
  cases h : s.hidden.kstep <;> simp_all [KStep.ownStep]

/-- A pending request is one of KEYGEN's. -/
theorem State.Inv.ofKeygen_of_req {s : State} (hs : s.Inv) (hr : s.hidden.req ≠ .none) :
    s.hidden.kstep.ofKeygen = true := by
  have hk := hs.req_ne_none_iff.1 hr
  simp only [List.mem_cons, List.not_mem_nil, or_false] at hk
  rcases hk with h | h | h | h | h <;> rw [h] <;> rfl

/-- A request that the step does not answer stays pending, and KEYGEN waits. -/
theorem keygen_unanswered_waits {s t : State} {ev : Event} (hs : s.Inv) (hr : s.hidden.req ≠ .none)
    (hev : ev ≠ .reset) (hans : ev.answers s.hidden.req = false) (h : agentStep ev s = .next t) :
    s.KeygenWaits t := by
  have hk := hs.ofKeygen_of_req hr
  rcases keygen_agentStep_cases hs hk hev h with ⟨hwaits, -⟩ | ⟨-, hown, -⟩ | ⟨htaken, -⟩
  · exact hwaits
  · exact absurd ((hs.ownStep_iff_req hk).1 hown) hr
  · exact absurd (htaken.symm.trans hans) (by decide)

/-- In `K_DRAWE` KEYGEN waits for a draw and reacts to that. -/
theorem keygen_drawE_cases {s t : State} {ev : Event} (hs : s.Inv) (hk : s.hidden.kstep = .drawE)
    (hev : ev ≠ .reset) (h : agentStep ev s = .next t) :
    (s.KeygenWaits t ∧ ∀ r, ev ≠ .answer (.rand r)) ∨ ∃ r, ev = .answer (.rand r) ∧ t = keygenDrawE r s := by
  have hreq : s.hidden.req = .rand (s.hidden.tphi - 1) := by rw [hs.req_eq, requestFor, hk]
  rcases keygen_agentStep_cases hs (by simp [hk]) hev h with ⟨hwaits, -, hans⟩ | ⟨-, hown, -⟩
    | ⟨hans, a, ha, hsame, h⟩
  · refine .inl ⟨hwaits, ?_⟩
    rintro r rfl
    rw [hreq] at hans
    cases hans
  · rw [hk] at hown; cases hown
  · rw [hreq] at hans ha
    cases ev with
    | answer b =>
      obtain rfl := hsame b rfl
      rcases takes_cases _ _ ha with ⟨-, r, -, rfl⟩ | ⟨i, hi, -⟩
      · refine .inr ⟨r, rfl, ?_⟩
        cases (exec_keygen_drawE (s := s.withPort (some (.rand r))) hk rfl).symm.trans h
        rw [show (s.withPort (some (.rand r))).takeAnswer = s.withPort none from rfl, ← hs.1]
        rfl
      · cases hi
    | _ => cases hans

/-! ### Endless runs -/

section
variable {sched : Nat → Event} {run : Nat → State}

/-- The agents' steps of an endless run, none of them a reset, that starts in a state of the invariant. -/
structure KeygenRun (sched : Nat → Event) (run : Nat → State) : Prop where
  inv     : ∀ n, (run n).Inv
  step    : ∀ n, step ((run n).enqueue (sched n)) = .next (run (n + 1))
  noReset : ∀ n, (run n).nextEvent (sched n) ≠ .reset

theorem enqueue_inv {s : State} (hs : s.Inv) (ev : Event) : (s.enqueue ev).Inv := hs.inWorld hs.1

theorem keygenRun_of_runUnder (h0 : (run 0).Inv) (h : ∀ n, runUnder sched (run 0) n = .next (run n))
    (hreset : ∀ n, (run n).nextEvent (sched n) ≠ .reset) : KeygenRun sched run := by
  have hstep (n : Nat) : step ((run n).enqueue (sched n)) = .next (run (n + 1)) :=
    (runUnder_succ sched (run 0) (run n) n (h n)).symm.trans (h (n + 1))
  refine ⟨fun n => ?_, hstep, hreset⟩
  induction n with
  | zero => exact h0
  | succ n ih => exact step_inv (enqueue_inv ih _) (hstep n)

/-- Where every step leaves KEYGEN where it is, it stays there. -/
theorem waits_forever {m : Nat}
    (h : ∀ k, m ≤ k → (run m).KeygenWaits (run k) → (run k).KeygenWaits (run (k + 1))) :
    ∀ k, m ≤ k → (run m).KeygenWaits (run k) := by
  intro k hk
  induction k, hk using Nat.le_induction with
  | base => exact ⟨rfl, rfl, rfl, rfl⟩
  | succ k hk ih =>
    obtain ⟨hh, ha, hc, hb⟩ := h k hk ih
    exact ⟨hh.trans ih.hidden, ha.trans ih.attempts, hc.trans ih.conf, hb.trans ih.busy⟩

variable (hr : KeygenRun sched run)
include hr

theorem KeygenRun.not_reset_script (n : Nat) (rest : List Event) :
    ((run n).enqueue (sched n)).world.script ≠ .reset :: rest := by
  obtain ⟨rest', hrest⟩ := enqueue_script (sched n) (run n)
  rw [hrest]
  exact fun h => hr.noReset n (List.cons.inj h).1

/-- Each step of the run as the step of the agent whose turn it is. -/
theorem KeygenRun.agentStep_eq (n : Nat) :
    ∃ rest, agentStep ((run n).nextEvent (sched n)) ((run n).popped rest) = .next (run (n + 1)) := by
  obtain ⟨rest, hrest⟩ := enqueue_script (sched n) (run n)
  exact ⟨rest, (step_cons _ _ rest hrest).symm.trans (hr.step n)⟩

/-- `CMD` names the KEYGEN up to its end and in it. -/
theorem KeygenRun.cmd_eq {n : Nat} (hb : ∀ k < n, (run k).status.busy = true) : (run n).cmd = (run 0).cmd := by
  induction n with
  | zero => rfl
  | succ n ih =>
    obtain ⟨-, hcmd, -⟩ := (enqueue_inv (hr.inv n) (sched n)).step_busyKeptOrEnded (hr.step n)
      (hb n n.lt_succ_self) (hr.not_reset_script n)
    exact hcmd.trans (ih fun k hk => hb k (hk.trans n.lt_succ_self))

theorem KeygenRun.ofKeygen (hd : decode (run 0).cmd = .command .keygen) {n : Nat}
    (hb : ∀ k ≤ n, (run k).status.busy = true) : (run n).hidden.kstep.ofKeygen = true := by
  rw [← hr.cmd_eq (n := n) fun k hk => hb k hk.le] at hd
  obtain ⟨-, hk⟩ := (hr.inv n).command_of_opcode (hb n le_rfl) (opcode_of_decode hd)
  rwa [if_pos rfl] at hk

/-- Under fairness a KEYGEN that does not end goes down the measure. -/
theorem KeygenRun.descends (hfair : Fair sched run) {n : Nat} (hb : ∀ k, (run k).status.busy = true)
    (hk : (run n).hidden.kstep.ofKeygen = true) : ∃ k, (run k).keygenMeasure < (run n).keygenMeasure := by
  by_contra hno
  have stays (k : Nat) (hw : (run n).KeygenWaits (run k)) :
      (run k).KeygenWaits (run (k + 1))
      ∧ ((run k).nextEvent (sched k) = .mie → (run k).hidden.kstep.ownStep = false)
      ∧ (((run k).nextEvent (sched k)).answers (run k).hidden.req = true → (run k).hidden.kstep = .drawE) := by
    obtain ⟨rest, h⟩ := hr.agentStep_eq k
    rcases keygen_agentStep_descends ((hr.inv k).popped rest) (hw.hidden ▸ hk) (hr.noReset k) h with
      hend | hlt | ⟨hstay, hmie, hans⟩
    · exact absurd ((hb _).symm.trans hend) (by decide)
    · exact absurd ⟨k + 1, hlt.trans_eq hw.measure_eq⟩ hno
    · exact ⟨hstay.of_popped, hmie, hans⟩
  have waits : ∀ k, n ≤ k → (run n).KeygenWaits (run k) := waits_forever fun k _ hw => (stays k hw).1
  by_cases hown : (run n).hidden.kstep.ownStep = true
  · obtain ⟨k, hnk, hmie⟩ := hfair.turns n hown
    obtain ⟨-, hnot, -⟩ := stays k (waits k hnk)
    rw [← (waits k hnk).hidden, hnot hmie] at hown
    cases hown
  · obtain ⟨k, hnk, hans⟩ := hfair.answered n (mt ((hr.inv n).ownStep_iff_req hk).2 hown)
    obtain ⟨-, -, hdraw⟩ := stays k (waits k hnk)
    have draws (j : Nat) (hnj : n ≤ j) : (run j).hidden.kstep = .drawE := by
      rw [(waits j hnj).hidden, ← (waits k hnk).hidden]
      exact hdraw hans
    obtain ⟨j, r, hnj, hev, hg⟩ := hfair.coprime n draws
    obtain ⟨rest, h⟩ := hr.agentStep_eq j
    rcases keygen_drawE_cases ((hr.inv j).popped rest) (draws j hnj) (hr.noReset j) h with
      ⟨-, hnone⟩ | ⟨r', hev', ht⟩
    · exact hnone r hev
    · cases hev.symm.trans hev'
      rcases keygenDrawE_coprime (s := (run j).popped rest) hg with hend | hfinish
      · exact absurd ((hb (j + 1)).symm.trans (ht ▸ hend)) (by decide)
      · exact absurd ((draws (j + 1) (by omega)).symm.trans (ht ▸ hfinish)) (by decide)

/-- There is no least measure to stay at. -/
theorem KeygenRun.ends (hfair : Fair sched run) (hd : decode (run 0).cmd = .command .keygen) :
    ∃ n, (run n).status.busy = false := by
  by_contra hno
  have hb (k : Nat) : (run k).status.busy = true := Bool.eq_true_of_not_eq_false fun h => hno ⟨k, h⟩
  obtain ⟨n, least⟩ : ∃ n, ∀ k, ¬ (run k).keygenMeasure < (run n).keygenMeasure :=
    ⟨_, Function.not_lt_argmin fun k => (run k).keygenMeasure⟩
  obtain ⟨k, hlt⟩ := hr.descends hfair hb (hr.ofKeygen hd fun k (_ : k ≤ n) => hb k)
  exact least k hlt

/-- The first state of the run with no command in progress is the end of the KEYGEN, and the cap has held
throughout. -/
theorem KeygenRun.ended (hd : decode (run 0).cmd = .command .keygen) {n : Nat}
    (hb : ∀ k < n, (run k).status.busy = true) (hn : (run n).status.busy = false) (h0 : n ≠ 0) :
    (run n).status.done = true ∧ (run n).cmd = (run 0).cmd
      ∧ ∀ k ≤ n, (run k).attempts.toNat ≤ (run k).conf.maxtry.toNat := by
  obtain ⟨m, rfl⟩ := Nat.exists_eq_succ_of_ne_zero h0
  have hinv := enqueue_inv (hr.inv m) (sched m)
  have hbusy := hb m m.lt_succ_self
  have keygen (k : Nat) (hk : k < m + 1) : (run k).hidden.kstep.ofKeygen = true :=
    hr.ofKeygen hd fun j hj => hb j (hj.trans_lt hk)
  obtain ⟨hdone, -⟩ := commandsEndInOneStep _ _ hinv (hr.step m) hbusy hn (hr.not_reset_script m)
  refine ⟨hdone, hr.cmd_eq hb, fun k hk => ?_⟩
  rcases hk.lt_or_eq with hlt | rfl
  · obtain ⟨hin, -⟩ := (inv_iff_of_keygen (keygen k hlt)).1 (hr.inv k)
    exact hin.attempts
  · exact step_keygen_end_attempts hinv hbusy (keygen m m.lt_succ_self) (hr.step m) hn hdone

/-- A request that no step answers is pending for ever (60_exceptions.md R149 (a)). -/
theorem KeygenRun.unanswered_forever {m : Nat} (hreq : (run m).hidden.req ≠ .none)
    (hans : ∀ k, m ≤ k → ((run k).nextEvent (sched k)).answers (run m).hidden.req = false) :
    ∀ k, m ≤ k → (run m).KeygenWaits (run k) := by
  refine waits_forever fun k hk hw => ?_
  obtain ⟨rest, h⟩ := hr.agentStep_eq k
  have hpending : (run k).hidden.req = (run m).hidden.req := congrArg Hidden.req hw.hidden
  exact (keygen_unanswered_waits ((hr.inv k).popped rest) (hpending ▸ hreq) (hr.noReset k)
    (hpending ▸ hans k hk) h).of_popped

/-- So is the request for the exponent's draw while no draw is coprime (60_exceptions.md R149 (b)). -/
theorem KeygenRun.notCoprime_forever {m : Nat} (hdraw : (run m).hidden.kstep = .drawE)
    (hdraws : ∀ k r, m ≤ k → (run k).nextEvent (sched k) = .answer (.rand r) →
      r.toNat < (run m).hidden.tphi.toNat - 1 ∧ Nat.gcd (1 + r.toNat) (run m).hidden.tphi.toNat ≠ 1) :
    ∀ k, m ≤ k → (run m).KeygenWaits (run k) := by
  refine waits_forever fun k hk hw => ?_
  obtain ⟨rest, h⟩ := hr.agentStep_eq k
  have hinv := (hr.inv k).popped rest
  have hkstep : ((run k).popped rest).hidden.kstep = .drawE := (congrArg Hidden.kstep hw.hidden).trans hdraw
  rcases keygen_drawE_cases hinv hkstep (hr.noReset k) h with ⟨hstay, -⟩ | ⟨r, hev, ht⟩
  · exact hstay.of_popped
  · obtain ⟨hrange, hg⟩ := hdraws k r hk hev
    rw [← hw.hidden] at hrange hg
    exact ht ▸ (keygenDrawE_notCoprime hinv hkstep hrange hg).of_popped

end

/-- Settles O49: under fairness the measure runs out; a request that is not answered and draws that are not
coprime leave KEYGEN where it is. -/
theorem keygenEndsUnderFairness : Obligations.KeygenEndsUnderFairness := by
  intro sched run h0 hb0 hd hrun hreset
  have hr := keygenRun_of_runUnder h0 hrun hreset
  refine ⟨fun hfair => ?fair, fun m hb hreq hans k hk => ?unanswered, fun m hdraw hdraws k hk => ?notCoprime⟩
  case fair =>
    have hends := hr.ends hfair hd
    have hbefore (k : Nat) (hk : k < Nat.find hends) : (run k).status.busy = true :=
      Bool.eq_true_of_not_eq_false (Nat.find_min hends hk)
    have hn := Nat.find_spec hends
    have hne : Nat.find hends ≠ 0 := fun h => by rw [h, hb0] at hn; cases hn
    obtain ⟨hdone, hcmd, hatt⟩ := hr.ended hd hbefore hn hne
    exact ⟨Nat.find hends, hbefore, hn, hdone, hcmd, hatt⟩
  case unanswered =>
    have hw := hr.unanswered_forever hreq hans k hk
    exact ⟨hw.busy.trans hb, hw.hidden⟩
  case notCoprime =>
    have hw := hr.notCoprime_forever hdraw hdraws k hk
    obtain ⟨hin, -⟩ := (inv_iff_of_keygen (s := run m) (by simp [hdraw])).1 (hr.inv m)
    exact ⟨hw.busy.trans hin.busy, hw.hidden⟩

end Sys2Proof.Machine

namespace Sys2Proof.Machine

/-! ## `BOTH_ZERO` (60_exceptions.md R132, R142)

KEYGEN has codes of its own, and of the arithmetic commands each raises its own; `BOTH_ZERO` is `GCD`'s. -/

/-- The codes that a KEYGEN records: `NONE` at its acceptance and its Valid end, else the errors of 43_keygen.md
R101 to R111. -/
def ErrCode.ofKeygen : ErrCode → Bool
  | .none | .config | .primeNotFound | .retryLimit | .randRange => true
  | .illegalCmd | .bothZero | .modZero | .notCoprime => false

/-- A step from `s` to `t` leaves `ERR` as it is, or it records a code of KEYGEN's. -/
def State.ErrKeptOrKeygens (s t : State) : Prop :=
  t.status.err = s.status.err ∨ t.status.err.ofKeygen = true

theorem onRand_errKeptOrKeygens {react : Word → State → State}
    (h : ∀ (r : Word) (u : State), u.ErrKeptOrKeygens (react r u)) (s : State) :
    s.ErrKeptOrKeygens (onRand react s) := by
  rcases onRand_cases react s with ⟨r, -, e⟩ | e <;> rw [e]
  · exact h r s.takeAnswer
  · exact .inl rfl

theorem onPrime_errKeptOrKeygens {react : Option Word → State → State}
    (h : ∀ (v : Option Word) (u : State), u.ErrKeptOrKeygens (react v u)) (s : State) :
    s.ErrKeptOrKeygens (onPrime react s) := by
  rcases onPrime_cases react s with ⟨v, -, e⟩ | ⟨-, e⟩ | e <;> rw [e]
  · exact h (some v) s.takeAnswer
  · exact h none s.takeAnswer
  · exact .inl rfl

theorem keygenInit_errKeptOrKeygens (s : State) : s.ErrKeptOrKeygens (keygenInit s) := by
  rcases keygenInit_cases s with ⟨-, e⟩ | ⟨-, e⟩ <;> rw [e]
  · exact .inl rfl
  · exact .inr rfl

theorem keygenStart_errKeptOrKeygens (s : State) : s.ErrKeptOrKeygens (keygenStart s) := by
  rcases keygenStart_cases s with ⟨-, e⟩ | ⟨-, e⟩ <;> rw [e]
  · exact .inr rfl
  · exact .inl rfl

theorem keygenPickP_errKeptOrKeygens (r : Word) (s : State) : s.ErrKeptOrKeygens (keygenPickP r s) := by
  rcases keygenPickP_cases r s with ⟨-, e⟩ | ⟨-, e⟩ <;> rw [e]
  · exact .inr rfl
  · exact .inl rfl

theorem keygenPickQ_errKeptOrKeygens (r : Word) (s : State) : s.ErrKeptOrKeygens (keygenPickQ r s) := by
  rcases keygenPickQ_cases r s with ⟨-, e⟩ | ⟨-, e⟩ <;> rw [e]
  · exact .inr rfl
  · exact .inl rfl

theorem keygenFetchP_errKeptOrKeygens (v : Option Word) (s : State) : s.ErrKeptOrKeygens (keygenFetchP v s) := by
  cases v with
  | none => exact .inr rfl
  | some v => exact .inl rfl

theorem keygenFetchQ_errKeptOrKeygens (v : Option Word) (s : State) : s.ErrKeptOrKeygens (keygenFetchQ v s) := by
  cases v with
  | none => exact .inr rfl
  | some v => exact .inl rfl

theorem keygenDerive_errKeptOrKeygens (s : State) : s.ErrKeptOrKeygens (keygenDerive s) := by
  rcases keygenDerive_cases s with ⟨-, e⟩ | ⟨-, -, e⟩ | ⟨-, -, e⟩ <;> rw [e] <;> exact .inl rfl

theorem keygenDrawE_errKeptOrKeygens (r : Word) (s : State) : s.ErrKeptOrKeygens (keygenDrawE r s) := by
  rcases keygenDrawE_cases r s with ⟨-, e⟩ | ⟨-, -, e⟩ | ⟨-, -, e⟩ <;> rw [e]
  · exact .inr rfl
  · exact .inl rfl
  · exact .inl rfl

theorem keygenFinish_errKeptOrKeygens (s : State) : s.ErrKeptOrKeygens (keygenFinish s) := by
  rcases keygenFinish_cases s with ⟨-, e⟩ | ⟨-, -, e⟩ | ⟨-, -, e⟩ <;> rw [e]
  · exact .inl rfl
  · exact .inl rfl
  · exact .inr rfl

/-- KEYGEN records no code of another command. -/
theorem exec_keygen_errKeptOrKeygens {s t : State} (h : exec .keygen s = .next t) : s.ErrKeptOrKeygens t := by
  rcases exec_keygen_next s t h with ⟨-, rfl⟩ | ⟨-, rfl⟩ | ⟨-, rfl⟩ | ⟨-, rfl⟩ | ⟨-, rfl⟩ | ⟨-, rfl⟩
    | ⟨-, rfl⟩ | ⟨-, rfl⟩ | ⟨-, rfl⟩ | ⟨-, rfl⟩
  · exact .inr rfl
  · exact keygenInit_errKeptOrKeygens s
  · exact keygenStart_errKeptOrKeygens s
  · exact onRand_errKeptOrKeygens keygenPickP_errKeptOrKeygens s
  · exact onRand_errKeptOrKeygens keygenPickQ_errKeptOrKeygens s
  · exact onPrime_errKeptOrKeygens keygenFetchP_errKeptOrKeygens s
  · exact onPrime_errKeptOrKeygens keygenFetchQ_errKeptOrKeygens s
  · exact keygenDerive_errKeptOrKeygens s
  · exact onRand_errKeptOrKeygens keygenDrawE_errKeptOrKeygens s
  · exact keygenFinish_errKeptOrKeygens s

/-- Of the arithmetic steps at `K_RUN` that of `GCD` alone records `BOTH_ZERO`, on two zeros. -/
theorem exec_arithmetic_bothZero {i : Instr} (hi : i ≠ .keygen) {s t : State} (h : exec i s = .next t)
    (ht : t.status.err = .bothZero) : i = .gcd ∧ s.hidden.kstep = .run ∧ s.operands.a = 0 ∧ s.operands.b = 0 := by
  cases i with
  | keygen => exact absurd rfl hi
  | gcd =>
    rcases runArithmetic_next _ _ s t h with ⟨-, rfl⟩ | ⟨hk, rfl⟩
    · cases ht
    · rw [gcdBody_err] at ht
      split at ht
      · next h0 => exact ⟨rfl, hk, s.opA_opB_zero_iff.1 h0⟩
      · cases ht
  | xgcd => rcases runArithmetic_next _ _ s t h with ⟨-, rfl⟩ | ⟨-, rfl⟩ <;> cases ht
  | modinv =>
    rcases runArithmetic_next _ _ s t h with ⟨-, rfl⟩ | ⟨-, rfl⟩
    · cases ht
    · rw [modinvBody_err] at ht
      split_ifs at ht
  | modpow =>
    rcases runArithmetic_next _ _ s t h with ⟨-, rfl⟩ | ⟨-, rfl⟩
    · cases ht
    · rw [modpowBody_err] at ht
      split_ifs at ht

/-- Settles O20: on two zeros the step of `GCD` is `endCommand` alone; no other command has the code. -/
theorem bothZeroIsRaisedByGcdOfZerosOnly : Obligations.BothZeroIsRaisedByGcdOfZerosOnly := by
  refine ⟨fun s hk ha hb => ?_, fun i s t h hs ht => ?_⟩
  · obtain ⟨hA, hB⟩ := s.opA_opB_zero_iff.2 ⟨ha, hb⟩
    rw [exec_gcd_run s hk, gcdBody_zero s hA hB]
    rfl
  · by_cases hi : i = .keygen
    · subst hi
      rcases exec_keygen_errKeptOrKeygens h with hkept | hcode
      · exact absurd (hkept.symm.trans ht) hs
      · rw [ht] at hcode
        cases hcode
    · exact exec_arithmetic_bothZero hi h ht

end Sys2Proof.Machine

namespace Sys2Proof.Machine

/-! ## Waiting (60_exceptions.md R149, 70_reset_and_hazards.md R155) -/

/-- Settles O47: none of these is a step of the engine's own, so its turn changes nothing. -/
theorem waitingEngineStaysAsItIs : Obligations.WaitingEngineStaysAsItIs := by
  intro n s hk hscript
  have hown : s.hidden.kstep.ownStep = false := by
    simp only [List.mem_cons, List.not_mem_nil, or_false] at hk
    rcases hk with h | h | h | h | h | h <;> rw [h] <;> rfl
  have hstep : step s = .next s := (step_nil s hscript).trans (mieTurn_waiting s hown)
  induction n with
  | zero => rfl
  | succ n ih => exact (runSteps_of_step hstep n).trans ih

/-- A draw in range whose exponent is not coprime to the totient (43_keygen.md R111). -/
def Hidden.NotCoprimeDraw (h : Hidden) (r : Word) : Prop :=
  r.toNat < h.tphi.toNat - 1 ∧ Nat.gcd (1 + r.toNat) h.tphi.toNat ≠ 1

theorem popped_eq_self {s : State} {rest : List Event} (h : s.world.script = rest) : s.popped rest = s := by
  subst h
  rfl

section
variable {s : State} {r : Word} (hs : s.Inv) (hk : s.hidden.kstep = .drawE) (hr : s.hidden.NotCoprimeDraw r)
include hs hk hr

/-- Such a draw has KEYGEN ask for what it has asked for already. -/
theorem keygenDrawE_eq_self : keygenDrawE r s = s := by
  obtain ⟨hrange, hg⟩ := hr
  rcases keygenDrawE_cases r s with ⟨hrange', -⟩ | ⟨-, -, e⟩ | ⟨-, hg', -⟩
  · exact absurd hrange' hrange.not_ge
  · rw [e, hs.asked_again hk]
  · exact absurd hg' hg

theorem agentStep_notCoprimeDraw : agentStep (.answer (.rand r)) s = .next s := by
  obtain ⟨t, h⟩ : ∃ t, agentStep (.answer (.rand r)) s = .next t := hs.deliver_answers (.rand r)
  rcases keygen_drawE_cases hs hk Event.noConfusion h with ⟨-, hnone⟩ | ⟨r', hev, rfl⟩
  · exact absurd rfl (hnone r)
  · cases hev
    rw [h, keygenDrawE_eq_self hs hk hr]

theorem step_notCoprimeDraw {rest : List Event} (hscript : s.world.script = .answer (.rand r) :: rest) :
    step s = .next (s.popped rest) :=
  (step_cons s _ rest hscript).trans (agentStep_notCoprimeDraw (hs.popped rest) hk hr)

end

theorem runSteps_notCoprimeDraws {rs : List Word} {rest : List Event} {s : State} (hs : s.Inv)
    (hk : s.hidden.kstep = .drawE) (hrs : ∀ r ∈ rs, s.hidden.NotCoprimeDraw r)
    (hscript : s.world.script = rs.map (fun r => .answer (.rand r)) ++ rest) :
    runSteps rs.length s = .next (s.popped rest) := by
  induction rs generalizing s with
  | nil => exact congrArg _ (popped_eq_self hscript).symm
  | cons r rs ih =>
    obtain ⟨hr, hrs⟩ := List.forall_mem_cons.1 hrs
    exact (runSteps_of_step (step_notCoprimeDraw hs hk hr hscript) _).trans (ih (hs.popped _) hk hrs rfl)

theorem runUnder_notCoprimeDraws {rs : Nat → Word} {s : State} (hs : s.Inv) (hk : s.hidden.kstep = .drawE)
    (hrs : ∀ k, s.hidden.NotCoprimeDraw (rs k)) (hscript : s.world.script = []) (n : Nat) :
    runUnder (fun k => .answer (.rand (rs k))) s n = .next s := by
  induction n with
  | zero => rfl
  | succ n ih =>
    have hdraw : (s.enqueue (.answer (.rand (rs n)))).world.script = [.answer (.rand (rs n))] := by
      rw [State.enqueue, hscript]
      rfl
    calc runUnder (fun k => .answer (.rand (rs k))) s (n + 1)
        = step (s.enqueue (.answer (.rand (rs n)))) := runUnder_succ _ s s n ih
      _ = .next (s.popped []) := step_notCoprimeDraw (enqueue_inv hs _) hk (hrs n) hdraw
      _ = .next s := congrArg _ (popped_eq_self hscript)

/-- Settles O48: each such draw leaves the state as it is but for the steps to come, so any number of them does. -/
theorem nonCoprimeDrawsLeaveKeygenInDrawE : Obligations.NonCoprimeDrawsLeaveKeygenInDrawE := fun _ hs hk =>
  ⟨fun _ _ hrs hscript => runSteps_notCoprimeDraws hs hk hrs hscript,
    fun _ hrs hscript n => runUnder_notCoprimeDraws hs hk hrs hscript n⟩

end Sys2Proof.Machine

namespace Sys2Proof.Machine

/-! ## How long `ERR` stays (60_exceptions.md R144) -/

/-- A code in `ERR` is that of a command that is over. -/
theorem State.Inv.idle_of_err {s : State} (hs : s.Inv) (he : s.status.err ≠ .none) :
    s.hidden.kstep = .idle ∧ s.hidden.req = .none := by
  obtain ⟨-, ⟨hbd, hb, -, herr⟩, -, hreq, -, -⟩ := hs
  have hbusy : s.status.busy = false := Bool.eq_false_of_not_eq_true fun h => hbd ⟨h, herr he⟩
  have hk := hb.1 hbusy
  exact ⟨hk, by rw [hreq, requestFor, hk]⟩

/-- Settles O57: with a code in `ERR` no step of a command is due and no request is pending, so of the steps that
`step_next_cases` lists only reset and the host's writes are left, and a store leaves `STATUS` alone. -/
theorem errorCodeStaysUntilTheNextCommand : Obligations.ErrorCodeStaysUntilTheNextCommand := by
  intro s t hs he h hne
  obtain ⟨hk, hreq⟩ := hs.idle_of_err he
  rcases step_next_cases s t h with ⟨rest, hr, -⟩ | ⟨w, -, rfl⟩ | ⟨r, v, rest, -, -, -, -, rfl⟩
    | ⟨w, -, ⟨rest, hw | ⟨off, bytes, -, hoff, -, hw⟩⟩, hb, -⟩ | ⟨i, rest, -, hown, -⟩ | ⟨i, a, rest, -, ha, -⟩
  · exact .inl ⟨rest, hr⟩
  · exact absurd rfl hne
  · exact absurd (congrArg Status.err (storeReg_status r v _)) hne
  · exact .inr ⟨hb, rest, .inl ⟨w, hw⟩⟩
  · exact .inr ⟨hb, rest, .inr ⟨off, bytes, hoff.symm, hw⟩⟩
  · rw [hk] at hown
    cases hown
  · rw [hreq] at ha
    cases ha

end Sys2Proof.Machine

namespace Sys2Proof.Machine

/-! ## Reset (70_reset_and_hazards.md R155 to R157, 20_memory.md R52) -/

/-- The state that the reset step leaves: the engine after reset, in a world of these steps and replies. -/
def State.afterReset (script : List Event) (replies : List Reply) : State :=
  { State.reset with world := { script := script, answer := none, replies := replies } }

theorem step_reset {s : State} {rest : List Event} (h : s.world.script = .reset :: rest) :
    step s = .next (State.afterReset rest s.world.replies) :=
  step_cons s .reset rest h

/-- An answer that no pending request takes falls, whatever the state. -/
theorem step_answer_dropped {s : State} {a : Answer} {rest : List Event}
    (h : s.world.script = .answer a :: rest) (hreq : s.hidden.req.takes a = false) :
    step s = .next (s.popped rest) :=
  (step_cons s (.answer a) rest h).trans (deliver_dropped (s := s.popped rest) hreq)

/-- After reset no request is pending, so none takes an answer. -/
theorem afterReset_takes (script : List Event) (replies : List Reply) (a : Answer) :
    (State.afterReset script replies).hidden.req.takes a = false := by
  cases a <;> rfl

/-- Settles O6: the reset step does not look at the state, and leaves no request that could take a late answer. -/
theorem resetAbandonsEverything : Obligations.ResetAbandonsEverything := by
  refine fun s rest hscript => ⟨step_reset hscript, fun a later hlate => ?_⟩
  subst hlate
  calc runSteps 2 s
      = runSteps 1 (State.afterReset (.answer a :: later) s.world.replies) :=
        runSteps_of_step (step_reset hscript) 1
    _ = .next (State.afterReset later s.world.replies) :=
        runSteps_of_step (step_answer_dropped rfl (afterReset_takes _ _ a)) 0

end Sys2Proof.Machine
